-- ==== Sys2Proof/Word.lean ====
section
/-! DEFINITION. The word types of the block: 32-bit registers, bytes of serial frames, host byte addresses. -/

namespace Sys2Proof

/-- A 32-bit register value, command word or binary32 datum (rules R12, R20, R35). -/
abbrev Word := BitVec 32

/-- One byte of a serial frame (rule R15). -/
abbrev Byte := BitVec 8

/-- A host byte address (rule R34: the host register space has 16-bit addresses). -/
abbrev HostAddr := BitVec 16

/-- A control channel or DAC channel number 0..3 (`N_CH` of rule R10). -/
abbrev ChanNo := Fin 4

end Sys2Proof
end

