-- ==== Sys2Proof/Config.lean ====
section
/-! DEFINITION. What an implementation fixes (the parameters of rule R10) and the free values.

The OPEN parameters and the NaN draws are opaque constants with no body: no proof can see what they are. -/

namespace Sys2Proof

/-- One entry `(T, V, S)` of the calibration table: kelvin, volt, mV/K (rule R30). -/
structure CalPoint where
  t : Word
  v : Word
  s : Word
  deriving DecidableEq, Repr

/-- One configuration write of ADC_INIT: its size in bytes and its value; the register is fixed (rule R70). -/
structure AdcCfgEntry where
  size : BitVec 3
  value : Word
  deriving DecidableEq, Repr

/-- The parameters of rule R10 that are data; `PID_KERNEL` is a function and stands apart. -/
structure Params where
  /-- `R_SENSE`, ohm. -/
  rSense : Word
  /-- `V_REF_TEC`, volt. -/
  vRefTec : Word
  /-- `V_REF_DAC`, volt. -/
  vRefDac : Word
  /-- `PWM_MAX_I`, ampere. -/
  pwmMaxI : Word
  /-- `PWM_MAX_V`, volt. -/
  pwmMaxV : Word
  /-- `CAL_TABLE`. -/
  calTable : List CalPoint
  /-- `ADC_CFG`, in the order of rule R70. -/
  adcCfg : List AdcCfgEntry
  deriving DecidableEq, Repr

/-- The coefficients of a biquad (rule R93). -/
structure Coeffs where
  b0 : Word
  b1 : Word
  b2 : Word
  a1 : Word
  a2 : Word
  deriving DecidableEq, Repr

/-- The OPEN parameter `R_SENSE` (rule R10, note N5). -/
opaque Config.rSense : Word

/-- The OPEN parameter `V_REF_TEC` (rule R10, note N5). -/
opaque Config.vRefTec : Word

/-- The OPEN parameter `V_REF_DAC` (rule R10, note N5). -/
opaque Config.vRefDac : Word

/-- The OPEN parameter `PWM_MAX_I` (rule R10, note N5). -/
opaque Config.pwmMaxI : Word

/-- The OPEN parameter `PWM_MAX_V` (rule R10, note N5). -/
opaque Config.pwmMaxV : Word

/-- The OPEN parameter `CAL_TABLE` (rule R10, note N1). -/
opaque Config.calTable : List CalPoint

/-- The OPEN parameter `ADC_CFG` (rules R10 and R70, note N4). -/
opaque Config.adcCfg : List AdcCfgEntry

/-- The OPEN part of `PID_KERNEL(kp, ki', kd', li', ld', TS)`: `none` is `reject` (rule R93, note N2). -/
opaque Config.pidKernelOpen (kp ki kd li ld ts : Word) : Option Coeffs

/-- The draws of point I20: the bits of a NaN that operation `site` of command number `cmd` computes. -/
opaque Config.nanDraw (cmd site : Nat) : BitVec 24

/-- The parameters as given; they need not meet the constraints of rule R10. -/
def Config.raw : Params where
  rSense := Config.rSense
  vRefTec := Config.vRefTec
  vRefDac := Config.vRefDac
  pwmMaxI := Config.pwmMaxI
  pwmMaxV := Config.pwmMaxV
  calTable := Config.calTable
  adcCfg := Config.adcCfg

end Sys2Proof
end

