-- ==== Sys2Proof/Machine/Binary32.lean ====
section
/-! DEFINITION. IEEE 754 binary32 arithmetic on 32-bit patterns (rules R13, R14, R20).

A finite datum is an integer number of units of 2^-149, the least subnormal, so every exact sum, product and
quotient is an integer or a quotient of integers, rounded once. An operation that yields a NaN takes its pattern
from a `NanBits` argument, because its payload and sign are a draw (point I20). -/

namespace Sys2Proof.Machine

/-- The bits that pick one computed NaN: bit 23 its sign, bits 22:0 its fraction (point I20). -/
abbrev NanBits := BitVec 24

/-- A supply of draws, one for each operation of a command. -/
abbrev NanPick := Nat → NanBits

/-- The pattern of +0.0. -/
def fZero : Word := 0x00000000#32

/-- The pattern of −0.0. -/
def fNegZero : Word := 0x80000000#32

/-- The pattern of 1.0. -/
def fOne : Word := 0x3F800000#32

/-- The pattern of +infinity. -/
def fPosInf : Word := 0x7F800000#32

/-- The pattern of −infinity. -/
def fNegInf : Word := 0xFF800000#32

/-- Bit 31: true for a negative datum (rule R20). -/
def signBit (w : Word) : Bool := w.getLsbD 31

/-- Bits 30:23: the biased exponent (rule R20). -/
def expField (w : Word) : Nat := (w.extractLsb' 23 8).toNat

/-- Bits 22:0: the fraction (rule R20). -/
def fracField (w : Word) : Nat := (w.extractLsb' 0 23).toNat

/-- The datum is a NaN. -/
def isNaN (w : Word) : Bool := expField w == 255 && fracField w != 0

/-- The datum is +infinity or −infinity. -/
def isInf (w : Word) : Bool := expField w == 255 && fracField w == 0

/-- True unless the datum is an infinity or a NaN (rule R13). -/
def isFinite (w : Word) : Bool := expField w != 255

/-- The absolute value of a finite datum in units of 2^-149; an infinity counts as 2^277, above every finite datum. -/
def magUnits (w : Word) : Nat :=
  if expField w = 0 then fracField w else (2 ^ 23 + fracField w) * 2 ^ (expField w - 1)

/-- The signed value of a datum that is no NaN, in units of 2^-149; +0.0 and −0.0 are both 0. -/
def units (w : Word) : Int := if signBit w then -(magUnits w : Int) else (magUnits w : Int)

/-- The NaN that the drawn bits pick: any sign and any fraction but zero, which stands for no NaN (point I20). -/
def nanWord (d : NanBits) : Word :=
  BitVec.ofBool (d.getLsbD 23) ++ 0xFF#8 ++
    (if d.extractLsb' 0 23 = 0#23 then 0x400000#23 else d.extractLsb' 0 23)

/-- The quiet NaN that the drawn bits pick: the leading fraction bit is set (rule R13, `maxNum` and `minNum`). -/
def quietNanWord (d : NanBits) : Word := nanWord d ||| 0x00400000#32

/-- `num / den` to the nearest integer, a tie to the even one (rule R13). -/
def divNearestEven (num den : Nat) : Nat :=
  if 2 * (num % den) < den then num / den
  else if den < 2 * (num % den) then num / den + 1
  else num / den + num / den % 2

/-- The shift that leaves a quotient `q` of at least 2^24 units with 24 significant bits, and 0 below that. -/
def roundShift (q : Nat) : Nat := if q < 2 ^ 24 then 0 else Nat.log2 q - 23

/-- The pattern, without sign, of `num / den` units of 2^-149 rounded to nearest even, an overflow giving
infinity (rule R13). A significand of `m` at shift `k` has the pattern `m + k * 2^23`, in the subnormal range and
across a carry of the rounding alike. -/
def roundMag (num den : Nat) : Nat :=
  min (divNearestEven num (den * 2 ^ roundShift (num / den)) + roundShift (num / den) * 2 ^ 23) 0x7F800000

/-- The pattern of a sign and a magnitude pattern below 2^31. -/
def packSign (neg : Bool) (mag : Nat) : Word := BitVec.ofNat 32 ((if neg then 2 ^ 31 else 0) + mag)

/-- `fneg` of rule R13: the sign bit flipped. -/
def fneg (a : Word) : Word := a ^^^ 0x80000000#32

/-- `fabs` of rule R13: the sign bit cleared. -/
def fabs (a : Word) : Word := a &&& 0x7FFFFFFF#32

/-- `copysign` of rule R13: `a` with the sign bit of `b`, for zeros and NaNs too. -/
def copysign (a b : Word) : Word := (a &&& 0x7FFFFFFF#32) ||| (b &&& 0x80000000#32)

/-- The exact sum of two finite data, rounded once; an exact zero is −0.0 only where both operands are negative. -/
def addFinite (a b : Word) : Word :=
  if units a + units b = 0 then (if signBit a && signBit b then fNegZero else fZero)
  else packSign (units a + units b < 0) (roundMag (units a + units b).natAbs 1)

/-- `fadd` of rule R13. -/
def fadd (d : NanBits) (a b : Word) : Word :=
  if isNaN a || isNaN b then nanWord d
  else if isInf a then (if isInf b && signBit a != signBit b then nanWord d else a)
  else if isInf b then b
  else addFinite a b

/-- `fsub` of rule R13. -/
def fsub (d : NanBits) (a b : Word) : Word := fadd d a (fneg b)

/-- `fmul` of rule R13. -/
def fmul (d : NanBits) (a b : Word) : Word :=
  if isNaN a || isNaN b then nanWord d
  else if isInf a || isInf b then
    (if magUnits a = 0 || magUnits b = 0 then nanWord d else packSign (signBit a != signBit b) 0x7F800000)
  else packSign (signBit a != signBit b) (roundMag (magUnits a * magUnits b) (2 ^ 149))

/-- `fdiv` of rule R13. -/
def fdiv (d : NanBits) (a b : Word) : Word :=
  if isNaN a || isNaN b then nanWord d
  else if isInf a then (if isInf b then nanWord d else packSign (signBit a != signBit b) 0x7F800000)
  else if isInf b then packSign (signBit a != signBit b) 0
  else if magUnits b = 0 then
    (if magUnits a = 0 then nanWord d else packSign (signBit a != signBit b) 0x7F800000)
  else packSign (signBit a != signBit b) (roundMag (magUnits a * 2 ^ 149) (magUnits b))

/-- `a ≤ b` of two data: false where either is a NaN; +0.0 and −0.0 are equal. -/
def fle (a b : Word) : Bool := !isNaN a && !isNaN b && decide (units a ≤ units b)

/-- `a < b` of two data: false where either is a NaN. -/
def flt (a b : Word) : Bool := !isNaN a && !isNaN b && decide (units a < units b)

/-- `a == 0.0`: true for both zeros. -/
def isZero (a : Word) : Bool := magUnits a == 0

/-- `maxNum` of rule R13: a number wins over a NaN, −0 is less than +0, and two NaNs give a quiet NaN. -/
def maxNum (d : NanBits) (a b : Word) : Word :=
  if isNaN a then (if isNaN b then quietNanWord d else b)
  else if isNaN b then a
  else if units a < units b then b
  else if units b < units a then a
  else if signBit a then b else a

/-- `minNum` of rule R13. -/
def minNum (d : NanBits) (a b : Word) : Word :=
  if isNaN a then (if isNaN b then quietNanWord d else b)
  else if isNaN b then a
  else if units a < units b then a
  else if units b < units a then b
  else if signBit a then a else b

/-- `clampf` of rule R13: the upper bound is applied last. -/
def clampf (d e : NanBits) (v lo hi : Word) : Word := minNum e (maxNum d v lo) hi

/-- `roundHalfAway` of rule R77: the nearest integer of a finite datum, a tie away from zero. -/
def roundHalfAway (w : Word) : Int :=
  if signBit w then -(((2 * magUnits w + 2 ^ 149) / 2 ^ 150 : Nat) : Int)
  else (((2 * magUnits w + 2 ^ 149) / 2 ^ 150 : Nat) : Int)

end Sys2Proof.Machine
end

