-- ==== Sys2Proof/Machine/Calibration.lean ====
section
/-! DEFINITION. The calibration-curve interpolator (rules R85 to R87). -/

namespace Sys2Proof.Machine

/-- Entry `k` of the table. An admitted table has the entries 0 to 143 (rule R30), and only those are read. -/
def calEntry (table : List CalPoint) (k : Nat) : CalPoint := table.getD k ⟨fZero, fZero, fZero⟩

/-- A voltage is in range: `V[143] ≤ v ≤ V[0]`, false for a NaN (rule R86). -/
def calInRange (table : List CalPoint) (v : Word) : Bool :=
  fle v (calEntry table 0).v && fle (calEntry table 143).v v

/-- The bracket index: the largest `k` in 0..142 with `V[k] ≥ v` (rule R87). -/
def calBracket (table : List CalPoint) (v : Word) : Nat :=
  (List.range 143).foldl (fun best k => if fle v (calEntry table k).v then k else best) 0

/-- The temperature interpolated in the bracket `i` (rule R87). -/
def calInterpAt (pick : NanPick) (table : List CalPoint) (v : Word) (i : Nat) : Word :=
  fadd (pick 5) (calEntry table i).t
    (fmul (pick 4) (fsub (pick 0) v (calEntry table i).v)
      (fdiv (pick 3) (fsub (pick 1) (calEntry table (i + 1)).t (calEntry table i).t)
        (fsub (pick 2) (calEntry table (i + 1)).v (calEntry table i).v)))

/-- `CalInterp` (rule R87): the temperature of a voltage in range. -/
def calInterp (pick : NanPick) (table : List CalPoint) (v : Word) : Word :=
  calInterpAt pick table v (calBracket table v)

end Sys2Proof.Machine
end

