-- ==== Sys2Proof/Machine/DacCode.lean ====
section
/-! DEFINITION. The current-to-code conversion and the constants derived from the parameters (rules R76 to R80). -/

namespace Sys2Proof.Machine

/-- The scale constant `K` (rule R76): the binary32 quotient 2^20 / V_REF_DAC. -/
def dacScale (p : Params) : Word := fdiv 0 0x49800000#32 p.vRefDac

/-- The value `t` of rule R77 before it is rounded to an integer. A NaN met on the way stays a NaN, which the
range check refuses, so its bits cannot show and the draws are given as 0. -/
def dacLevel (p : Params) (current : Word) : Word :=
  fmul 0 (fadd 0 (fmul 0 (fmul 0 current 0x41200000#32) p.rSense) p.vRefTec) (dacScale p)

/-- `DacCodeFrom` (rule R77); `none` is BOUNDS. -/
def dacCodeFrom (p : Params) (current : Word) : Option (BitVec 20) :=
  if isFinite (dacLevel p current) then
    if 0 ≤ roundHalfAway (dacLevel p current) ∧ roundHalfAway (dacLevel p current) < 2 ^ 20 then
      some (BitVec.ofNat 20 (roundHalfAway (dacLevel p current)).toNat)
    else none
  else none

/-- The numerator of rule R79's exact value, over the denominator 2^20 · 10 · R_SENSE. -/
def maxCurrentNum (p : Params) : Int := (2 ^ 20 - 1) * units p.vRefDac - 2 ^ 20 * units p.vRefTec

/-- `MAX_CURRENT` (rule R79): the exact value of the code 2^20 − 1, rounded once. -/
def maxCurrent (p : Params) : Word :=
  packSign (decide (maxCurrentNum p < 0))
    (roundMag ((maxCurrentNum p).natAbs * 2 ^ 149) (2 ^ 20 * 10 * magUnits p.rSense))

/-- `C_SAFE` (rule R80). Neither operand is a NaN in an admitted configuration, so the draw cannot show. -/
def cSafe (p : Params) : Word := minNum 0 (maxCurrent p) p.pwmMaxI

end Sys2Proof.Machine
end

