-- ==== Sys2Proof/Machine/Admission.lean ====
section
/-! DEFINITION. The constraints of rule R10 and the admitted configurations: the only ones a State can hold. -/

namespace Sys2Proof.Machine

/-- Adjacent entries: voltage falls and temperature rises (rule R85). -/
def calStrict : List CalPoint → Bool
  | a :: b :: rest => flt b.v a.v && flt a.t b.t && calStrict (b :: rest)
  | _ => true

/-- `CAL_TABLE` is admitted: 144 entries, all finite, strictly ordered (rules R10, R85). -/
def calTableOk (table : List CalPoint) : Bool :=
  table.length == 144 && table.all (fun e => isFinite e.t && isFinite e.v && isFinite e.s) && calStrict table

/-- `ADC_CFG` is admitted: eight entries, each a write of 1 to 3 bytes (rule R70). -/
def adcCfgOk (cfg : List AdcCfgEntry) : Bool :=
  cfg.length == 8 && cfg.all (fun e => 1 ≤ e.size.toNat && e.size.toNat ≤ 3)

/-- The electrical constants are admitted (rule R10). -/
def constantsOk (p : Params) : Bool :=
  isFinite p.rSense && flt fZero p.rSense &&
  isFinite p.vRefTec &&
  isFinite p.vRefDac && flt fZero p.vRefDac &&
  isFinite p.pwmMaxI && flt fZero p.pwmMaxI &&
  isFinite p.pwmMaxV && fle fZero p.pwmMaxV

/-- The derived constants are admitted: MAX_CURRENT maps to the code 2^20 − 1 and C_SAFE is finite and positive
(rules R79, R80). -/
def derivedOk (p : Params) : Bool :=
  dacCodeFrom p (maxCurrent p) == some (BitVec.ofNat 20 (2 ^ 20 - 1)) &&
  isFinite (cSafe p) && flt fZero (cSafe p)

/-- A configuration meets every constraint of rule R10. -/
def paramsAdmitted (p : Params) : Bool :=
  calTableOk p.calTable && adcCfgOk p.adcCfg && constantsOk p && derivedOk p

/-- A configuration that the model admits: the parameters with the fact that they meet rule R10. -/
structure AdmittedConfig where
  params : Params
  admitted : paramsAdmitted params = true
  deriving DecidableEq, Repr

/-- Rule R10's refusal: a configuration that breaks a constraint is not admitted. -/
def admittedConfigOf (p : Params) : Option AdmittedConfig :=
  if h : paramsAdmitted p = true then some ⟨p, h⟩ else none

/-- The calibration table of the test configuration (95_test_vectors.md §1): T[k] = 2k + 2, V[k] = 1.5 − k/256. -/
def testCalTable : List CalPoint :=
  (List.range 144).map fun k =>
    { t := packSign false (roundMag ((2 * k + 2) * 2 ^ 149) 1)
      v := packSign false (roundMag ((384 - k) * 2 ^ 149) 256)
      s := 0xBFFA0000#32 }

/-- The test configuration of 95_test_vectors.md §1. Its values are test values, not the board's. -/
def testParams : Params where
  rSense := 0x3D800000#32
  vRefTec := 0x3FC00000#32
  vRefDac := 0x40800000#32
  pwmMaxI := 0x40000000#32
  pwmMaxV := 0x40800000#32
  calTable := testCalTable
  adcCfg := [⟨2, 0xC001#32⟩, ⟨2, 0xC002#32⟩, ⟨2, 0xC010#32⟩, ⟨2, 0xC011#32⟩,
    ⟨2, 0xC020#32⟩, ⟨2, 0xC021#32⟩, ⟨2, 0xC028#32⟩, ⟨2, 0xC029#32⟩]

/-- The test configuration is admitted (95_test_vectors.md §1). -/
theorem testParams_admitted : paramsAdmitted testParams = true := by decide +kernel

/-- The test configuration, admitted: the witness that some configuration is. -/
def testConfig : AdmittedConfig := ⟨testParams, testParams_admitted⟩

/-- The configuration of the machine: the OPEN parameters where they are admitted. A machine whose parameters are
not admitted does not exist (rule R10); there this term has to stand for some admitted configuration. -/
def givenConfig : AdmittedConfig := (admittedConfigOf Config.raw).getD testConfig

end Sys2Proof.Machine
end

