-- ==== Sys2Proof/Syntax.lean ====
section
/-! DEFINITION. The commands of the block: one constructor per row of spec/opcode_table.json (rule R56). -/

namespace Sys2Proof

/-- Where DAC_SET takes its current from (field `SRC` of rule R54). -/
inductive DacSource where
  /-- SRC = 0: the register DAC_CUR of the channel. -/
  | dacCur
  /-- SRC = 1: the register OUT of the channel. -/
  | out
  deriving DecidableEq, Repr

/-- A command of the sequencer. The operands are the fields of rule R55, at the widths of rule R54; the address
field holds the six bits that a legal word may use (rule R64). -/
inductive Instr where
  /-- NOP, rule R60. -/
  | nop
  /-- UPDATE ch, rule R99. -/
  | update (ch : ChanNo)
  /-- UPDATE_ALL, rule R100. -/
  | updateAll
  /-- FINALIZE ch, rule R105. -/
  | finalize (ch : ChanNo)
  /-- CAL with WT = 0, rule R88. -/
  | cal
  /-- CAL with WT = 1: the row `CAL.T`, rule R88. -/
  | calT (idx : Fin 16)
  /-- ADC_INIT, rule R69. -/
  | adcInit
  /-- ADC_RESET, rule R68. -/
  | adcReset
  /-- ADC_READ addr, size, rule R71. -/
  | adcRead (addr : BitVec 6) (size : BitVec 3)
  /-- ADC_WRITE addr, size, rule R72. -/
  | adcWrite (addr : BitVec 6) (size : BitVec 3)
  /-- ADC_READ_DATA, rule R73. -/
  | adcReadData
  /-- DAC_INIT, rule R83. -/
  | dacInit
  /-- DAC_SET ch, source, rule R82. -/
  | dacSet (ch : ChanNo) (src : DacSource)
  deriving DecidableEq, Repr

end Sys2Proof
end

