-- ==== Sys2Proof/Machine/Regs.lean ====
section
/-! DEFINITION. The parts of the block's state (rules R19, R23, R26, R31, R33) and of its environment (rules R7 to R9). -/

namespace Sys2Proof.Machine

/-- The operating state of a channel (rules R19, R26, R28). -/
inductive ChState where
  | off
  | on
  | hold
  deriving DecidableEq, Repr

/-- The staging registers of a channel (rules R19, R26). -/
structure Stage where
  kp : Word
  ki : Word
  kd : Word
  li : Word
  ld : Word
  setpoint : Word
  pmin : Word
  pmax : Word
  vlim : Word
  ws : Vector Word 16
  deriving DecidableEq, Repr

/-- The eight live filter registers that a build replaces together (rules R94, R95). -/
structure FilterRegs where
  b0 : Word
  b1 : Word
  b2 : Word
  a1 : Word
  a2 : Word
  off : Word
  lo : Word
  hi : Word
  deriving DecidableEq, Repr

/-- The live configuration registers of a channel (rules R19, R26). -/
structure Live where
  filter : FilterRegs
  vlim : Word
  ilimUp : Word
  ilimLo : Word
  w : Vector Word 16
  deriving DecidableEq, Repr

/-- The filter history of a channel (rules R19, R26). -/
structure FilterState where
  x1 : Word
  x2 : Word
  y1 : Word
  y2 : Word
  deriving DecidableEq, Repr

/-- One control channel (rule R19, `ChannelState`). -/
structure Channel where
  state : ChState
  out : Word
  mix : Word
  stage : Stage
  live : Live
  fstate : FilterState
  deriving DecidableEq, Repr

/-- The ADC result and data registers (rules R19, R24). -/
structure AdcRegs where
  wdata : Word
  rdata : Word
  data : BitVec 24
  tag : BitVec 8
  id : BitVec 16
  deriving DecidableEq, Repr

/-- The calibration registers (rules R19, R24). -/
structure CalRegs where
  vin : Word
  tout : Word
  idx : BitVec 8
  deriving DecidableEq, Repr

/-- The sequencer phase (rule R23). The command word of `BUSY(cmd)` is in CMD; the phase holds what it decodes to. -/
inductive SeqState where
  | idle
  | busy (cmd : Instr)
  deriving DecidableEq, Repr

/-- A chip-select line: the bus and the device it addresses (rules R8, R31). -/
inductive BusLine where
  | adc
  | dac (ch : ChanNo)
  deriving DecidableEq, Repr

/-- What becomes of one serial transaction (rule R9). -/
inductive XferResult where
  /-- The transaction ends and these bytes were received (rule R15). -/
  | ok (rx : List Byte)
  /-- The transaction fails (rule R9). -/
  | fault
  /-- The transaction never returns (rules R9, R114). -/
  | stall
  deriving DecidableEq, Repr

/-- The environment's answer to one transaction: its result, and whether `rst_n` falls before the sequencer does
anything after it (rule R122: at any time, including while a command runs). -/
structure Reply where
  result : XferResult
  resetAfter : Bool
  deriving DecidableEq, Repr

/-- A frame as an observer of the bus records it (rule R132): the line, the bytes of `SpiXfer`'s `tx` (rule R15) and what
came of it. A frame recorded as `stall` was begun and never ended. DESIGN CHOICE (notes/assumptions/24.md): a frame that
was cut, by a fault, a stall or reset, keeps the whole `tx`, and the bytes received until the cut are not recorded; how
many of its bytes had been sent, rules R75, R84 and R122 do not say. -/
structure Frame where
  line : BusLine
  tx : List Byte
  result : XferResult
  deriving DecidableEq, Repr

/-- The two serial buses: the chip-select lines (true is the level 1, deasserted), the transaction in flight, the
replies still to come and the frames so far (rules R8, R31, R33, R132). -/
structure Buses where
  csAdcN : Bool
  csDacN : Vector Bool 4
  inFlight : Option (BusLine × List Byte)
  adcIn : List Reply
  dacIn : List Reply
  adcLog : List Frame
  dacLog : List Frame
  deriving DecidableEq, Repr

/-- What happens next, as the environment has it: one host access, a level of the reset pin, or the sequencer's turn
(rules R7, R32, R48: every run is one interleaving of host accesses and command commits). -/
inductive Input where
  | hostRead (addr : HostAddr)
  | hostWrite (addr : HostAddr) (v : Word)
  | rstPin (level : Bool)
  | sequencer
  deriving DecidableEq, Repr

end Sys2Proof.Machine
end

