-- ==== Sys2Proof/Machine/PidFilter.lean ====
section
/-! DEFINITION. The filter build of FINALIZE (43_pid_to_filter.md, rules R90 to R94). -/

namespace Sys2Proof.Machine

/-- The type of a `PID_KERNEL`: six arguments, `none` for `reject` (rule R93). -/
abbrev PidKernel := Word → Word → Word → Word → Word → Word → Option Coeffs

/-- `TS` = 1/1007 s as a binary32 datum (rule R92). -/
def samplePeriod : Word := 0x3A82292F#32

/-- Any kernel, made to meet the one constraint of rule R93: a finite `kp` with `ki'` and `kd'` both zero gives a pure
proportional filter. A kernel that meets it already is unchanged. -/
def constrainKernel (free : PidKernel) : PidKernel := fun kp ki kd li ld ts =>
  if isFinite kp && isZero ki && isZero kd then some ⟨kp, fZero, fZero, fZero, fZero⟩ else free kp ki kd li ld ts

/-- The machine's `PID_KERNEL` (rule R93): open but for that constraint. -/
def pidKernel : PidKernel := constrainKernel Config.pidKernelOpen

/-- Gain sign alignment (rule R90). -/
def alignGain (gain kp : Word) : Word := copysign gain kp

/-- Limit sign alignment: a limit that is not finite becomes +infinity (rule R91). -/
def alignLimit (limit kp : Word) : Word := if isFinite limit then copysign limit kp else fPosInf

/-- Every coefficient is finite (rule R94). -/
def coeffsFinite (k : Coeffs) : Bool :=
  isFinite k.b0 && isFinite k.b1 && isFinite k.b2 && isFinite k.a1 && isFinite k.a2

/-- The call of the kernel with the aligned gains and limits (rules R90, R91, R94). -/
def callKernel (kernel : PidKernel) (g : Stage) : Option Coeffs :=
  kernel g.kp (alignGain g.ki g.kp) (alignGain g.kd g.kp) (alignLimit g.li g.kp) (alignLimit g.ld g.kp) samplePeriod

/-- The eight filter registers of accepted coefficients (rule R94): OFF is −SETPOINT and a bound that is not finite is
replaced by the infinity on its side. -/
def filterOf (g : Stage) (k : Coeffs) : FilterRegs where
  b0 := k.b0
  b1 := k.b1
  b2 := k.b2
  a1 := k.a1
  a2 := k.a2
  off := fneg g.setpoint
  lo := if isFinite g.pmin then g.pmin else fNegInf
  hi := if isFinite g.pmax then g.pmax else fPosInf

/-- `BuildFilter` (rule R94); `none` is `reject`. -/
def buildFilter (kernel : PidKernel) (g : Stage) : Option FilterRegs :=
  match callKernel kernel g with
  | none => none
  | some k => if coeffsFinite k && isFinite g.setpoint then some (filterOf g k) else none

end Sys2Proof.Machine
end

