-- ==== Sys2Proof/Machine/ControlChannel.lean ====
section
/-! DEFINITION. The datapath of one control channel: mixer, biquad, hold, finalizer (44_control_channel.md). Each
operation of a command has a draw of its own for the NaN it may compute (point I20). -/

namespace Sys2Proof.Machine

/-- The sum of rule R96, entry by entry from `i = 0` on: draws 2i and 2i + 1 belong to the product and the sum. -/
def mix (pick : NanPick) (temp w : Vector Word 16) : Word :=
  (List.finRange 16).foldl
    (fun m i => fadd (pick (2 * i.val + 1)) m (fmul (pick (2 * i.val)) temp[i] w[i])) fZero

/-- The accumulator of rule R97 before the clamp, in its order b0, b1, b2, a1, a2. -/
def biquadAcc (pick : NanPick) (f : FilterRegs) (x0 : Word) (z : FilterState) : Word :=
  fsub (pick 41)
    (fsub (pick 40)
      (fadd (pick 39)
        (fadd (pick 38) (fmul (pick 33) f.b0 x0) (fmul (pick 34) f.b1 z.x1))
        (fmul (pick 35) f.b2 z.x2))
      (fmul (pick 36) f.a1 z.y1))
    (fmul (pick 37) f.a2 z.y2)

/-- The input of the biquad with the offset added (rule R97). -/
def biquadInput (pick : NanPick) (f : FilterRegs) (m : Word) : Word := fadd (pick 32) m f.off

/-- The clamped output of a biquad step (rule R97). -/
def biquadOut (pick : NanPick) (f : FilterRegs) (m : Word) (z : FilterState) : Word :=
  clampf (pick 42) (pick 43) (biquadAcc pick f (biquadInput pick f m) z) f.lo f.hi

/-- The filter history after a biquad step: the clamped output is fed back (rule R97). -/
def biquadState (pick : NanPick) (f : FilterRegs) (m : Word) (z : FilterState) : FilterState where
  x2 := z.x1
  x1 := biquadInput pick f m
  y2 := z.y1
  y1 := biquadOut pick f m z

/-- One tick of a channel: the body of UPDATE (rule R99), with the hold transform of rule R98 in Hold and Off. -/
def tickChannel (pick : NanPick) (temp : Vector Word 16) (ch : Channel) : Channel :=
  match ch.state with
  | .on => { ch with
      mix := mix pick temp ch.live.w
      out := biquadOut pick ch.live.filter (mix pick temp ch.live.w) ch.fstate
      fstate := biquadState pick ch.live.filter (mix pick temp ch.live.w) ch.fstate }
  | .off => { ch with mix := mix pick temp ch.live.w, out := ch.fstate.y1 }
  | .hold => { ch with mix := mix pick temp ch.live.w, out := ch.fstate.y1 }

/-- The safety clamp of one bound (rule R101). -/
def safeBound (d e : NanBits) (p : Params) (bound : Word) : Word := clampf d e bound (fneg (cSafe p)) (cSafe p)

/-- The safety clamp of both bounds of a filter (rule R101). -/
def safetyClamp (pick : NanPick) (p : Params) (f : FilterRegs) : FilterRegs :=
  { f with lo := safeBound (pick 33) (pick 34) p f.lo, hi := safeBound (pick 35) (pick 36) p f.hi }

/-- The live voltage limit (rule R102). -/
def liveVlim (pick : NanPick) (p : Params) (staged : Word) : Word :=
  clampf (pick 37) (pick 38) staged fZero p.pwmMaxV

/-- The sum of the absolute staging weights, from `i = 0` on (rule R103). -/
def weightSum (pick : NanPick) (ws : Vector Word 16) : Word :=
  (List.finRange 16).foldl (fun s i => fadd (pick i.val) s (fabs ws[i])) fZero

/-- `Normalize` (rule R103): the staging weights times the reciprocal of their absolute sum, or untouched where that
sum is zero. -/
def normalizeWeights (pick : NanPick) (ws : Vector Word 16) : Vector Word 16 :=
  if isZero (weightSum pick ws) then ws
  else Vector.ofFn fun i => fmul (pick (17 + i.val)) ws[i] (fdiv (pick 16) fOne (weightSum pick ws))

/-- The margin of rule R104: 0.05 · PWM_MAX_I, with 0.05 the binary32 0x3D4CCCCD. -/
def limitMargin (pick : NanPick) (p : Params) : Word := fmul (pick 39) 0x3D4CCCCD#32 p.pwmMaxI

/-- ILIM_UP (rule R104). -/
def advisoryUp (pick : NanPick) (p : Params) (hi : Word) : Word :=
  maxNum (pick 41) (fadd (pick 40) hi (limitMargin pick p)) fZero

/-- ILIM_LO (rule R104). -/
def advisoryLo (pick : NanPick) (p : Params) (lo : Word) : Word :=
  minNum (pick 43) (fsub (pick 42) lo (limitMargin pick p)) fZero

/-- The live filter of a FINALIZE before the safety clamp: the built one, or the old one where the build is rejected
(rule R95). -/
def builtFilter (kernel : PidKernel) (ch : Channel) : FilterRegs :=
  (buildFilter kernel ch.stage).getD ch.live.filter

/-- The filter registers a FINALIZE leaves (rules R101, R105). -/
def finalFilter (pick : NanPick) (kernel : PidKernel) (p : Params) (ch : Channel) : FilterRegs :=
  safetyClamp pick p (builtFilter kernel ch)

/-- The channel after FINALIZE (rule R105): its live registers rebuilt from the staging registers, nothing else. -/
def finalizeChannel (pick : NanPick) (kernel : PidKernel) (p : Params) (ch : Channel) : Channel :=
  { ch with live := {
      filter := finalFilter pick kernel p ch
      vlim := liveVlim pick p ch.stage.vlim
      ilimUp := advisoryUp pick p (finalFilter pick kernel p ch).hi
      ilimLo := advisoryLo pick p (finalFilter pick kernel p ch).lo
      w := normalizeWeights pick ch.stage.ws } }

end Sys2Proof.Machine
end

