-- ==== Sys2Proof/Machine/ResetValues.lean ====
section
/-! DEFINITION. The reset value of every register (rules R24, R26, R123). -/

namespace Sys2Proof.Machine

/-- The staging registers at reset (rule R123): zero gains, infinite limits and bounds, zero weights. -/
def resetStage : Stage where
  kp := fZero
  ki := fZero
  kd := fZero
  li := fPosInf
  ld := fPosInf
  setpoint := fZero
  pmin := fNegInf
  pmax := fPosInf
  vlim := fZero
  ws := Vector.replicate 16 fZero

/-- The live filter at reset (rule R123). -/
def resetFilter (p : Params) : FilterRegs where
  b0 := fZero
  b1 := fZero
  b2 := fZero
  a1 := fZero
  a2 := fZero
  off := fNegZero
  lo := fneg (cSafe p)
  hi := cSafe p

/-- The live registers at reset (rule R123). ILIM_UP and ILIM_LO are evaluated as in rule R104; with an admitted
configuration no operation of theirs computes a NaN, so the draws are given as 0. -/
def resetLive (p : Params) : Live where
  filter := resetFilter p
  vlim := fZero
  ilimUp := advisoryUp (fun _ => 0) p (cSafe p)
  ilimLo := advisoryLo (fun _ => 0) p (fneg (cSafe p))
  w := Vector.replicate 16 fZero

/-- A channel at reset (rule R123). -/
def resetChannel (p : Params) : Channel where
  state := .off
  out := fZero
  mix := fZero
  stage := resetStage
  live := resetLive p
  fstate := ⟨fZero, fZero, fZero, fZero⟩

/-- The ADC registers at reset (rule R123). -/
def resetAdc : AdcRegs := ⟨0, 0, 0, 0, 0⟩

/-- The calibration registers at reset (rule R123). -/
def resetCal : CalRegs := ⟨fZero, fZero, 0⟩

/-- The buses at power-on: chip-selects high, nothing in flight (rules R31, R123). No reply is promised and no frame
has been sent. -/
def resetBuses : Buses where
  csAdcN := true
  csDacN := Vector.replicate 4 true
  inFlight := none
  adcIn := []
  dacIn := []
  adcLog := []
  dacLog := []

end Sys2Proof.Machine
end

