-- ==== Sys2Proof/Machine/State.lean ====
section
/-! DEFINITION. The state of the machine, the reasons a step can stop, and the state after reset. -/

namespace Sys2Proof.Machine

/-- The whole machine: the configuration, the block's registers and lines (rule R19), and the model's own record of
its environment (`inputs` and the reply lists in `bus` still to come, the logs and `hRdata` already observed, and
`draws`, which picks the NaN draws). -/
structure State where
  /-- The configuration (rule R10); nothing writes it (rule R19). -/
  cfg : AdmittedConfig
  /-- The level of the reset pin `rst_n` (rules R32, R122). -/
  rstN : Bool
  /-- The sequencer phase (rule R23). -/
  seq : SeqState
  /-- CMD, the last accepted command word (rule R24). -/
  cmd : Word
  /-- STATUS but for BUSY, which `seq` gives (rule R25). -/
  status : Word
  /-- ADC_WDATA, ADC_RDATA, ADC_DATA, ADC_TAG, ADC_ID (rule R24). -/
  adc : AdcRegs
  /-- CAL_VIN, CAL_TOUT, CAL_IDX (rule R24). -/
  cal : CalRegs
  /-- DAC_CUR (rule R24). -/
  dacCur : Vector Word 4
  /-- DAC_CODE (rule R24). -/
  dacCode : Vector (BitVec 20) 4
  /-- TEMP (rule R24). -/
  temp : Vector Word 16
  /-- The four channels (rule R26). -/
  ch : Vector Channel 4
  /-- The serial buses (rules R31, R33). -/
  bus : Buses
  /-- The model's own: what the environment does next. -/
  inputs : List Input
  /-- The model's own: the data of the host's last read (port `h_rdata`, rule R32). -/
  hRdata : Word
  /-- The model's own: the number of commands ended so far. -/
  draws : Nat
  deriving DecidableEq, Repr

/-- The reasons for which the machine stops with a fault: none. Every error of the block is a sticky bit of STATUS and
every host access and every command has a defined result (rules R106, R109, R113). -/
inductive Fault where
  deriving DecidableEq, Repr

/-- The reasons for which the model gives no meaning. -/
inductive Refusal where
  /-- Raised by an arm of `exec` alone, for an instruction that has no meaning yet. Safe: the model stops. -/
  | notModelled (mnemonic : String)
  deriving DecidableEq, Repr

/-- The state right after reset, under a configuration (rules R122, R123). -/
def State.resetOf (cfg : AdmittedConfig) : State where
  cfg := cfg
  rstN := true
  seq := .idle
  cmd := 0
  status := 0
  adc := resetAdc
  cal := resetCal
  dacCur := Vector.replicate 4 fZero
  dacCode := Vector.replicate 4 0
  temp := Vector.replicate 16 fZero
  ch := Vector.replicate 4 (resetChannel cfg.params)
  bus := resetBuses
  inputs := []
  hRdata := 0
  draws := 0

/-- The machine right after reset (rule R123), under the configuration the machine is given. -/
def State.reset : State := State.resetOf givenConfig

end Sys2Proof.Machine
end

