-- ==== Sys2Proof/Machine/Flags.lean ====
section
/-! DEFINITION. The STATUS register: its causes, its live bits, how it is set, read and cleared (rules R16, R25, R106). -/

namespace Sys2Proof.Machine

/-- The error causes (rule R106). -/
inductive Cause where
  | illegalCmd
  | wrBusy
  | accErr
  | adcBusErr
  | dacBusErr
  | adcIdErr
  | adcNotReady
  | dacBounds
  | calOor
  | stateErr
  | buildRej (ch : ChanNo)
  deriving DecidableEq, Repr

/-- The code of a cause: its bit number in STATUS (rule R106). -/
def Cause.bit : Cause → Nat
  | .illegalCmd => 8
  | .wrBusy => 9
  | .accErr => 10
  | .adcBusErr => 11
  | .dacBusErr => 12
  | .adcIdErr => 13
  | .adcNotReady => 14
  | .dacBounds => 15
  | .calOor => 16
  | .stateErr => 17
  | .buildRej ch => 20 + ch.val

/-- The sticky bits: 8 to 17 and 20 to 23 (rules R25, R38). -/
def stickyMask : Word := 0x00F3FF00#32

/-- The bits of STATUS that are stored: the sticky bits, ADC_READY and CAL_OK (rule R25). -/
def storedMask : Word := 0x00F3FF06#32

/-- The word with one bit set. -/
def bitWord (n : Nat) : Word := 1#32 <<< n

/-- A word with one bit made 0 or 1. -/
def putBit (w : Word) (n : Nat) (b : Bool) : Word := if b then w ||| bitWord n else w &&& ~~~(bitWord n)

/-- ADC_READY, bit 1 (rule R25). -/
def State.adcReady (s : State) : Bool := s.status.getLsbD 1

/-- CAL_OK, bit 2 (rule R25). -/
def State.calOk (s : State) : Bool := s.status.getLsbD 2

/-- The sticky bit of a cause (rule R106). -/
def State.sticky (s : State) (e : Cause) : Bool := s.status.getLsbD e.bit

/-- The sequencer is BUSY (rule R23). -/
def State.isBusy (s : State) : Bool :=
  match s.seq with
  | .idle => false
  | .busy _ => true

/-- STATUS as it reads: BUSY comes from the phase and reserved bits read 0 (rules R23, R25). -/
def State.statusRead (s : State) : Word := (s.status &&& storedMask) ||| (if s.isBusy then 1#32 else 0#32)

/-- `flag E`: the sticky bit is set and nothing ends (rule R16). -/
def State.flag (s : State) (e : Cause) : State := { s with status := s.status ||| bitWord e.bit }

/-- ADC_READY is written by a command (rule R69). -/
def State.setAdcReady (s : State) (b : Bool) : State := { s with status := putBit s.status 1 b }

/-- CAL_OK is written by a command (rule R88). -/
def State.setCalOk (s : State) (b : Bool) : State := { s with status := putBit s.status 2 b }

/-- A host write of `v` to STATUS: each sticky bit whose data bit is 1 is cleared (rules R25, R38, R50). -/
def State.clearSticky (s : State) (v : Word) : State := { s with status := s.status &&& ~~~(v &&& stickyMask) }

end Sys2Proof.Machine
end

