-- ==== Sys2Proof/Machine/RegisterMap.lean ====
section
/-! DEFINITION. The host register space: names, addresses, access, and what each register reads (rules R20 to R30, R34, R36, R45). -/

namespace Sys2Proof.Machine

/-- A register of a channel, at an offset of rule R26. -/
inductive ChanReg where
  | state | out | mix | vlim
  | kp | ki | kd | li | ld | setpoint | pmin | pmax | vlimStage
  | ilimUp | ilimLo
  | b0 | b1 | b2 | a1 | a2 | off | lo | hi
  | x1 | x2 | y1 | y2
  | ws (i : Fin 16)
  | w (i : Fin 16)
  deriving DecidableEq, Repr

/-- A column of the calibration table (rule R30). -/
inductive CalColumn where
  | t | v | s
  deriving DecidableEq, Repr

/-- A register of the host register space (rules R24, R26, R30). -/
inductive Reg where
  | cmd | status
  | adcWdata | adcRdata | adcData | adcTag | adcId
  | calVin | calTout | calIdx
  | dacCur (c : ChanNo) | dacCode (c : ChanNo)
  | maxCur | cSafe
  | temp (i : Fin 16)
  | chan (c : ChanNo) (r : ChanReg)
  | cal (k : Fin 144) (col : CalColumn)
  deriving DecidableEq, Repr

/-- The offset of a channel register (rule R26). -/
def ChanReg.offset : ChanReg → Nat
  | .state => 0x00 | .out => 0x04 | .mix => 0x08 | .vlim => 0x0C
  | .kp => 0x10 | .ki => 0x14 | .kd => 0x18 | .li => 0x1C | .ld => 0x20
  | .setpoint => 0x24 | .pmin => 0x28 | .pmax => 0x2C | .vlimStage => 0x30
  | .ilimUp => 0x34 | .ilimLo => 0x38
  | .b0 => 0x40 | .b1 => 0x44 | .b2 => 0x48 | .a1 => 0x4C | .a2 => 0x50
  | .off => 0x54 | .lo => 0x58 | .hi => 0x5C
  | .x1 => 0x60 | .x2 => 0x64 | .y1 => 0x68 | .y2 => 0x6C
  | .ws i => 0x80 + 4 * i.val
  | .w i => 0xC0 + 4 * i.val

/-- The byte offset of a column in an entry of 16 bytes (rule R30). -/
def CalColumn.offset : CalColumn → Nat
  | .t => 0 | .v => 4 | .s => 8

/-- The host byte address of a register (rules R24, R26, R30). -/
def Reg.addr : Reg → Nat
  | .cmd => 0x0000 | .status => 0x0004
  | .adcWdata => 0x0008 | .adcRdata => 0x000C | .adcData => 0x0010 | .adcTag => 0x0014 | .adcId => 0x0018
  | .calVin => 0x0020 | .calTout => 0x0024 | .calIdx => 0x0028
  | .dacCur c => 0x0030 + 4 * c.val
  | .dacCode c => 0x0040 + 4 * c.val
  | .maxCur => 0x0050 | .cSafe => 0x0054
  | .temp i => 0x0080 + 4 * i.val
  | .chan c r => 0x0100 * (c.val + 1) + r.offset
  | .cal k col => 0x1000 + 16 * k.val + col.offset

/-- The channel register at an offset that is a multiple of 4 (rule R26); the offsets 0x3C and 0x70 to 0x7C are
unmapped. -/
def chanRegAt (off : Nat) : Option ChanReg :=
  if off < 0x80 then
    [some .state, some .out, some .mix, some .vlim, some .kp, some .ki, some .kd, some .li,
      some .ld, some .setpoint, some .pmin, some .pmax, some .vlimStage, some .ilimUp, some .ilimLo, none,
      some .b0, some .b1, some .b2, some .a1, some .a2, some .off, some .lo, some .hi,
      some .x1, some .x2, some .y1, some .y2].getD (off / 4) none
  else if off < 0xC0 then some (.ws (Fin.ofNat 16 (off / 4)))
  else some (.w (Fin.ofNat 16 (off / 4)))

/-- The global register at an address below 0x0100 that is a multiple of 4 (rule R24). -/
def globalRegAt (a : Nat) : Option Reg :=
  if a < 0x80 then
    [some .cmd, some .status, some .adcWdata, some .adcRdata, some .adcData, some .adcTag, some .adcId, none,
      some .calVin, some .calTout, some .calIdx, none,
      some (.dacCur 0), some (.dacCur 1), some (.dacCur 2), some (.dacCur 3),
      some (.dacCode 0), some (.dacCode 1), some (.dacCode 2), some (.dacCode 3),
      some .maxCur, some .cSafe].getD (a / 4) none
  else if a < 0xC0 then some (.temp (Fin.ofNat 16 (a / 4)))
  else none

/-- The column of a table entry at a byte offset that is a multiple of 4; the fourth word is unmapped (rule R30). -/
def calColumnAt (off : Nat) : Option CalColumn := [some .t, some .v, some .s].getD (off / 4) none

/-- The register at an address that is a multiple of 4 (rule R45). -/
def regAtAligned (a : Nat) : Option Reg :=
  if a < 0x0100 then globalRegAt a
  else if a < 0x0500 then (chanRegAt (a % 0x100)).map (.chan (Fin.ofNat 4 (a / 0x100 - 1)))
  else if 0x1000 ≤ a ∧ a < 0x1900 then (calColumnAt (a % 16)).map (.cal (Fin.ofNat 144 ((a - 0x1000) / 16)))
  else none

/-- The register at a host address; none where the address is misaligned or unmapped (rules R35, R36). -/
def decodeAddr (a : HostAddr) : Option Reg :=
  if a.toNat % 4 = 0 then regAtAligned a.toNat else none

/-- The channel register is read-only to the host (rule R26). -/
def ChanReg.readOnly : ChanReg → Bool
  | .state | .kp | .ki | .kd | .li | .ld | .setpoint | .pmin | .pmax | .vlimStage | .ws _ => false
  | .out | .mix | .vlim | .ilimUp | .ilimLo | .b0 | .b1 | .b2 | .a1 | .a2 | .off | .lo | .hi
  | .x1 | .x2 | .y1 | .y2 | .w _ => true

/-- The register is read-only to the host (rules R24, R26, R30). -/
def Reg.readOnly : Reg → Bool
  | .cmd | .status | .adcWdata | .calVin | .dacCur _ | .temp _ => false
  | .adcRdata | .adcData | .adcTag | .adcId | .calTout | .calIdx | .dacCode _ | .maxCur | .cSafe | .cal _ _ => true
  | .chan _ r => r.readOnly

/-- The encoding of a channel state (rule R26). -/
def ChState.code : ChState → Word
  | .off => 0
  | .on => 1
  | .hold => 2

/-- The channel state a host write names; none for a value other than 0, 1, 2 (rule R28). -/
def chStateOf (v : Word) : Option ChState :=
  if v = 0 then some .off else if v = 1 then some .on else if v = 2 then some .hold else none

/-- What a channel register reads (rule R26). -/
def ChanReg.read (r : ChanReg) (c : Channel) : Word :=
  match r with
  | .state => c.state.code
  | .out => c.out
  | .mix => c.mix
  | .vlim => c.live.vlim
  | .kp => c.stage.kp
  | .ki => c.stage.ki
  | .kd => c.stage.kd
  | .li => c.stage.li
  | .ld => c.stage.ld
  | .setpoint => c.stage.setpoint
  | .pmin => c.stage.pmin
  | .pmax => c.stage.pmax
  | .vlimStage => c.stage.vlim
  | .ilimUp => c.live.ilimUp
  | .ilimLo => c.live.ilimLo
  | .b0 => c.live.filter.b0
  | .b1 => c.live.filter.b1
  | .b2 => c.live.filter.b2
  | .a1 => c.live.filter.a1
  | .a2 => c.live.filter.a2
  | .off => c.live.filter.off
  | .lo => c.live.filter.lo
  | .hi => c.live.filter.hi
  | .x1 => c.fstate.x1
  | .x2 => c.fstate.x2
  | .y1 => c.fstate.y1
  | .y2 => c.fstate.y2
  | .ws i => c.stage.ws[i]
  | .w i => c.live.w[i]

/-- What a column of a table entry reads (rule R30). -/
def CalColumn.read (col : CalColumn) (e : CalPoint) : Word :=
  match col with
  | .t => e.t
  | .v => e.v
  | .s => e.s

/-- What a register reads, zero-extended to 32 bits (rules R24, R26, R30). -/
def Reg.read (r : Reg) (s : State) : Word :=
  match r with
  | .cmd => s.cmd
  | .status => s.statusRead
  | .adcWdata => s.adc.wdata
  | .adcRdata => s.adc.rdata
  | .adcData => s.adc.data.setWidth 32
  | .adcTag => s.adc.tag.setWidth 32
  | .adcId => s.adc.id.setWidth 32
  | .calVin => s.cal.vin
  | .calTout => s.cal.tout
  | .calIdx => s.cal.idx.setWidth 32
  | .dacCur c => s.dacCur[c]
  | .dacCode c => s.dacCode[c].setWidth 32
  | .maxCur => maxCurrent s.cfg.params
  | .cSafe => Sys2Proof.Machine.cSafe s.cfg.params
  | .temp i => s.temp[i]
  | .chan c r => r.read s.ch[c]
  | .cal k col => col.read (s.cfg.params.calTable.getD k.val ⟨fZero, fZero, fZero⟩)

/-- Byte `k` of a register as a byte-oriented bus bridge presents it at `addr + k`: bits 8k+7 to 8k (rule R40). -/
def bridgeByte (v : Word) (k : Fin 4) : Byte := v.extractLsb' (8 * k.val) 8

/-- The mirror outputs of a channel: `vlim[c]`, `ilim_up[c]`, `ilim_lo[c]`, `out[c]` (rule R32). -/
def State.mirrorPorts (s : State) (c : ChanNo) : Word × Word × Word × Word :=
  (s.ch[c].live.vlim, s.ch[c].live.ilimUp, s.ch[c].live.ilimLo, s.ch[c].out)

end Sys2Proof.Machine
end

