-- ==== Sys2Proof/Machine/Operands.lean ====
section
/-! DEFINITION. Operands: the current of DAC_SET, and the bytes of the frames and of the answers (rules R41, R64 to R67, R81, R82). -/

namespace Sys2Proof.Machine

/-- The current DAC_SET converts: DAC_CUR or OUT of the channel (rule R82). -/
def dacCurrent (c : ChanNo) (src : DacSource) (s : State) : Word :=
  match src with
  | .dacCur => s.dacCur[c]
  | .out => s.ch[c].out

/-- The address byte of a write frame: bits 7 and 6 are zero (rule R64). -/
def writeAddrByte (a : BitVec 6) : Byte := a.setWidth 8

/-- The address byte of a read frame: bit 6 is the read flag (rule R64). -/
def readAddrByte (a : BitVec 6) : Byte := a.setWidth 8 ||| 0x40#8

/-- The low `size` bytes of a value, most significant first (rules R41, R65). -/
def payloadBytes (size : Nat) (v : Word) : List Byte :=
  ((List.range size).map fun j => v.extractLsb' (8 * j) 8).reverse

/-- The bytes of a write frame (rule R65). -/
def writeFrameBytes (a : BitVec 6) (size : Nat) (v : Word) : List Byte := writeAddrByte a :: payloadBytes size v

/-- The bytes of a read frame; the filler bytes are sent as 0x00 (rule R66). -/
def readFrameBytes (a : BitVec 6) (size : Nat) : List Byte := readAddrByte a :: List.replicate size 0x00#8

/-- The bytes of the reset frame: 64 one-bits (rule R67). -/
def resetFrameBytes : List Byte := List.replicate 8 0xFF#8

/-- A byte string read as a big-endian number (rules R41, R66). -/
def bigEndian (bytes : List Byte) : Nat := bytes.foldl (fun acc b => acc * 256 + b.toNat) 0

/-- The value of a read frame's answer: its last `size` bytes; the byte received during the address byte is
discarded (rule R66). -/
def readFrameValue (size : Nat) (rx : List Byte) : Word := BitVec.ofNat 32 (bigEndian ((rx.drop 1).take size))

/-- The three bytes of a DAC frame, the top four bits zero (rule R81). -/
def dacFrameBytes (code : BitVec 20) : List Byte := payloadBytes 3 (code.setWidth 32)

/-- The registers of the eight configuration writes of ADC_INIT, in order (rule R70). -/
def adcCfgRegisters : List (BitVec 6) := [0x01, 0x02, 0x10, 0x11, 0x20, 0x21, 0x28, 0x29]

/-- The configuration writes `(register, size, value)` of ADC_INIT, in order (rules R69, R70). -/
def adcCfgWrites (p : Params) : List (BitVec 6 × AdcCfgEntry) := adcCfgRegisters.zip p.adcCfg

/-- The ADC register ID (rule R34). -/
def adcRegId : BitVec 6 := 0x07

/-- The ADC register DATA (rule R34). -/
def adcRegData : BitVec 6 := 0x04

/-- The identity test: the top nibble of the low byte is 0xD (rule R69, conflict C8). -/
def adcIdOk (id : BitVec 16) : Bool := id.extractLsb' 4 4 == 0xD#4

end Sys2Proof.Machine
end

