-- ==== Sys2Proof/Machine/Ops.lean ====
section
/-! DEFINITION. The named operations of the machine: updates of single fields, serial transactions and frames, how a
command raises, commits, hangs or is cut by reset, and reset itself.

TAKING AN EXCEPTION: the block has none (rule R109). What stands in its place is `Flow.raised` and `finish`: a raised
error sets its sticky bit, ends the command and commits what stood before it (rules R16, R107). There is no return
from an exception (rule R110). -/

namespace Sys2Proof.Machine

/-! ### Updates of single fields -/

def State.setInputs (s : State) (l : List Input) : State := { s with inputs := l }
def State.setHRdata (s : State) (v : Word) : State := { s with hRdata := v }
def State.setSeq (s : State) (q : SeqState) : State := { s with seq := q }
def State.setCmd (s : State) (w : Word) : State := { s with cmd := w }
def State.setAdc (s : State) (r : AdcRegs) : State := { s with adc := r }
def State.setCal (s : State) (r : CalRegs) : State := { s with cal := r }
def State.setDacCur (s : State) (c : ChanNo) (v : Word) : State := { s with dacCur := s.dacCur.set c v }
def State.setDacCode (s : State) (c : ChanNo) (n : BitVec 20) : State := { s with dacCode := s.dacCode.set c n }
def State.setTemp (s : State) (i : Fin 16) (v : Word) : State := { s with temp := s.temp.set i v }
def State.setChan (s : State) (c : ChanNo) (k : Channel) : State := { s with ch := s.ch.set c k }
def State.setBus (s : State) (b : Buses) : State := { s with bus := b }

/-- The end of a command: the sequencer is IDLE, and the next command has draws of its own (rules R47, R59). -/
def State.commit (s : State) : State := { s with seq := .idle, draws := s.draws + 1 }

/-! ### Draws -/

/-- The NaN draws of a command for the operations on channel `c` (point I20): 64 operations each. -/
def State.chanPicks (s : State) (c : ChanNo) : NanPick := fun n => Config.nanDraw s.draws (64 * c.val + n)

/-- The NaN draws of a command that works on no channel. -/
def State.picks (s : State) : NanPick := fun n => Config.nanDraw s.draws n

/-! ### Reset -/

/-- A transaction in flight is abandoned: every chip-select goes to 1 at once (rules R31, R122). -/
def Buses.idleLines (b : Buses) : Buses :=
  { b with csAdcN := true, csDacN := Vector.replicate 4 true, inFlight := none }

/-- `rst_n` goes to 0: the running command and any transaction are abandoned and every register takes its reset
value (rule R122). The configuration, what the environment still does and what was observed so far stay. -/
def State.enterReset (s : State) : State :=
  { State.resetOf s.cfg with
    rstN := false, bus := s.bus.idleLines, inputs := s.inputs, hRdata := s.hRdata, draws := s.draws }

/-- `rst_n` returns to 1: the block is in the reset state and IDLE (rule R122). -/
def State.leaveReset (s : State) : State := { s.enterReset with rstN := true }

/-- The reset pin takes a level (rule R122). -/
def State.setRstPin (s : State) (level : Bool) : State :=
  if level then (if s.rstN then s else s.leaveReset) else s.enterReset

/-! ### How a command goes on -/

/-- Where a command stands after a part of it: it goes on with a value, or it is over. The state is the command's
shadow state (rule R17). -/
inductive Flow (α : Type) where
  /-- The command goes on. -/
  | ok (a : α) (s : State)
  /-- The command has raised an error, whose sticky bit is set (rule R16). -/
  | raised (s : State)
  /-- A transaction never returns (rule R114). -/
  | hung (s : State)
  /-- `rst_n` went to 0 after a transaction (rule R122). -/
  | resetHit (s : State)

/-- The rest of a command, run only where the part before it goes on. -/
def Flow.andThen {α β : Type} (x : Flow α) (f : α → State → Flow β) : Flow β :=
  match x with
  | .ok a s => f a s
  | .raised s => .raised s
  | .hung s => .hung s
  | .resetHit s => .resetHit s

/-- `raise E` (rule R16). -/
def raiseError {α : Type} (e : Cause) (s : State) : Flow α := .raised (s.flag e)

/-- The state a command dispatched in `s` leaves. Where it completes or raises, its shadow state is committed
(rules R47, R107); where a transaction never returns, the block stays BUSY with the state from before the command,
but for the buses (rule R114); where reset hits, nothing is committed (rule R122). -/
def finish {α : Type} (s : State) (x : Flow α) : State :=
  match x with
  | .ok _ t => t.commit
  | .raised t => t.commit
  | .hung t => s.setBus t.bus
  | .resetHit t => (s.setBus t.bus).enterReset

/-! ### Serial transactions -/

/-- The replies still to come on the bus of a line. -/
def Buses.replies (b : Buses) : BusLine → List Reply
  | .adc => b.adcIn
  | .dac _ => b.dacIn

/-- The reply to the transaction that begins now; a bus with no reply left never returns (rule R9). -/
def Buses.nextReply (b : Buses) (line : BusLine) : Reply := (b.replies line).headD ⟨.stall, false⟩

/-- The first reply is used up. -/
def Buses.dropReply (b : Buses) : BusLine → Buses
  | .adc => { b with adcIn := b.adcIn.tail }
  | .dac _ => { b with dacIn := b.dacIn.tail }

/-- A chip-select line takes a level (rule R31). -/
def Buses.setLine (b : Buses) (line : BusLine) (level : Bool) : Buses :=
  match line with
  | .adc => { b with csAdcN := level }
  | .dac c => { b with csDacN := b.csDacN.set c level }

/-- A frame is recorded on the bus of its line (rule R132). -/
def Buses.record (b : Buses) (f : Frame) : Buses :=
  match f.line with
  | .adc => { b with adcLog := b.adcLog ++ [f] }
  | .dac _ => { b with dacLog := b.dacLog ++ [f] }

/-- The buses after a transaction that ended: its chip-select is back at 1 (rules R31, R75, R84). -/
def Buses.endXfer (b : Buses) (line : BusLine) (tx : List Byte) (r : XferResult) : Buses :=
  ((b.dropReply line).record ⟨line, tx, r⟩).setLine line true

/-- The buses in a transaction that never ends: its chip-select stays at 0 (rule R114). -/
def Buses.stallXfer (b : Buses) (line : BusLine) (tx : List Byte) : Buses :=
  { ((b.dropReply line).record ⟨line, tx, .stall⟩).setLine line false with inFlight := some (line, tx) }

/-- The bytes received: as many as were sent (rule R15), missing bytes of the reply standing for 0x00; a DAC sends
nothing back. -/
def receivedBytes (line : BusLine) (n : Nat) (rx : List Byte) : List Byte :=
  match line with
  | .adc => (rx ++ List.replicate n 0x00#8).take n
  | .dac _ => []

/-- The error a failed transaction raises (rule R106). -/
def busError : BusLine → Cause
  | .adc => .adcBusErr
  | .dac _ => .dacBusErr

/-- `SpiXfer` (rules R9, R15, R75, R84), with the raise that every command gives a `fault`. DESIGN CHOICE
(notes/assumptions/24.md): a frame that a fault cuts is recorded with the whole `tx` and the result `fault`; which of its
bytes count as sent, rules R75 and R84 do not say. -/
def spiXfer (line : BusLine) (tx : List Byte) (s : State) : Flow (List Byte) :=
  match s.bus.nextReply line with
  | ⟨.stall, _⟩ => .hung (s.setBus (s.bus.stallXfer line tx))
  | ⟨.ok rx, false⟩ =>
      .ok (receivedBytes line tx.length rx)
        (s.setBus (s.bus.endXfer line tx (.ok (receivedBytes line tx.length rx))))
  | ⟨.ok rx, true⟩ => .resetHit (s.setBus (s.bus.endXfer line tx (.ok (receivedBytes line tx.length rx))))
  | ⟨.fault, false⟩ => raiseError (busError line) (s.setBus (s.bus.endXfer line tx .fault))
  | ⟨.fault, true⟩ => .resetHit (s.setBus (s.bus.endXfer line tx .fault))

/-- `Wait(T_RST_WAIT)`: it always ends and changes no state (rules R114, R117). -/
def waitAfterReset (s : State) : State := s

/-! ### Frames -/

/-- `AdcWriteFrame` (rule R65): the received bytes are discarded. -/
def adcWriteFrame (a : BitVec 6) (size : Nat) (v : Word) (s : State) : Flow Unit :=
  (spiXfer .adc (writeFrameBytes a size v) s).andThen fun _ t => .ok () t

/-- `AdcReadFrame` (rule R66). -/
def adcReadFrame (a : BitVec 6) (size : Nat) (s : State) : Flow Word :=
  (spiXfer .adc (readFrameBytes a size) s).andThen fun rx t => .ok (readFrameValue size rx) t

/-- `AdcResetFrame` (rule R67). -/
def adcResetFrame (s : State) : Flow Unit :=
  (spiXfer .adc resetFrameBytes s).andThen fun _ t => .ok () t

/-- `DacFrame` (rule R81). -/
def dacFrame (c : ChanNo) (code : BitVec 20) (s : State) : Flow Unit :=
  (spiXfer (.dac c) (dacFrameBytes code) s).andThen fun _ t => .ok () t

/-! ### Parts that several commands share -/

/-- The ADC_READY check: without it no frame is sent (rules R71 to R73, R108). -/
def whenAdcReady {α : Type} (s : State) (body : State → Flow α) : Flow α :=
  if s.adcReady then body s else raiseError .adcNotReady s

/-- The eight configuration writes of ADC_INIT, in order (rules R69, R70). -/
def adcConfigure : List (BitVec 6 × AdcCfgEntry) → State → Flow Unit
  | [], s => .ok () s
  | (a, e) :: rest, s => (adcWriteFrame a e.size.toNat e.value s).andThen fun _ t => adcConfigure rest t

/-- One code sent to one DAC channel; DAC_CODE follows only after the frame (rules R82, R83). -/
def dacSend (c : ChanNo) (code : BitVec 20) (s : State) : Flow Unit :=
  (dacFrame c code s).andThen fun _ t => .ok () (t.setDacCode c code)

/-- One code sent to several DAC channels in order (rule R83). -/
def dacSendAll (code : BitVec 20) : List ChanNo → State → Flow Unit
  | [], s => .ok () s
  | c :: rest, s => (dacSend c code s).andThen fun _ t => dacSendAll code rest t

/-- One tick of channel `c`: the body of UPDATE (rule R99). -/
def State.tick (s : State) (c : ChanNo) : State :=
  s.setChan c (tickChannel (s.chanPicks c) s.temp s.ch[c])

/-- The tick of each channel of a list, in order (rule R100). -/
def State.tickEach (s : State) (cs : List ChanNo) : State := cs.foldl State.tick s

/-- The body of FINALIZE (rule R105): a rejected build is flagged and the other steps still run. -/
def State.finalizeChan (s : State) (c : ChanNo) : State :=
  match buildFilter pidKernel s.ch[c].stage with
  | none => (s.setChan c (finalizeChannel (s.chanPicks c) pidKernel s.cfg.params s.ch[c])).flag (.buildRej c)
  | some _ => s.setChan c (finalizeChannel (s.chanPicks c) pidKernel s.cfg.params s.ch[c])

/-- The registers of an in-range CAL: CAL_TOUT, CAL_IDX and CAL_OK (rule R88). -/
def State.calStore (s : State) : State :=
  (s.setCal { s.cal with
      tout := calInterp s.picks s.cfg.params.calTable s.cal.vin
      idx := BitVec.ofNat 8 (calBracket s.cfg.params.calTable s.cal.vin) }).setCalOk true

/-- The body of CAL (rule R88): out of range it clears CAL_OK and raises CAL_OOR; in range it stores the result and
then does `store`. -/
def calibrate (store : State → State) (s : State) : Flow Unit :=
  if calInRange s.cfg.params.calTable s.cal.vin then .ok () (store s.calStore)
  else raiseError .calOor (s.setCalOk false)

end Sys2Proof.Machine
end

