-- ==== Sys2Proof/Machine/Adc.lean ====
section
/-! DEFINITION. The meanings of the ADC commands (40_adc_framer.md §2). -/

namespace Sys2Proof.Machine

/-- ADC_RESET's body (rule R68). -/
def adcResetFlow (s : State) : Flow Unit :=
  (adcResetFrame s).andThen fun _ t => .ok () (waitAfterReset t)

/-- The identity check of ADC_INIT and what follows it (rule R69). -/
def adcInitChecked (id : BitVec 16) (s : State) : Flow Unit :=
  if adcIdOk id then
    (adcConfigure (adcCfgWrites s.cfg.params) s).andThen fun _ t => .ok () (t.setAdcReady true)
  else raiseError .adcIdErr s

/-- ADC_INIT's body (rule R69). -/
def adcInitFlow (s : State) : Flow Unit :=
  (adcResetFrame (s.setAdcReady false)).andThen fun _ t =>
  (adcReadFrame adcRegId 2 (waitAfterReset t)).andThen fun v u =>
  adcInitChecked (v.setWidth 16) (u.setAdc { u.adc with id := v.setWidth 16 })

/-- ADC_READ's body (rule R71). -/
def adcReadFlow (a : BitVec 6) (size : BitVec 3) (s : State) : Flow Unit :=
  whenAdcReady s fun t => (adcReadFrame a size.toNat t).andThen fun v u => .ok () (u.setAdc { u.adc with rdata := v })

/-- ADC_WRITE's body (rule R72). -/
def adcWriteFlow (a : BitVec 6) (size : BitVec 3) (s : State) : Flow Unit :=
  whenAdcReady s fun t => adcWriteFrame a size.toNat t.adc.wdata t

/-- ADC_READ_DATA's body (rule R73): the low byte is the channel tag, the rest the conversion value. -/
def adcReadDataFlow (s : State) : Flow Unit :=
  whenAdcReady s fun t => (adcReadFrame adcRegData 4 t).andThen fun v u =>
    .ok () (u.setAdc { u.adc with data := v.extractLsb' 8 24, tag := v.extractLsb' 0 8 })

/-- ADC_INIT (rule R69). -/
def execAdcInit (s : State) : Host.Outcome State Fault Refusal := .next (finish s (adcInitFlow s))

/-- ADC_RESET (rule R68). -/
def execAdcReset (s : State) : Host.Outcome State Fault Refusal := .next (finish s (adcResetFlow s))

/-- ADC_READ addr, size (rule R71). -/
def execAdcRead (a : BitVec 6) (size : BitVec 3) (s : State) : Host.Outcome State Fault Refusal :=
  .next (finish s (adcReadFlow a size s))

/-- ADC_WRITE addr, size (rule R72). -/
def execAdcWrite (a : BitVec 6) (size : BitVec 3) (s : State) : Host.Outcome State Fault Refusal :=
  .next (finish s (adcWriteFlow a size s))

/-- ADC_READ_DATA (rule R73). -/
def execAdcReadData (s : State) : Host.Outcome State Fault Refusal := .next (finish s (adcReadDataFlow s))

end Sys2Proof.Machine
end

