-- ==== Sys2Proof/Machine/Cal.lean ====
section
/-! DEFINITION. The meanings of CAL and CAL.T (42_calibration.md §2). -/

namespace Sys2Proof.Machine

/-- CAL with WT = 0 (rule R88). -/
def execCal (s : State) : Host.Outcome State Fault Refusal := .next (finish s (calibrate (fun t => t) s))

/-- CAL with WT = 1 (rule R88): the result also goes to TEMP[IDX]. -/
def execCalT (idx : Fin 16) (s : State) : Host.Outcome State Fault Refusal :=
  .next (finish s (calibrate (fun t => t.setTemp idx t.cal.tout) s))

end Sys2Proof.Machine
end

