-- ==== Sys2Proof/Machine/Control.lean ====
section
/-! DEFINITION. The meanings of NOP, UPDATE, UPDATE_ALL and FINALIZE (30_encoding.md §4, 44_control_channel.md). -/

namespace Sys2Proof.Machine

/-- NOP (rule R60): there is nothing to commit. -/
def execNop (s : State) : Host.Outcome State Fault Refusal := .next s.commit

/-- UPDATE ch (rule R99). -/
def execUpdate (c : ChanNo) (s : State) : Host.Outcome State Fault Refusal := .next (s.tick c).commit

/-- UPDATE_ALL (rule R100). -/
def execUpdateAll (s : State) : Host.Outcome State Fault Refusal := .next (s.tickEach [0, 1, 2, 3]).commit

/-- FINALIZE ch (rule R105). -/
def execFinalize (c : ChanNo) (s : State) : Host.Outcome State Fault Refusal := .next (s.finalizeChan c).commit

end Sys2Proof.Machine
end

