-- ==== Sys2Proof/Machine/Dac.lean ====
section
/-! DEFINITION. The meanings of the DAC commands (41_dac_framer.md §3). -/

namespace Sys2Proof.Machine

/-- The conversion that DAC_SET and DAC_INIT begin with: outside the bounds they raise DAC_BOUNDS and send nothing
(rules R77, R82, R83). -/
def withDacCode {α : Type} (current : Word) (s : State) (body : BitVec 20 → State → Flow α) : Flow α :=
  match dacCodeFrom s.cfg.params current with
  | some n => body n s
  | none => raiseError .dacBounds s

/-- DAC_INIT's body (rule R83): the code of zero current, sent to the channels 0, 1, 2, 3. -/
def dacInitFlow (s : State) : Flow Unit := withDacCode fZero s fun n t => dacSendAll n [0, 1, 2, 3] t

/-- DAC_SET's body (rule R82). -/
def dacSetFlow (c : ChanNo) (src : DacSource) (s : State) : Flow Unit :=
  withDacCode (dacCurrent c src s) s fun n t => dacSend c n t

/-- DAC_INIT (rule R83). -/
def execDacInit (s : State) : Host.Outcome State Fault Refusal := .next (finish s (dacInitFlow s))

/-- DAC_SET ch, source (rule R82). -/
def execDacSet (c : ChanNo) (src : DacSource) (s : State) : Host.Outcome State Fault Refusal :=
  .next (finish s (dacSetFlow c src s))

end Sys2Proof.Machine
end

