-- ==== Sys2Proof/Machine/Dispatch.lean ====
section
/-! DEFINITION. The meaning of every command, one arm each. -/

namespace Sys2Proof.Machine

def exec (i : Instr) (s : State) : Host.Outcome State Fault Refusal :=
  match i with
  | .nop => Sys2Proof.Machine.execNop s
  | .update ch => Sys2Proof.Machine.execUpdate ch s
  | .updateAll => Sys2Proof.Machine.execUpdateAll s
  | .finalize ch => Sys2Proof.Machine.execFinalize ch s
  | .cal => Sys2Proof.Machine.execCal s
  | .calT idx => Sys2Proof.Machine.execCalT idx s
  | .adcInit => Sys2Proof.Machine.execAdcInit s
  | .adcReset => Sys2Proof.Machine.execAdcReset s
  | .adcRead addr size => Sys2Proof.Machine.execAdcRead addr size s
  | .adcWrite addr size => Sys2Proof.Machine.execAdcWrite addr size s
  | .adcReadData => Sys2Proof.Machine.execAdcReadData s
  | .dacInit => Sys2Proof.Machine.execDacInit s
  | .dacSet ch src => Sys2Proof.Machine.execDacSet ch src s

end Sys2Proof.Machine
end

