-- ==== Sys2Proof/WellFormed.lean ====
section
/-! DEFINITION. Which commands are well-formed: the operand ranges that the operand types do not already say. -/

namespace Sys2Proof

/-- The byte counts ADC_READ admits: 1 to 4 (rule R57). -/
def readSizeOk (size : BitVec 3) : Bool := 1 ≤ size.toNat && size.toNat ≤ 4

/-- The byte counts ADC_WRITE admits: 1 to 3 (rule R57). -/
def writeSizeOk (size : BitVec 3) : Bool := 1 ≤ size.toNat && size.toNat ≤ 3

/-- A command some legal word stands for (rule R57). Channel, IDX and ADDR are bounded by their types. -/
def Instr.wf : Instr → Bool
  | .nop => true
  | .update _ => true
  | .updateAll => true
  | .finalize _ => true
  | .cal => true
  | .calT _ => true
  | .adcInit => true
  | .adcReset => true
  | .adcRead _ size => readSizeOk size
  | .adcWrite _ size => writeSizeOk size
  | .adcReadData => true
  | .dacInit => true
  | .dacSet _ _ => true

end Sys2Proof
end

