-- ==== Sys2Proof/Decode.lean ====
section
/-! DEFINITION. The command decoder, total on every 32-bit word, and the encoder (rules R54 to R58). -/

namespace Sys2Proof

/-- Why a word is illegal. The block makes no distinction between these (rule R58): each word refused under any of
these names sets ILLEGAL_CMD and nothing else (rule R59). -/
inductive IllegalWord where
  /-- Bits 31:27 or 15:12 are not zero. -/
  | reservedBits
  /-- The opcode is none of rule R56. -/
  | unassignedOpcode
  /-- A field the command does not use is not zero. -/
  | unusedField
  /-- SIZE is outside the range of ADC_READ or ADC_WRITE. -/
  | badSize
  deriving DecidableEq, Repr

/-- The field `OP`, bits 7:0 (rule R54). -/
def fieldOp (w : Word) : BitVec 8 := w.extractLsb' 0 8

/-- The field `CH`, bits 9:8 (rule R55). -/
def fieldCh (w : Word) : ChanNo := (w.extractLsb' 8 2).toFin

/-- The field `SRC`, bit 10 (rule R55). -/
def fieldSrc (w : Word) : DacSource := if w.getLsbD 10 then .out else .dacCur

/-- The field `WT`, bit 11 (rule R55). -/
def fieldWt (w : Word) : Bool := w.getLsbD 11

/-- The low six bits of the field `ADDR`, bits 21:16 (rules R55, R64). -/
def fieldAddr (w : Word) : BitVec 6 := w.extractLsb' 16 6

/-- The field `IDX`, bits 19:16 (rule R55). -/
def fieldIdx (w : Word) : Fin 16 := (w.extractLsb' 16 4).toFin

/-- The field `SIZE`, bits 26:24 (rule R55). -/
def fieldSize (w : Word) : BitVec 3 := w.extractLsb' 24 3

/-- Rule R57's definition of a legal command word, clause by clause. -/
def legalWord (w : Word) : Bool :=
  w.extractLsb' 27 5 == 0#5 && w.extractLsb' 12 4 == 0#4 &&
  match (fieldOp w).toNat with
  | 0x00 | 0x02 | 0x20 | 0x21 | 0x24 | 0x30 => w.extractLsb' 8 19 == 0#19
  | 0x01 | 0x03 => w.extractLsb' 10 17 == 0#17
  | 0x10 => w.extractLsb' 20 7 == 0#7 && w.getLsbD 10 == false && w.extractLsb' 8 2 == 0#2 &&
      (w.getLsbD 11 || w.extractLsb' 16 4 == 0#4)
  | 0x22 => w.extractLsb' 8 8 == 0#8 && w.extractLsb' 22 2 == 0#2 && readSizeOk (fieldSize w)
  | 0x23 => w.extractLsb' 8 8 == 0#8 && w.extractLsb' 22 2 == 0#2 && writeSizeOk (fieldSize w)
  | 0x31 => w.extractLsb' 11 16 == 0#16
  | _ => false

/-- `i` if the condition on the word's unused fields holds, else a rejection by name. -/
def decodeIf (ok : Bool) (i : Instr) : Except IllegalWord Instr :=
  if ok then .ok i else .error .unusedField

/-- The decoder of a word whose reserved bits are zero, by opcode (rule R56). -/
def decodeOp (w : Word) : Except IllegalWord Instr :=
  match (fieldOp w).toNat with
  | 0x00 => decodeIf (w.extractLsb' 8 19 == 0#19) .nop
  | 0x01 => decodeIf (w.extractLsb' 10 17 == 0#17) (.update (fieldCh w))
  | 0x02 => decodeIf (w.extractLsb' 8 19 == 0#19) .updateAll
  | 0x03 => decodeIf (w.extractLsb' 10 17 == 0#17) (.finalize (fieldCh w))
  | 0x10 =>
      if fieldWt w then
        decodeIf (w.extractLsb' 20 7 == 0#7 && w.extractLsb' 8 3 == 0#3) (.calT (fieldIdx w))
      else decodeIf (w.extractLsb' 16 11 == 0#11 && w.extractLsb' 8 3 == 0#3) .cal
  | 0x20 => decodeIf (w.extractLsb' 8 19 == 0#19) .adcInit
  | 0x21 => decodeIf (w.extractLsb' 8 19 == 0#19) .adcReset
  | 0x22 =>
      if readSizeOk (fieldSize w) then
        decodeIf (w.extractLsb' 8 8 == 0#8 && w.extractLsb' 22 2 == 0#2) (.adcRead (fieldAddr w) (fieldSize w))
      else .error .badSize
  | 0x23 =>
      if writeSizeOk (fieldSize w) then
        decodeIf (w.extractLsb' 8 8 == 0#8 && w.extractLsb' 22 2 == 0#2) (.adcWrite (fieldAddr w) (fieldSize w))
      else .error .badSize
  | 0x24 => decodeIf (w.extractLsb' 8 19 == 0#19) .adcReadData
  | 0x30 => decodeIf (w.extractLsb' 8 19 == 0#19) .dacInit
  | 0x31 => decodeIf (w.extractLsb' 11 16 == 0#16) (.dacSet (fieldCh w) (fieldSrc w))
  | _ => .error .unassignedOpcode

/-- The command a word stands for, or the name of what makes it illegal (rules R57, R58). -/
def decode (w : Word) : Except IllegalWord Instr :=
  if w.extractLsb' 27 5 == 0#5 && w.extractLsb' 12 4 == 0#4 then decodeOp w else .error .reservedBits

/-- A word with the given values in the fields SIZE, ADDR, WT, SRC, CH and OP, its reserved bits zero (rule R54). -/
def layWord (size : BitVec 3) (addr : BitVec 8) (wt src : Bool) (ch : BitVec 2) (op : BitVec 8) : Word :=
  0#5 ++ size ++ addr ++ 0#4 ++ BitVec.ofBool wt ++ BitVec.ofBool src ++ ch ++ op

/-- The command word of a command: the opcode of rule R56, the operands of rule R55, every unused field zero. -/
def encode : Instr → Word
  | .nop => layWord 0 0 false false 0 0x00
  | .update ch => layWord 0 0 false false (.ofFin ch) 0x01
  | .updateAll => layWord 0 0 false false 0 0x02
  | .finalize ch => layWord 0 0 false false (.ofFin ch) 0x03
  | .cal => layWord 0 0 false false 0 0x10
  | .calT idx => layWord 0 (0#4 ++ (BitVec.ofFin idx : BitVec 4)) true false 0 0x10
  | .adcInit => layWord 0 0 false false 0 0x20
  | .adcReset => layWord 0 0 false false 0 0x21
  | .adcRead addr size => layWord size (0#2 ++ addr) false false 0 0x22
  | .adcWrite addr size => layWord size (0#2 ++ addr) false false 0 0x23
  | .adcReadData => layWord 0 0 false false 0 0x24
  | .dacInit => layWord 0 0 false false 0 0x30
  | .dacSet ch src => layWord 0 0 false (src == .out) (.ofFin ch) 0x31

/-- The word whose bits below `nbits` are those of `w` and whose other bits are zero. A command is always one
32-bit word (rule R54), so a longer row does not exist. -/
def tableWord (nbits w : Nat) : Word := BitVec.ofNat 32 (w % 2 ^ nbits)

/-- The command the decoder reads from the word `w` of an opcode-table row of `nbits` bits. -/
def decodeTableWord (nbits w : Nat) : Option Instr := (decode (tableWord nbits w)).toOption

end Sys2Proof
end

