-- ==== Sys2Proof/Machine/HostAccess.lean ====
section
/-! DEFINITION. Host reads and writes, and the dispatch of a command (rules R28, R35 to R39, R59). -/

namespace Sys2Proof.Machine

/-- `MemRead(addr, 4)` out of reset (rule R37): the value and the state after it. -/
def memRead (s : State) (a : HostAddr) : Word × State :=
  match decodeAddr a with
  | some r => (r.read s, s)
  | none => (0, s.flag .accErr)

/-- Dispatch of a word written to CMD while IDLE (rule R59). -/
def dispatchWord (s : State) (v : Word) : State :=
  match decode v with
  | .ok i => (s.setCmd v).setSeq (.busy i)
  | .error _ => s.flag .illegalCmd

/-- A host write to STATE of channel `c` while IDLE (rule R28). -/
def writeChState (s : State) (c : ChanNo) (v : Word) : State :=
  match chStateOf v with
  | some q => s.setChan c { s.ch[c] with state := q }
  | none => s.flag .stateErr

/-- A host write to a staging register: the value is stored unchanged (rules R20, R38). Other registers of a channel
are not staging registers and are left alone. -/
def ChanReg.writeStage (r : ChanReg) (v : Word) (g : Stage) : Stage :=
  match r with
  | .kp => { g with kp := v }
  | .ki => { g with ki := v }
  | .kd => { g with kd := v }
  | .li => { g with li := v }
  | .ld => { g with ld := v }
  | .setpoint => { g with setpoint := v }
  | .pmin => { g with pmin := v }
  | .pmax => { g with pmax := v }
  | .vlimStage => { g with vlim := v }
  | .ws i => { g with ws := g.ws.set i v }
  | .state | .out | .mix | .vlim | .ilimUp | .ilimLo | .b0 | .b1 | .b2 | .a1 | .a2 | .off | .lo | .hi
  | .x1 | .x2 | .y1 | .y2 | .w _ => g

/-- A host write to a register that is not read-only, while IDLE (rule R38). A read-only register is left alone. -/
def Reg.write (r : Reg) (v : Word) (s : State) : State :=
  match r with
  | .cmd => dispatchWord s v
  | .status => s.clearSticky v
  | .adcWdata => s.setAdc { s.adc with wdata := v }
  | .calVin => s.setCal { s.cal with vin := v }
  | .dacCur c => s.setDacCur c v
  | .temp i => s.setTemp i v
  | .chan c .state => writeChState s c v
  | .chan c q => s.setChan c { s.ch[c] with stage := q.writeStage v s.ch[c].stage }
  | .adcRdata | .adcData | .adcTag | .adcId | .calTout | .calIdx | .dacCode _ | .maxCur | .cSafe | .cal _ _ => s

/-- `MemWrite(addr, 4, v)` out of reset, its checks in the order of rule R38. -/
def memWrite (s : State) (a : HostAddr) (v : Word) : State :=
  if s.isBusy then s.flag .wrBusy
  else match decodeAddr a with
    | none => s.flag .accErr
    | some r => if r.readOnly then s.flag .accErr else r.write v s

/-- A host read, whose data go to the port `h_rdata` (rule R32); in reset it returns 0 and does nothing (rule R122). -/
def State.hostRead (s : State) (a : HostAddr) : State :=
  if s.rstN then (memRead s a).2.setHRdata (memRead s a).1 else s.setHRdata 0

/-- A host write; in reset it is ignored with no status bit (rule R122). -/
def State.hostWrite (s : State) (a : HostAddr) (v : Word) : State :=
  if s.rstN then memWrite s a v else s

end Sys2Proof.Machine
end

