-- ==== Sys2Proof/Machine/Sequencer.lean ====
section
/-! DEFINITION. Who moves next (rules R6, R48): the environment's next input, or the sequencer with its command. -/

namespace Sys2Proof.Machine

/-- What one step does. -/
inductive Turn where
  /-- The environment has moved, or nobody had anything to do. -/
  | moved (s : State)
  /-- The sequencer runs its command, from the state it commits to. -/
  | run (i : Instr) (s : State)

/-- The sequencer's turn: it runs the command that is BUSY, unless the block is in reset, IDLE, or in a transaction
that never returns (rules R23, R114, R122). -/
def sequencerTurn (s : State) : Turn :=
  match s.rstN, s.seq, s.bus.inFlight with
  | true, .busy i, none => .run i s
  | _, _, _ => .moved s

/-- The next turn, as the inputs have it. With no input left the sequencer moves: a command that can end, ends
(rule R131). -/
def nextTurn (s : State) : Turn :=
  match s.inputs with
  | [] => sequencerTurn s
  | .sequencer :: rest => sequencerTurn (s.setInputs rest)
  | .hostRead a :: rest => .moved ((s.setInputs rest).hostRead a)
  | .hostWrite a v :: rest => .moved ((s.setInputs rest).hostWrite a v)
  | .rstPin level :: rest => .moved ((s.setInputs rest).setRstPin level)

/-- The state in which the word `w` has just been accepted by CMD (rule R59) and the sequencer moves next. A word that
is not legal is about to be written to CMD instead, since no word of that kind is ever running. -/
def State.loadCommand (s : State) (w : Word) : State :=
  match decode w with
  | .ok i => { s with
      rstN := true, cmd := w, seq := .busy i, bus := s.bus.idleLines, inputs := .sequencer :: s.inputs }
  | .error _ => { s with rstN := true, seq := .idle, inputs := .hostWrite 0 w :: s.inputs }

end Sys2Proof.Machine
end

