-- ==== Sys2Proof/Machine/Step.lean ====
section
/-! DEFINITION. One step of the machine. -/

namespace Sys2Proof.Machine

/-- One step (rules R5, R48): the environment's next input, or the running command as one atomic step. -/
def step (s : State) : Host.Outcome State Fault Refusal :=
  match nextTurn s with
  | .moved t => .next t
  | .run i t => exec i t

/-- `s` with the command word `w` of an opcode-table row just accepted, so that the next step runs it. -/
def State.withFetchWord (s : State) (nbits w : Nat) : State := s.loadCommand (tableWord nbits w)

end Sys2Proof.Machine
end

