-- ==== Sys2Proof/Machine/HostProgram.lean ====
section
/-! DEFINITION. The notation of host programs and its pseudo-instructions, as inputs of the machine (rules R61, R62, R132). -/

namespace Sys2Proof.Machine

/-- A statement of a host program (rules R61, R62). -/
inductive Stmt where
  /-- `WR <addr>, <value>`. -/
  | wr (addr : HostAddr) (v : Word)
  /-- `RD <addr>`. -/
  | rd (addr : HostAddr)
  /-- A command statement: its word is written to CMD. When the command's turn falls is `Stmt.inputs`' choice. -/
  | cmd (i : Instr)
  /-- `POLL`: the sequencer is given its turn, then STATUS is read. Where the command returns, that read is the one
  that finds BUSY = 0; where it hangs, a real `POLL` would go on for ever (rule R132). -/
  | poll
  deriving DecidableEq, Repr

/-- The host address of a register. -/
def Reg.hostAddr (r : Reg) : HostAddr := BitVec.ofNat 16 r.addr

/-- The inputs a statement stands for. DESIGN CHOICE (notes/assumptions/22.md): rule R48 leaves open when a command's commit
falls among the host accesses after it; in this notation a command statement gives the sequencer no turn, so its commit
falls at the next `POLL`, or after the program's last statement where none follows, and every write in between meets BUSY.
The other interleavings are lists of inputs that no `Stmt` program stands for. -/
def Stmt.inputs : Stmt → List Input
  | .wr a v => [.hostWrite a v]
  | .rd a => [.hostRead a]
  | .cmd i => [.hostWrite (Reg.hostAddr .cmd) (encode i)]
  | .poll => [.sequencer, .hostRead (Reg.hostAddr .status)]

/-- The inputs of a host program. -/
def programInputs (p : List Stmt) : List Input := p.flatMap Stmt.inputs

/-- A write to a named register. -/
def wrReg (r : Reg) (v : Word) : Stmt := .wr r.hostAddr v

/-- `DO <command>` (rule R62). -/
def doCommand (i : Instr) : List Stmt := [.cmd i, .poll]

/-- `SETPID` (rule R62). -/
def setPid (c : ChanNo) (kp ki kd li ld sp min max : Word) : List Stmt :=
  [wrReg (.chan c .kp) kp, wrReg (.chan c .ki) ki, wrReg (.chan c .kd) kd, wrReg (.chan c .li) li,
    wrReg (.chan c .ld) ld, wrReg (.chan c .setpoint) sp, wrReg (.chan c .pmin) min, wrReg (.chan c .pmax) max]
    ++ doCommand (.finalize c)

/-- `SETW` (rule R62). -/
def setWeights (c : ChanNo) (w : Vector Word 16) : List Stmt :=
  (List.finRange 16).map (fun i => wrReg (.chan c (.ws i)) w[i]) ++ doCommand (.finalize c)

/-- `CALW` (rule R62). -/
def calWrite (idx : Fin 16) (v : Word) : List Stmt := wrReg .calVin v :: doCommand (.calT idx)

/-- `CLR` (rule R62): every sticky bit is cleared. -/
def clearAll : List Stmt := [wrReg .status stickyMask]

/-- A machine about to perform a host program. -/
def State.withProgram (s : State) (p : List Stmt) : State := s.setInputs (programInputs p)

end Sys2Proof.Machine
end

