-- ==== Sys2Proof/Safety.lean ====
section
/-! DEFINITION. What counts as a safe state and as the frame of a step, in the terms the statements use. -/

namespace Sys2Proof.Machine

/-- A datum lies in `[−C_SAFE, C_SAFE]`; a NaN does not (rule R29). -/
def withinSafe (p : Params) (w : Word) : Bool := fle (fneg (cSafe p)) w && fle w (cSafe p)

/-- The safety invariant of one channel (rule R29). -/
def channelSafe (p : Params) (c : Channel) : Bool :=
  withinSafe p c.live.filter.lo && withinSafe p c.live.filter.hi && withinSafe p c.out &&
  withinSafe p c.fstate.y1 && withinSafe p c.fstate.y2

/-- The safety invariant of the block (rule R29). -/
def State.safe (s : State) : Prop := ∀ c : ChanNo, channelSafe s.cfg.params s.ch[c] = true

/-- The chip-select lines agree with the transaction in flight: its line is 0, every other is 1 (rule R31). -/
def Buses.linesOk (b : Buses) : Bool :=
  match b.inFlight with
  | none => b.csAdcN && b.csDacN == Vector.replicate 4 true
  | some (.adc, _) => !b.csAdcN && b.csDacN == Vector.replicate 4 true
  | some (.dac c, _) => b.csAdcN && b.csDacN == (Vector.replicate 4 true).set c false

/-- The phase, CMD and the transaction in flight agree: the running command is the one whose word CMD holds
(rules R23, R24), a transaction is in flight only while BUSY (rule R31), and a block in reset is IDLE (rule R122). -/
def State.phaseOk (s : State) : Bool :=
  match s.seq with
  | .idle => s.bus.inFlight.isNone
  | .busy i => s.rstN && i.wf && s.cmd == encode i

/-- The stored bits of STATUS: reserved bits and BUSY are 0 (rule R25). -/
def State.statusOk (s : State) : Bool := s.status &&& ~~~storedMask == 0#32

/-- The block hangs: it is BUSY with a transaction that never returns (rule R114). -/
def State.hung (s : State) : Bool := s.isBusy && s.bus.inFlight.isSome

/-- A host program has ended: nothing is left to perform and the sequencer is IDLE (rule R132). -/
def State.ended (s : State) : Bool := s.inputs.isEmpty && !s.isBusy

/-- No sticky bit is set: what a claim about error-free runs takes as its premise (rule R113). -/
def State.errorFree (s : State) : Bool := s.status &&& stickyMask == 0#32

/-- Every register the host can read, but STATUS and those of the list, reads as before, and so do the parts of the
machine that no register shows: the configuration, the reset pin, the inputs to come and the last read's data. -/
def framed (written : List Reg) (s t : State) : Prop :=
  (∀ r : Reg, r ≠ .status → r ∉ written → r.read t = r.read s) ∧
  t.cfg = s.cfg ∧ t.rstN = s.rstN ∧ t.inputs = s.inputs ∧ t.hRdata = s.hRdata

/-- The frame of a command that has ended: `framed`, and the sequencer is IDLE (rules R47, R59). -/
def ended (written : List Reg) (s t : State) : Prop := framed written s t ∧ t.seq = .idle

/-- The buses after transactions on the ADC bus that ended: their replies are used up, their frames are recorded, and
the chip-select is back at 1 (rules R15, R31, R132). -/
def adcBusAfter (b : Buses) (fs : List Frame) (rest : List Reply) : Buses :=
  { b with adcIn := rest, adcLog := b.adcLog ++ fs, csAdcN := true }

/-- The buses after transactions on the DAC bus that ended, with the chip-select lines that are left. -/
def dacBusAfter (b : Buses) (fs : List Frame) (rest : List Reply) (lines : Vector Bool 4) : Buses :=
  { b with dacIn := rest, dacLog := b.dacLog ++ fs, csDacN := lines }

/-- The reply of a transaction that ends well, with no reset after it. -/
abbrev okReply (rx : List Byte) : Reply := ⟨.ok rx, false⟩

/-- The reply of a transaction that fails, with no reset after it. -/
abbrev faultReply : Reply := ⟨.fault, false⟩

/-- A frame on the ADC bus that ended well; as many bytes were received as sent (rule R15). -/
def adcFrameOk (tx rx : List Byte) : Frame := ⟨.adc, tx, .ok (receivedBytes .adc tx.length rx)⟩

/-- A frame on the DAC bus that ended well. -/
def dacFrameOk (c : ChanNo) (tx : List Byte) : Frame := ⟨.dac c, tx, .ok []⟩

/-- The byte strings that ADC_INIT sends, in order, written out and not taken from the model's tables: the reset frame
(rule R67), the read of ID (rules R66, R69), and the eight writes of rule R70 at its addresses and in its order, each with
the low `size` bytes of its value, most significant first (rule R65). -/
def adcInitFrames (p : Params) : List (List Byte) :=
  List.replicate 8 0xFF#8 :: [0x47#8, 0x00#8, 0x00#8] ::
    List.zipWith
      (fun a e => a :: (List.range e.size.toNat).map fun j => e.value.extractLsb' (8 * (e.size.toNat - 1 - j)) 8)
      [0x01#8, 0x02#8, 0x10#8, 0x11#8, 0x20#8, 0x21#8, 0x28#8, 0x29#8] p.adcCfg

/-- The value `t` of rule R77, written out from rules R76 and R77: current · 10 · R_SENSE from left to right, plus
V_REF_TEC, times the quotient 2^20 / V_REF_DAC. -/
def dacVolts (d : NanPick) (p : Params) (current : Word) : Word :=
  fmul (d 4) (fadd (d 3) (fmul (d 2) (fmul (d 1) current 0x41200000#32) p.rSense) p.vRefTec)
    (fdiv (d 0) 0x49800000#32 p.vRefDac)

/-- Rule R77 written out, apart from the model's own conversion: `n` is the code of a current. The value `t` is finite,
`n` is an integer nearest to it, and where two are equally near `n` is the one of larger magnitude; the type of `n` is the
range 0 to 2^20 − 1. A datum counts units of 2^-149, so the integer `n` counts n · 2^149. -/
def isDacCode (d : NanPick) (p : Params) (current : Word) (n : BitVec 20) : Prop :=
  isFinite (dacVolts d p current) = true ∧
  2 * ((n.toNat : Int) * 2 ^ 149 - units (dacVolts d p current)).natAbs ≤ 2 ^ 149 ∧
  (2 * ((n.toNat : Int) * 2 ^ 149 - units (dacVolts d p current)).natAbs = 2 ^ 149 →
    (units (dacVolts d p current)).natAbs < n.toNat * 2 ^ 149)

/-- How far a datum is from rule R79's exact value ((2^20 − 1) · V_REF_DAC / 2^20 − V_REF_TEC) / (10 · R_SENSE), times
that value's denominator 2^20 · 10 · R_SENSE; every datum counts units of 2^-149. -/
def maxCurrentError (p : Params) (x : Word) : Nat :=
  (units x * (2 ^ 20 * 10 * units p.rSense) -
    ((2 ^ 20 - 1) * units p.vRefDac - 2 ^ 20 * units p.vRefTec) * 2 ^ 149).natAbs

/-- The order of the data that are no NaN, −0.0 below +0.0 (rule R13): a pattern read as sign and magnitude (rule R20). -/
def datumOrder (w : Word) : Int :=
  if w.getLsbD 31 then -((w.extractLsb' 0 31).toNat : Int) - 1 else ((w.extractLsb' 0 31).toNat : Int)

/-- The addresses of the global registers, as the table of rule R24 lists them. -/
def globalMap : List (Nat × Reg) :=
  [(0x0000, .cmd), (0x0004, .status), (0x0008, .adcWdata), (0x000C, .adcRdata), (0x0010, .adcData), (0x0014, .adcTag),
    (0x0018, .adcId), (0x0020, .calVin), (0x0024, .calTout), (0x0028, .calIdx),
    (0x0030, .dacCur 0), (0x0034, .dacCur 1), (0x0038, .dacCur 2), (0x003C, .dacCur 3),
    (0x0040, .dacCode 0), (0x0044, .dacCode 1), (0x0048, .dacCode 2), (0x004C, .dacCode 3),
    (0x0050, .maxCur), (0x0054, .cSafe)] ++ (List.finRange 16).map fun i => (0x0080 + 4 * i.val, .temp i)

/-- The offsets of the registers of a channel, as the table of rule R26 lists them. -/
def channelMap : List (Nat × ChanReg) :=
  [(0x00, .state), (0x04, .out), (0x08, .mix), (0x0C, .vlim), (0x10, .kp), (0x14, .ki), (0x18, .kd), (0x1C, .li),
    (0x20, .ld), (0x24, .setpoint), (0x28, .pmin), (0x2C, .pmax), (0x30, .vlimStage), (0x34, .ilimUp), (0x38, .ilimLo),
    (0x40, .b0), (0x44, .b1), (0x48, .b2), (0x4C, .a1), (0x50, .a2), (0x54, .off), (0x58, .lo), (0x5C, .hi),
    (0x60, .x1), (0x64, .x2), (0x68, .y1), (0x6C, .y2)] ++
    (List.finRange 16).map (fun i => (0x80 + 4 * i.val, .ws i)) ++
    (List.finRange 16).map fun i => (0xC0 + 4 * i.val, .w i)

/-- The bits of STATUS that are fields of rule R25's table, but BUSY: 1, 2, 8 to 17 and 20 to 23. -/
def isStatusField (n : Nat) : Bool := n == 1 || n == 2 || (8 ≤ n && n ≤ 17) || (20 ≤ n && n ≤ 23)

/-- The first bytes a command with serial traffic sends, and their line, where it gets so far (rules R68 to R83). -/
def firstFrame (i : Instr) (s : State) : Option (BusLine × List Byte) :=
  match i with
  | .adcInit => some (.adc, resetFrameBytes)
  | .adcReset => some (.adc, resetFrameBytes)
  | .adcRead a size => if s.adcReady then some (.adc, readFrameBytes a size.toNat) else none
  | .adcWrite a size => if s.adcReady then some (.adc, writeFrameBytes a size.toNat s.adc.wdata) else none
  | .adcReadData => if s.adcReady then some (.adc, readFrameBytes adcRegData 4) else none
  | .dacInit => (dacCodeFrom s.cfg.params fZero).map fun n => (.dac 0, dacFrameBytes n)
  | .dacSet c src => (dacCodeFrom s.cfg.params (dacCurrent c src s)).map fun n => (.dac c, dacFrameBytes n)
  | .nop | .update _ | .updateAll | .finalize _ | .cal | .calT _ => none

/-- All the frames a command sends, with their lines and in order, where every transaction ends well and the identity of
ADC_INIT matches (rules R68 to R83). -/
def serialFrames (i : Instr) (s : State) : List (BusLine × List Byte) :=
  match i with
  | .adcInit => (adcInitFrames s.cfg.params).map fun tx => (.adc, tx)
  | .dacInit =>
      match dacCodeFrom s.cfg.params fZero with
      | some n => (List.finRange 4).map fun c => (.dac c, dacFrameBytes n)
      | none => []
  | .nop | .update _ | .updateAll | .finalize _ | .cal | .calT _ | .adcReset | .adcRead _ _ | .adcWrite _ _
  | .adcReadData | .dacSet _ _ => (firstFrame i s).toList

/-- The frame that a transaction with a given result leaves on its bus (rules R15, R132). -/
def frameOf (f : BusLine × List Byte) (r : XferResult) : Frame :=
  match r with
  | .ok rx => ⟨f.1, f.2, .ok (receivedBytes f.1 f.2.length rx)⟩
  | .fault => ⟨f.1, f.2, .fault⟩
  | .stall => ⟨f.1, f.2, .stall⟩

/-- The frames of the first transactions of a command, ended well, and of the next one, with the result `r`. -/
def framesUpTo (i : Instr) (s : State) (rxs : List (List Byte)) (f : BusLine × List Byte) (r : XferResult) :
    List Frame :=
  List.zipWith (fun f rx => frameOf f (.ok rx)) (serialFrames i s) rxs ++ [frameOf f r]

/-- The buses with the frames of a line's bus recorded and the replies left on it; the lines as they were. -/
def Buses.withFrames (b : Buses) (line : BusLine) (fs : List Frame) (rest : List Reply) : Buses :=
  match line with
  | .adc => { b with adcIn := rest, adcLog := b.adcLog ++ fs }
  | .dac _ => { b with dacIn := rest, dacLog := b.dacLog ++ fs }

/-- The identity test of ADC_INIT has let it go on, where the command is ADC_INIT and the identity read, its second
transaction, has ended (rule R69). -/
def identityPassed (i : Instr) (rxs : List (List Byte)) : Prop :=
  i = .adcInit → ∀ rx, rxs[1]? = some rx →
    adcIdOk ((readFrameValue 2 (receivedBytes .adc 3 rx)).setWidth 16) = true

/-- The live registers of channel `c`, which FINALIZE writes (rules R27, R105). -/
def liveRegs (c : ChanNo) : List Reg :=
  [.chan c .b0, .chan c .b1, .chan c .b2, .chan c .a1, .chan c .a2, .chan c .off, .chan c .lo, .chan c .hi,
    .chan c .vlim, .chan c .ilimUp, .chan c .ilimLo] ++ (List.finRange 16).map fun i => .chan c (.w i)

/-- The registers that UPDATE writes where the channel is On (rules R97, R99). -/
def tickRegs (c : ChanNo) : List Reg :=
  [.chan c .mix, .chan c .out, .chan c .x1, .chan c .x2, .chan c .y1, .chan c .y2]

/-- The registers, but STATUS, that a command's rule lets it write (rules R60 to R105). -/
def commandWrites (i : Instr) : List Reg :=
  match i with
  | .nop | .adcReset | .adcWrite _ _ => []
  | .update c => tickRegs c
  | .updateAll => tickRegs 0 ++ tickRegs 1 ++ tickRegs 2 ++ tickRegs 3
  | .finalize c => liveRegs c
  | .cal => [.calTout, .calIdx]
  | .calT idx => [.calTout, .calIdx, .temp idx]
  | .adcInit => [.adcId]
  | .adcRead _ _ => [.adcRdata]
  | .adcReadData => [.adcData, .adcTag]
  | .dacInit => [.dacCode 0, .dacCode 1, .dacCode 2, .dacCode 3]
  | .dacSet c _ => [.dacCode c]

/-- The bits of STATUS, but BUSY, that a command's rule lets it write (rules R25, R106). -/
def commandBits (i : Instr) : Word :=
  match i with
  | .nop | .update _ | .updateAll => 0x00000000#32
  | .finalize c => 0x00100000#32 <<< c.val
  | .cal | .calT _ => 0x00010004#32
  | .adcInit => 0x00002802#32
  | .adcReset => 0x00000800#32
  | .adcRead _ _ | .adcWrite _ _ | .adcReadData => 0x00004800#32
  | .dacInit | .dacSet _ _ => 0x00009000#32

/-- The value of every register at reset, as the table of rule R123 lists them. -/
def resetTable (p : Params) (r : Reg) : Word :=
  match r with
  | .maxCur => maxCurrent p
  | .cSafe => cSafe p
  | .cal k col => col.read (calEntry p.calTable k.val)
  | .chan _ .li | .chan _ .ld | .chan _ .pmax => 0x7F800000#32
  | .chan _ .pmin => 0xFF800000#32
  | .chan _ .off => 0x80000000#32
  | .chan _ .lo => fneg (cSafe p)
  | .chan _ .hi => cSafe p
  | .chan _ .ilimUp => maxNum 0 (fadd 0 (cSafe p) (fmul 0 0x3D4CCCCD#32 p.pwmMaxI)) fZero
  | .chan _ .ilimLo => minNum 0 (fsub 0 (fneg (cSafe p)) (fmul 0 0x3D4CCCCD#32 p.pwmMaxI)) fZero
  | _ => 0#32

/-- The host may write the register (rules R24, R26), and no command does: every such register but STATUS and TEMP. -/
def hostOwned (r : Reg) : Bool :=
  match r with
  | .status | .temp _ => false
  | r => !r.readOnly

/-- The register is live: it changes only by FINALIZE, UPDATE and reset (rule R27). -/
def ChanReg.isLive (r : ChanReg) : Bool := r.readOnly

/-- The command is a FINALIZE or UPDATE that works on channel `c` (rules R99, R100, R105). -/
def commandWorksOn (i : Instr) (c : ChanNo) : Bool :=
  match i with
  | .update k | .finalize k => k == c
  | .updateAll => true
  | .nop | .cal | .calT _ | .adcInit | .adcReset | .adcRead _ _ | .adcWrite _ _ | .adcReadData | .dacInit
  | .dacSet _ _ => false

end Sys2Proof.Machine
end

