-- ==== Sys2Proof/Certificates/Slice0/Obligations.lean ====
section
/-! DEFINITION. The statements for the provers. `t.status` is STATUS but for BUSY, which `t.seq` gives; `d` names the
draws that pick computed NaNs (point I20, notes/assumptions/3.md), so every statement holds whatever those draws are. The
lists of replies to come, of frames sent and of inputs to come are the model's own records of its environment
(notes/assumptions/4.md, 6.md, 8.md), and so is every clause about them; that a frame which was cut is recorded with all
the bytes it was given to send is the model's choice too (notes/assumptions/24.md). -/

open Sys2Proof Sys2Proof.Machine

/-! ### Encoding -/

/-- Every well-formed command decodes from its own word, with every operand value (rules R54 to R56). -/
def Obligations.DecodeEncodeAgree : Prop :=
  ∀ i : Instr, i.wf = true → decode (encode i) = .ok i

/-- Every accepted word has one meaning: it is the word of the command it decodes to (rules R54, R57). -/
def Obligations.AcceptedWordsEncodeBack : Prop :=
  ∀ (w : Word) (i : Instr), decode w = .ok i → i.wf = true ∧ encode i = w

/-- The decoder accepts exactly the words that meet rule R57's conditions, and no other. -/
def Obligations.DecodeAcceptsExactlyLegalWords : Prop :=
  ∀ w : Word, (∃ i, decode w = .ok i) ↔
    (w.extractLsb' 27 5 = 0 ∧ w.extractLsb' 12 4 = 0 ∧
      ((w.extractLsb' 0 8 ∈ [0x00#8, 0x02#8, 0x20#8, 0x21#8, 0x24#8, 0x30#8] ∧ w.extractLsb' 8 19 = 0) ∨
       (w.extractLsb' 0 8 ∈ [0x01#8, 0x03#8] ∧ w.extractLsb' 10 17 = 0) ∨
       (w.extractLsb' 0 8 = 0x10#8 ∧ w.extractLsb' 20 7 = 0 ∧ w.getLsbD 10 = false ∧ w.extractLsb' 8 2 = 0 ∧
          (w.getLsbD 11 = true ∨ w.extractLsb' 16 4 = 0)) ∨
       (w.extractLsb' 0 8 = 0x22#8 ∧ w.extractLsb' 8 8 = 0 ∧ w.extractLsb' 22 2 = 0 ∧
          1 ≤ (w.extractLsb' 24 3).toNat ∧ (w.extractLsb' 24 3).toNat ≤ 4) ∨
       (w.extractLsb' 0 8 = 0x23#8 ∧ w.extractLsb' 8 8 = 0 ∧ w.extractLsb' 22 2 = 0 ∧
          1 ≤ (w.extractLsb' 24 3).toNat ∧ (w.extractLsb' 24 3).toNat ≤ 3) ∨
       (w.extractLsb' 0 8 = 0x31#8 ∧ w.extractLsb' 11 16 = 0)))

/-- Words of 95_test_vectors.md §3.1, one of each family, decode to the commands listed there. -/
def Obligations.SampleWordsDecode : Prop :=
  decode 0x00000000#32 = .ok .nop ∧ decode 0x00000301#32 = .ok (.update 3) ∧
  decode 0x000F0810#32 = .ok (.calT 15) ∧ decode 0x02070022#32 = .ok (.adcRead 0x07 2) ∧
  decode 0x03010023#32 = .ok (.adcWrite 0x01 3) ∧ decode 0x00000731#32 = .ok (.dacSet 3 .out)

/-- Each register answers at its own address and at no other, no other address is mapped, and the addresses are those that
the tables of rules R24 and R26 and the text of rule R30 list (rules R24, R26, R30, R36). -/
def Obligations.RegisterAddressesAgree : Prop :=
  (∀ r : Reg, decodeAddr r.hostAddr = some r) ∧
  (∀ (a : HostAddr) (r : Reg), decodeAddr a = some r → r.addr = a.toNat) ∧
  (∀ x ∈ globalMap, x.2.addr = x.1) ∧
  (∀ x ∈ channelMap, ∀ c : ChanNo, Reg.addr (.chan c x.2) = [0x0100, 0x0200, 0x0300, 0x0400].getD c.val 0 + x.1) ∧
  (∀ k : Fin 144, Reg.addr (.cal k .t) = 0x1000 + 16 * k.val ∧ Reg.addr (.cal k .v) = 0x1004 + 16 * k.val ∧
    Reg.addr (.cal k .s) = 0x1008 + 16 * k.val)

/-! ### Dispatch and the step -/

/-- A legal word written to CMD is accepted, CMD reads it and STATUS.BUSY reads 1; the sequencer's next turn is the
meaning of the command it decodes to (rules R23, R59). -/
def Obligations.AcceptedWordIsRun : Prop :=
  ∀ (s : State) (v : Word) (i : Instr) (rest : List Input),
    s.rstN = true → s.seq = .idle → s.bus.inFlight = none → decode v = .ok i →
    s.inputs = .hostWrite 0x0000#16 v :: .sequencer :: rest →
    ∃ u, step s = .next u ∧ framed [.cmd] (s.setInputs (.sequencer :: rest)) u ∧ Reg.read .cmd u = v ∧
      (Reg.read .status u).getLsbD 0 = true ∧ u.status = s.status ∧ u.bus = s.bus ∧
      step u = exec i (u.setInputs rest)

/-- The running command is the one that a step runs, on the sequencer's turn (rule R23) and, which is the model's choice of
notes/assumptions/4.md, where no input is left. -/
def Obligations.StepRunsTheBusyCommand : Prop :=
  ∀ (s : State) (i : Instr) (rest : List Input),
    s.rstN = true → s.seq = .busy i → s.bus.inFlight = none →
    (s.inputs = .sequencer :: rest → step s = exec i (s.setInputs rest)) ∧ (s.inputs = [] → step s = exec i s)

/-- An illegal word written to CMD while IDLE sets ILLEGAL_CMD and changes nothing else (rules R58, R59). -/
def Obligations.IllegalWordOnlySetsItsBit : Prop :=
  ∀ (s : State) (v : Word) (rest : List Input),
    s.rstN = true → s.seq = .idle → legalWord v = false → s.inputs = .hostWrite 0x0000#16 v :: rest →
    step s = .next { s with inputs := rest, status := s.status ||| 0x00000100#32 }

/-- No state is stuck: every step answers a next state, so no host access and no command ends in a fault or a
refusal (rule R113). -/
def Obligations.EveryStepHasANextState : Prop := ∀ s : State, ∃ t, step s = .next t

/-! ### Host accesses -/

/-- A read of a mapped register returns its value and has no side effect; any other read returns 0 and sets ACC_ERR
(rules R37, R42, R44). -/
def Obligations.HostReadsReturnRegisters : Prop :=
  ∀ (s : State) (a : HostAddr) (rest : List Input), s.rstN = true → s.inputs = .hostRead a :: rest →
    (∀ r, decodeAddr a = some r → step s = .next { s with inputs := rest, hRdata := r.read s }) ∧
    (decodeAddr a = none →
      step s = .next { s with inputs := rest, hRdata := 0, status := s.status ||| 0x00000400#32 })

/-- While BUSY every host write, to any address, is ignored and sets WR_BUSY, and reads proceed (rule R39). -/
def Obligations.BusyWritesAreIgnored : Prop :=
  ∀ (s : State) (a : HostAddr) (rest : List Input), s.rstN = true → s.isBusy = true →
    (∀ v, s.inputs = .hostWrite a v :: rest →
      step s = .next { s with inputs := rest, status := s.status ||| 0x00000200#32 }) ∧
    (∀ r, decodeAddr a = some r → s.inputs = .hostRead a :: rest →
      step s = .next { s with inputs := rest, hRdata := r.read s })

/-- While IDLE a write to a misaligned or unmapped address or to a read-only register is ignored and sets ACC_ERR
(rules R38, R42). -/
def Obligations.BadWritesOnlySetAccErr : Prop :=
  ∀ (s : State) (a : HostAddr) (v : Word) (rest : List Input),
    s.rstN = true → s.seq = .idle → s.inputs = .hostWrite a v :: rest →
    (a.toNat % 4 ≠ 0 ∨ (∀ r : Reg, r.addr ≠ a.toNat) ∨ ∃ r : Reg, r.addr = a.toNat ∧ r.readOnly = true) →
    step s = .next { s with inputs := rest, status := s.status ||| 0x00000400#32 }

/-- While IDLE a write to a plain register stores the value unchanged and has no other effect (rules R20, R38, R126). -/
def Obligations.PlainWritesStoreTheirValue : Prop :=
  ∀ (s : State) (r : Reg) (v : Word) (rest : List Input),
    s.rstN = true → s.seq = .idle → s.inputs = .hostWrite r.hostAddr v :: rest →
    r.readOnly = false → r ≠ .cmd → r ≠ .status → (∀ c, r ≠ .chan c .state) →
    ∃ t, step s = .next t ∧ r.read t = v ∧ framed [r] (s.setInputs rest) t ∧
      t.status = s.status ∧ t.seq = .idle ∧ t.bus = s.bus

/-- While IDLE a write to STATUS clears exactly the sticky bits written 1; BUSY, ADC_READY, CAL_OK and the reserved bits
are ignored, and it is no access error (rules R25, R38, R50). STATUS reads the phase in bit 0, its other fields in their
bits, and 0 in the reserved bits (rules R23, R25). -/
def Obligations.StatusWriteClearsWrittenOnes : Prop :=
  (∀ (s : State) (v : Word) (rest : List Input),
    s.rstN = true → s.seq = .idle → s.inputs = .hostWrite 0x0004#16 v :: rest →
    ∃ t, step s = .next t ∧ t = { s with inputs := rest, status := t.status } ∧
      ∀ n, t.status.getLsbD n =
        (s.status.getLsbD n && !(v.getLsbD n && ((8 ≤ n && n ≤ 17) || (20 ≤ n && n ≤ 23))))) ∧
  (∀ s : State, ((Reg.read .status s).getLsbD 0 = false ↔ s.seq = .idle) ∧
    ∀ n, 0 < n → (Reg.read .status s).getLsbD n = (isStatusField n && s.status.getLsbD n))

/-- While IDLE a write of 0, 1 or 2 to STATE of a channel takes effect at once and changes nothing else; any other
value is ignored and sets STATE_ERR (rule R28). -/
def Obligations.StateWritesAreChecked : Prop :=
  ∀ (s : State) (c : ChanNo) (v : Word) (rest : List Input),
    s.rstN = true → s.seq = .idle → s.inputs = .hostWrite (Reg.hostAddr (.chan c .state)) v :: rest →
    (v.toNat ≤ 2 → ∃ t, step s = .next t ∧ Reg.read (.chan c .state) t = v ∧
      framed [.chan c .state] (s.setInputs rest) t ∧ t.status = s.status ∧ t.seq = .idle ∧ t.bus = s.bus) ∧
    (2 < v.toNat → step s = .next { s with inputs := rest, status := s.status ||| 0x00020000#32 })

/-! ### Reset -/

/-- Right after reset the block is IDLE with its chip-selects at 1, and every register reads as rule R123's table says,
under every admitted configuration. MAXCUR is the datum nearest to rule R79's exact value, which `maxCurrentError` writes
out, a tie going to the even significand, and its code is 2^20 − 1; CSAFE is the lesser of MAXCUR and PWM_MAX_I (rules R79,
R80, R123). -/
def Obligations.ResetLeavesTheTableValues : Prop :=
  ∀ cfg : AdmittedConfig,
    (State.resetOf cfg).seq = .idle ∧ (State.resetOf cfg).bus.csAdcN = true ∧
    (∀ c : ChanNo, (State.resetOf cfg).bus.csDacN[c] = true) ∧
    (∀ r : Reg, r.read (State.resetOf cfg) = resetTable cfg.params r) ∧
    ∃ m c : Word, Reg.read .maxCur (State.resetOf cfg) = m ∧ Reg.read .cSafe (State.resetOf cfg) = c ∧
      isFinite m = true ∧
      (∀ x, isFinite x = true → maxCurrentError cfg.params m ≤ maxCurrentError cfg.params x ∧
        (maxCurrentError cfg.params m = maxCurrentError cfg.params x → units x ≠ units m → m.getLsbD 0 = false)) ∧
      (∀ d : NanPick, isDacCode d cfg.params m 0xFFFFF#20) ∧
      (c = m ∨ c = cfg.params.pwmMaxI) ∧ fle c m = true ∧ fle c cfg.params.pwmMaxI = true ∧ flt 0#32 c = true

/-- When `rst_n` falls, whatever runs or hangs is abandoned: nothing of it is committed, every chip-select goes to 1 and
every register takes its reset value; the configuration stays (rule R122). The first clause is a pin that falls between
steps. The second is a pin that falls within a command, after its transaction number `rxs.length` has ended, well or not,
those before it having ended well: the frames so far are sent and no other. The record of frames, which stays, and the
mark on a reply, which says that the pin falls, are the model's own (notes/assumptions/7.md, 8.md, 24.md). -/
def Obligations.ResetAbandonsEverything : Prop :=
  (∀ (s : State) (rest : List Input), s.inputs = .rstPin false :: rest →
    ∃ t, step s = .next t ∧ t.rstN = false ∧ t.seq = .idle ∧ t.cfg = s.cfg ∧ t.inputs = rest ∧
      t.bus.csAdcN = true ∧ (∀ c : ChanNo, t.bus.csDacN[c] = true) ∧ t.bus.inFlight = none ∧
      t.bus.adcLog = s.bus.adcLog ∧ t.bus.dacLog = s.bus.dacLog ∧
      ∀ r : Reg, r.read t = resetTable s.cfg.params r) ∧
  (∀ (s : State) (i : Instr) (rxs : List (List Byte)) (f : BusLine × List Byte) (r : XferResult) (rest : List Reply),
    (serialFrames i s)[rxs.length]? = some f → identityPassed i rxs → r ≠ .stall →
    s.bus.replies f.1 = rxs.map okReply ++ ⟨r, true⟩ :: rest →
    ∃ t, exec i s = .next t ∧ t.rstN = false ∧ t.seq = .idle ∧ t.cfg = s.cfg ∧ t.inputs = s.inputs ∧
      t.bus = { s.bus.withFrames f.1 (framesUpTo i s rxs f r) rest with
        csAdcN := true, csDacN := Vector.replicate 4 true, inFlight := none } ∧
      ∀ q : Reg, q.read t = resetTable s.cfg.params q)

/-- While `rst_n` is 0 reads return 0 and writes are ignored, neither with a status bit; when it returns to 1 the
block is in the reset state: IDLE, no transaction in flight, every chip-select at 1 and every register at its reset value
(rules R122, R123). -/
def Obligations.ResetIgnoresTheHost : Prop :=
  ∀ (s : State) (rest : List Input), s.rstN = false →
    (∀ a, s.inputs = .hostRead a :: rest → step s = .next { s with inputs := rest, hRdata := 0 }) ∧
    (∀ a v, s.inputs = .hostWrite a v :: rest → step s = .next { s with inputs := rest }) ∧
    (s.inputs = .rstPin true :: rest → ∃ t, step s = .next t ∧ t.rstN = true ∧ t.seq = .idle ∧ t.cfg = s.cfg ∧
      t.inputs = rest ∧ t.bus.csAdcN = true ∧ (∀ c : ChanNo, t.bus.csDacN[c] = true) ∧ t.bus.inFlight = none ∧
      ∀ r : Reg, r.read t = resetTable s.cfg.params r)

/-- The reset values of the live registers are what FINALIZE produces from the reset values of the staging registers
(rules R26, R123). The limit PWM_MAX_V = −0.0, which rule R10 also admits, is left out: there rule R102 gives VLIM
−0.0 (notes/assumptions/19.md). -/
def Obligations.FinalizeFromResetChangesNothing : Prop :=
  ∀ (cfg : AdmittedConfig) (c : ChanNo), cfg.params.pwmMaxV ≠ 0x80000000#32 →
    ∃ t, exec (.finalize c) (State.resetOf cfg) = .next t ∧ ∀ r : Reg, r.read t = r.read (State.resetOf cfg)

/-! ### NOP, UPDATE, UPDATE_ALL -/

/-- NOP ends, and leaves every register, every status bit but BUSY and both buses as they were (rule R60). -/
def Obligations.NopOnlyEnds : Prop :=
  ∀ s : State, ∃ t, exec .nop s = .next t ∧ ended [] s t ∧ t.status = s.status ∧ t.bus = s.bus

/-- UPDATE of a channel whose STATE reads 1, On (rule R26): the mix of rule R96, the biquad step of rule R97 with its
output clamped to `[LO, HI]` and fed back, and nothing else (rule R99). -/
def Obligations.UpdateOnRunsTheBiquad : Prop :=
  ∀ (s : State) (c : ChanNo), Reg.read (.chan c .state) s = 1#32 →
    ∃ (t : State) (d : NanPick) (m : Nat → Word) (x0 y : Word),
      exec (.update c) s = .next t ∧
      m 0 = 0#32 ∧
      (∀ i : Fin 16,
        m (i.val + 1) = fadd (d (2 * i.val + 1)) (m i.val) (fmul (d (2 * i.val)) s.temp[i] s.ch[c].live.w[i])) ∧
      x0 = fadd (d 32) (m 16) s.ch[c].live.filter.off ∧
      y = clampf (d 42) (d 43)
        (fsub (d 41) (fsub (d 40) (fadd (d 39) (fadd (d 38)
          (fmul (d 33) s.ch[c].live.filter.b0 x0) (fmul (d 34) s.ch[c].live.filter.b1 s.ch[c].fstate.x1))
          (fmul (d 35) s.ch[c].live.filter.b2 s.ch[c].fstate.x2))
          (fmul (d 36) s.ch[c].live.filter.a1 s.ch[c].fstate.y1))
          (fmul (d 37) s.ch[c].live.filter.a2 s.ch[c].fstate.y2))
        s.ch[c].live.filter.lo s.ch[c].live.filter.hi ∧
      Reg.read (.chan c .mix) t = m 16 ∧ Reg.read (.chan c .out) t = y ∧
      Reg.read (.chan c .x1) t = x0 ∧ Reg.read (.chan c .x2) t = s.ch[c].fstate.x1 ∧
      Reg.read (.chan c .y1) t = y ∧ Reg.read (.chan c .y2) t = s.ch[c].fstate.y1 ∧
      ended (tickRegs c) s t ∧ t.status = s.status ∧ t.bus = s.bus

/-- UPDATE of a channel whose STATE does not read 1, so in Off or Hold (rule R26): OUT is Y1, MIX is written, and X1,
X2, Y1, Y2 and everything else stay (rules R98, R99). -/
def Obligations.UpdateHoldsWhenNotOn : Prop :=
  ∀ (s : State) (c : ChanNo), Reg.read (.chan c .state) s ≠ 1#32 →
    ∃ (t : State) (d : NanPick) (m : Nat → Word),
      exec (.update c) s = .next t ∧
      m 0 = 0#32 ∧
      (∀ i : Fin 16,
        m (i.val + 1) = fadd (d (2 * i.val + 1)) (m i.val) (fmul (d (2 * i.val)) s.temp[i] s.ch[c].live.w[i])) ∧
      Reg.read (.chan c .mix) t = m 16 ∧ Reg.read (.chan c .out) t = s.ch[c].fstate.y1 ∧
      ended [.chan c .mix, .chan c .out] s t ∧ t.status = s.status ∧ t.bus = s.bus

/-- UPDATE_ALL gives each channel what an UPDATE of that channel gives it, and changes nothing else (rule R100). That a
computed NaN has the same bits in both is the model's choice: it keys the draws by the number of commands ended and by the
channel (notes/assumptions/3.md), where point I20 leaves each one free. -/
def Obligations.UpdateAllUpdatesEachChannel : Prop :=
  ∀ s : State, ∃ t, exec .updateAll s = .next t ∧
    (∀ (c : ChanNo) (u : State), exec (.update c) s = .next u → ∀ r : ChanReg, r.read t.ch[c] = r.read u.ch[c]) ∧
    ended (tickRegs 0 ++ tickRegs 1 ++ tickRegs 2 ++ tickRegs 3) s t ∧ t.status = s.status ∧ t.bus = s.bus

/-- The order in which UPDATE_ALL takes the channels changes nothing (rule R100). That a computed NaN has the same bits in
every order is the model's choice: it keys the draws by the channel (notes/assumptions/3.md), where point I20 leaves each
one free. -/
def Obligations.TickOrderIsImmaterial : Prop :=
  ∀ (s : State) (cs : List ChanNo), cs.Perm [0, 1, 2, 3] → exec .updateAll s = .next (s.tickEach cs).commit

/-! ### FINALIZE -/

/-- FINALIZE with an accepted build: the built filter with its bounds clamped to ±C_SAFE, VLIM, the advisory limits and
the weights, every other register and STATUS unchanged (rules R101, R102, R104, R105). -/
def Obligations.FinalizeInstallsAcceptedBuild : Prop :=
  ∀ (s : State) (c : ChanNo) (f : FilterRegs), buildFilter pidKernel s.ch[c].stage = some f →
    ∃ (t : State) (d : NanPick) (lo hi m5 : Word), exec (.finalize c) s = .next t ∧
      Reg.read (.chan c .b0) t = f.b0 ∧ Reg.read (.chan c .b1) t = f.b1 ∧ Reg.read (.chan c .b2) t = f.b2 ∧
      Reg.read (.chan c .a1) t = f.a1 ∧ Reg.read (.chan c .a2) t = f.a2 ∧ Reg.read (.chan c .off) t = f.off ∧
      lo = clampf (d 33) (d 34) f.lo (fneg (cSafe s.cfg.params)) (cSafe s.cfg.params) ∧
      hi = clampf (d 35) (d 36) f.hi (fneg (cSafe s.cfg.params)) (cSafe s.cfg.params) ∧
      Reg.read (.chan c .lo) t = lo ∧ Reg.read (.chan c .hi) t = hi ∧
      Reg.read (.chan c .vlim) t = clampf (d 37) (d 38) s.ch[c].stage.vlim 0#32 s.cfg.params.pwmMaxV ∧
      m5 = fmul (d 39) 0x3D4CCCCD#32 s.cfg.params.pwmMaxI ∧
      Reg.read (.chan c .ilimUp) t = maxNum (d 41) (fadd (d 40) hi m5) 0#32 ∧
      Reg.read (.chan c .ilimLo) t = minNum (d 43) (fsub (d 42) lo m5) 0#32 ∧
      ended (liveRegs c) s t ∧ t.status = s.status ∧ t.bus = s.bus

/-- FINALIZE with a rejected build: the channel keeps its eight live filter registers (its bounds still clamped),
BUILD_REJ of the channel is set, and the other steps still run (rules R95, R101, R105). -/
def Obligations.FinalizeKeepsFilterOnReject : Prop :=
  ∀ (s : State) (c : ChanNo), buildFilter pidKernel s.ch[c].stage = none →
    ∃ (t : State) (d : NanPick) (lo hi m5 : Word), exec (.finalize c) s = .next t ∧
      (∀ r ∈ [ChanReg.b0, .b1, .b2, .a1, .a2, .off], r.read t.ch[c] = r.read s.ch[c]) ∧
      lo = clampf (d 33) (d 34) s.ch[c].live.filter.lo (fneg (cSafe s.cfg.params)) (cSafe s.cfg.params) ∧
      hi = clampf (d 35) (d 36) s.ch[c].live.filter.hi (fneg (cSafe s.cfg.params)) (cSafe s.cfg.params) ∧
      Reg.read (.chan c .lo) t = lo ∧ Reg.read (.chan c .hi) t = hi ∧
      Reg.read (.chan c .vlim) t = clampf (d 37) (d 38) s.ch[c].stage.vlim 0#32 s.cfg.params.pwmMaxV ∧
      m5 = fmul (d 39) 0x3D4CCCCD#32 s.cfg.params.pwmMaxI ∧
      Reg.read (.chan c .ilimUp) t = maxNum (d 41) (fadd (d 40) hi m5) 0#32 ∧
      Reg.read (.chan c .ilimLo) t = minNum (d 43) (fsub (d 42) lo m5) 0#32 ∧
      ended (liveRegs c) s t ∧ t.status = s.status ||| (1#32 <<< (20 + c.val)) ∧ t.bus = s.bus

/-- FINALIZE normalizes the staging weights into the live ones: with `a` their absolute sum, taken in order from +0.0,
each live weight is the staged one times 1/a, or the staged one itself where `a` is zero; the staging weights keep
their values (rule R103). -/
def Obligations.FinalizeNormalizesWeights : Prop :=
  ∀ (s t : State) (c : ChanNo), exec (.finalize c) s = .next t →
    ∃ (d : NanPick) (a : Nat → Word), a 0 = 0#32 ∧
      (∀ i : Fin 16, a (i.val + 1) = fadd (d i.val) (a i.val) (s.ch[c].stage.ws[i] &&& 0x7FFFFFFF#32)) ∧
      ((a 16 = 0x00000000#32 ∨ a 16 = 0x80000000#32) →
        ∀ i : Fin 16, Reg.read (.chan c (.w i)) t = s.ch[c].stage.ws[i]) ∧
      (¬ (a 16 = 0x00000000#32 ∨ a 16 = 0x80000000#32) →
        ∀ i : Fin 16, Reg.read (.chan c (.w i)) t =
          fmul (d (17 + i.val)) s.ch[c].stage.ws[i] (fdiv (d 16) 0x3F800000#32 (a 16))) ∧
      ∀ i : Fin 16, Reg.read (.chan c (.ws i)) t = s.ch[c].stage.ws[i]

/-- `BuildFilter` with any kernel: the kernel gets KP, the gains and the finite limits with KP's sign bit, and
+infinity for the other limits; a rejection, a coefficient that is not finite or a setpoint that is not finite
rejects, and an accepted build has OFF = −SETPOINT and infinities for bounds that are not finite (rules R90, R91, R94).
That the sample period reaches the kernel as the datum 0x3A82292F is read from rule R92, which names it for a kernel that
works in binary32 (notes/assumptions/14.md). -/
def Obligations.BuildFilterFollowsItsRule : Prop :=
  ∀ (kernel : PidKernel) (g : Stage) (ki kd li ld : Word),
    signBit ki = signBit g.kp → ki &&& 0x7FFFFFFF#32 = g.ki &&& 0x7FFFFFFF#32 →
    signBit kd = signBit g.kp → kd &&& 0x7FFFFFFF#32 = g.kd &&& 0x7FFFFFFF#32 →
    (if isFinite g.li then signBit li = signBit g.kp ∧ li &&& 0x7FFFFFFF#32 = g.li &&& 0x7FFFFFFF#32
      else li = 0x7F800000#32) →
    (if isFinite g.ld then signBit ld = signBit g.kp ∧ ld &&& 0x7FFFFFFF#32 = g.ld &&& 0x7FFFFFFF#32
      else ld = 0x7F800000#32) →
    (kernel g.kp ki kd li ld 0x3A82292F#32 = none → buildFilter kernel g = none) ∧
    (∀ k, kernel g.kp ki kd li ld 0x3A82292F#32 = some k →
      ((∀ w ∈ [k.b0, k.b1, k.b2, k.a1, k.a2, g.setpoint], isFinite w = true) →
        buildFilter kernel g = some ⟨k.b0, k.b1, k.b2, k.a1, k.a2, g.setpoint ^^^ 0x80000000#32,
          if isFinite g.pmin then g.pmin else 0xFF800000#32, if isFinite g.pmax then g.pmax else 0x7F800000#32⟩) ∧
      ((∃ w ∈ [k.b0, k.b1, k.b2, k.a1, k.a2, g.setpoint], isFinite w = false) → buildFilter kernel g = none))

/-- With KI and KD both zero, of either sign, and finite KP and SETPOINT, FINALIZE installs the pure proportional filter
and rejects nothing, whatever the kernel is (rules R93, R94). -/
def Obligations.ProportionalGainsGiveProportionalFilter : Prop :=
  ∀ (s : State) (c : ChanNo),
    (s.ch[c].stage.ki = 0x00000000#32 ∨ s.ch[c].stage.ki = 0x80000000#32) →
    (s.ch[c].stage.kd = 0x00000000#32 ∨ s.ch[c].stage.kd = 0x80000000#32) →
    isFinite s.ch[c].stage.kp = true → isFinite s.ch[c].stage.setpoint = true →
    ∃ t, exec (.finalize c) s = .next t ∧ t.status = s.status ∧
      Reg.read (.chan c .b0) t = s.ch[c].stage.kp ∧ Reg.read (.chan c .b1) t = 0#32 ∧
      Reg.read (.chan c .b2) t = 0#32 ∧ Reg.read (.chan c .a1) t = 0#32 ∧ Reg.read (.chan c .a2) t = 0#32 ∧
      Reg.read (.chan c .off) t = s.ch[c].stage.setpoint ^^^ 0x80000000#32

/-! ### CAL -/

/-- CAL and CAL.T with CAL_VIN in range: CAL_IDX is the largest k in 0..142 with V[k] ≥ CAL_VIN, CAL_TOUT the linear
interpolation in that bracket, CAL_OK is 1; CAL.T also writes TEMP[IDX]; nothing else changes (rules R86 to R88). -/
def Obligations.CalInRangeInterpolates : Prop :=
  ∀ s : State, fle s.cal.vin (calEntry s.cfg.params.calTable 0).v = true →
    fle (calEntry s.cfg.params.calTable 143).v s.cal.vin = true →
    ∃ (i : Nat) (d : NanPick) (temp : Word),
      i ≤ 142 ∧ fle s.cal.vin (calEntry s.cfg.params.calTable i).v = true ∧
      (∀ k, i < k → k ≤ 142 → fle s.cal.vin (calEntry s.cfg.params.calTable k).v = false) ∧
      temp = fadd (d 5) (calEntry s.cfg.params.calTable i).t
        (fmul (d 4) (fsub (d 0) s.cal.vin (calEntry s.cfg.params.calTable i).v)
          (fdiv (d 3)
            (fsub (d 1) (calEntry s.cfg.params.calTable (i + 1)).t (calEntry s.cfg.params.calTable i).t)
            (fsub (d 2) (calEntry s.cfg.params.calTable (i + 1)).v (calEntry s.cfg.params.calTable i).v))) ∧
      (∃ t, exec .cal s = .next t ∧ Reg.read .calTout t = temp ∧ Reg.read .calIdx t = BitVec.ofNat 32 i ∧
        ended [.calTout, .calIdx] s t ∧ t.status = s.status ||| 0x00000004#32 ∧ t.bus = s.bus) ∧
      (∀ idx : Fin 16, ∃ t, exec (.calT idx) s = .next t ∧ Reg.read .calTout t = temp ∧
        Reg.read .calIdx t = BitVec.ofNat 32 i ∧ Reg.read (.temp idx) t = temp ∧
        ended [.calTout, .calIdx, .temp idx] s t ∧ t.status = s.status ||| 0x00000004#32 ∧ t.bus = s.bus)

/-- CAL and CAL.T with CAL_VIN out of range, a NaN included: CAL_OK is cleared, CAL_OOR is raised, and no register
changes (rules R86, R88). -/
def Obligations.CalOutOfRangeIsReported : Prop :=
  ∀ (s : State) (i : Instr), (i = .cal ∨ ∃ idx, i = .calT idx) →
    (fle s.cal.vin (calEntry s.cfg.params.calTable 0).v = false ∨
      fle (calEntry s.cfg.params.calTable 143).v s.cal.vin = false) →
    ∃ t, exec i s = .next t ∧ ended [] s t ∧
      t.status = (s.status &&& ~~~0x00000004#32) ||| 0x00010000#32 ∧ t.bus = s.bus

/-- A voltage of the table, but its last, gives exactly the temperature of its own entry and that entry's index, in
every admitted table, where the secant slope of the bracket does not overflow (rule R88). -/
def Obligations.CalibrationKnotsAreExact : Prop :=
  ∀ (cfg : AdmittedConfig) (k : Nat) (pick : NanPick), k ≤ 142 →
    isFinite (fdiv 0 (fsub 0 (calEntry cfg.params.calTable (k + 1)).t (calEntry cfg.params.calTable k).t)
      (fsub 0 (calEntry cfg.params.calTable (k + 1)).v (calEntry cfg.params.calTable k).v)) = true →
    calInRange cfg.params.calTable (calEntry cfg.params.calTable k).v = true ∧
    calBracket cfg.params.calTable (calEntry cfg.params.calTable k).v = k ∧
    calInterp pick cfg.params.calTable (calEntry cfg.params.calTable k).v = (calEntry cfg.params.calTable k).t

/-! ### ADC commands

A transaction returns as many bytes as it sent (rule R15). A reply that lists fewer counts as followed by 0x00 bytes, one
that lists more as cut: the model's choice (notes/assumptions/6.md), which shows only in recorded frames here. -/

/-- ADC_RESET sends 64 one-bits under one chip-select and changes no register and no status bit; ADC_READY stays (rules
R67, R68). -/
def Obligations.AdcResetSendsOnes : Prop :=
  ∀ (s : State) (rx : List Byte) (rest : List Reply), s.bus.adcIn = okReply rx :: rest →
    ∃ t, exec .adcReset s = .next t ∧ ended [] s t ∧ t.status = s.status ∧
      t.bus = adcBusAfter s.bus [adcFrameOk (List.replicate 8 0xFF#8) rx] rest

/-- ADC_INIT with a matching identity: the reset frame, the identity read and the eight configuration writes at the
addresses and in the order of rule R70, whose bytes `adcInitFrames` writes out; ADC_ID is the identity word, ADC_READY is
1 and nothing else changes (rules R69, R70). -/
def Obligations.AdcInitConfigures : Prop :=
  ∀ (s : State) (rx0 : List Byte) (b0 b1 b2 : Byte) (rxs : List (List Byte)) (rest : List Reply),
    rxs.length = 8 → b2.extractLsb' 4 4 = 0xD#4 →
    s.bus.adcIn = ((rx0 :: [b0, b1, b2] :: rxs).map okReply) ++ rest →
    ∃ t, exec .adcInit s = .next t ∧ Reg.read .adcId t = (b1 ++ b2).setWidth 32 ∧ ended [.adcId] s t ∧
      t.status = s.status ||| 0x00000002#32 ∧
      t.bus = adcBusAfter s.bus
        (List.zipWith adcFrameOk (adcInitFrames s.cfg.params) (rx0 :: [b0, b1, b2] :: rxs)) rest

/-- ADC_INIT with an identity whose bits 7:4 are not 0xD: no configuration write is sent, ADC_ID keeps the word read,
ADC_READY is 0 and ADC_ID_ERR is set (rule R69). -/
def Obligations.AdcInitRejectsIdentity : Prop :=
  ∀ (s : State) (rx0 : List Byte) (b0 b1 b2 : Byte) (rest : List Reply),
    b2.extractLsb' 4 4 ≠ 0xD#4 → s.bus.adcIn = okReply rx0 :: okReply [b0, b1, b2] :: rest →
    ∃ t, exec .adcInit s = .next t ∧ Reg.read .adcId t = (b1 ++ b2).setWidth 32 ∧ ended [.adcId] s t ∧
      t.status = (s.status &&& ~~~0x00000002#32) ||| 0x00002000#32 ∧
      t.bus = adcBusAfter s.bus
        [adcFrameOk (List.replicate 8 0xFF#8) rx0, adcFrameOk [0x47#8, 0x00#8, 0x00#8] [b0, b1, b2]] rest

/-- ADC_INIT whose transaction number `rxs.length` fails, 0 the reset frame, 1 the identity read, 2 to 9 the
configuration writes, as `adcInitFrames` writes them out: no later frame is sent, ADC_BUS_ERR is set, ADC_READY is 0, and
ADC_ID is written only where the identity read had ended (rules R69, R70, R75, R107). That the record of the failed frame
holds all its bytes is the model's choice (notes/assumptions/24.md). -/
def Obligations.AdcInitStopsAtBusFault : Prop :=
  ∀ (s : State) (rxs : List (List Byte)) (tx : List Byte) (rest : List Reply),
    (adcInitFrames s.cfg.params)[rxs.length]? = some tx →
    (∀ rx, rxs[1]? = some rx → adcIdOk ((readFrameValue 2 (receivedBytes .adc 3 rx)).setWidth 16) = true) →
    s.bus.adcIn = rxs.map okReply ++ faultReply :: rest →
    ∃ t, exec .adcInit s = .next t ∧ ended [.adcId] s t ∧
      (∀ rx, rxs[1]? = some rx →
        Reg.read .adcId t = ((readFrameValue 2 (receivedBytes .adc 3 rx)).setWidth 16).setWidth 32) ∧
      (rxs[1]? = none → Reg.read .adcId t = Reg.read .adcId s) ∧
      t.status = (s.status &&& ~~~0x00000002#32) ||| 0x00000800#32 ∧
      t.bus = adcBusAfter s.bus
        (List.zipWith adcFrameOk (adcInitFrames s.cfg.params) rxs ++ [⟨.adc, tx, .fault⟩]) rest

/-- ADC_READ of 1 to 4 bytes: one frame of the address with bit 6 set and zero filler; ADC_RDATA is the last `size` bytes
received, big-endian, zero-extended, and the first byte received is discarded (rules R64, R66, R71). -/
def Obligations.AdcReadGivesBigEndianValue : Prop :=
  ∀ (s : State) (a : BitVec 6) (size : BitVec 3) (r0 : Byte) (value : List Byte) (rest : List Reply),
    1 ≤ size.toNat → size.toNat ≤ 4 → value.length = size.toNat → s.adcReady = true →
    s.bus.adcIn = okReply (r0 :: value) :: rest →
    ∃ t, exec (.adcRead a size) s = .next t ∧ ended [.adcRdata] s t ∧ t.status = s.status ∧
      (∀ j : Fin 4, (Reg.read .adcRdata t).extractLsb' (8 * j.val) 8 = value.reverse.getD j.val 0x00#8) ∧
      t.bus = adcBusAfter s.bus
        [adcFrameOk ((0x40#8 ||| a.setWidth 8) :: List.replicate size.toNat 0x00#8) (r0 :: value)] rest

/-- ADC_WRITE of 1 to 3 bytes: one frame of the address and the low `size` bytes of ADC_WDATA, most significant first;
no register and no status bit changes (rules R64, R65, R72). -/
def Obligations.AdcWriteSendsPayload : Prop :=
  ∀ (s : State) (a : BitVec 6) (size : BitVec 3) (rx : List Byte) (rest : List Reply),
    1 ≤ size.toNat → size.toNat ≤ 3 → s.adcReady = true → s.bus.adcIn = okReply rx :: rest →
    ∃ (t : State) (payload : List Byte), exec (.adcWrite a size) s = .next t ∧ ended [] s t ∧ t.status = s.status ∧
      payload.length = size.toNat ∧
      (∀ j, j < size.toNat → payload.reverse.getD j 0x00#8 = s.adc.wdata.extractLsb' (8 * j) 8) ∧
      t.bus = adcBusAfter s.bus [adcFrameOk (a.setWidth 8 :: payload) rx] rest

/-- ADC_READ_DATA: one read frame of DATA; ADC_DATA is bits 31:8 of the value and ADC_TAG its low byte, written together
(rule R73). -/
def Obligations.AdcReadDataSplitsTheWord : Prop :=
  ∀ (s : State) (r0 b3 b2 b1 tag : Byte) (rest : List Reply), s.adcReady = true →
    s.bus.adcIn = okReply [r0, b3, b2, b1, tag] :: rest →
    ∃ t, exec .adcReadData s = .next t ∧ Reg.read .adcData t = (b3 ++ b2 ++ b1).setWidth 32 ∧
      Reg.read .adcTag t = tag.setWidth 32 ∧ ended [.adcData, .adcTag] s t ∧ t.status = s.status ∧
      t.bus = adcBusAfter s.bus
        [adcFrameOk [0x44#8, 0x00#8, 0x00#8, 0x00#8, 0x00#8] [r0, b3, b2, b1, tag]] rest

/-- Without ADC_READY, ADC_READ, ADC_WRITE and ADC_READ_DATA send no frame, set ADC_NOT_READY and change no register,
whatever the bus would answer (rules R71 to R73, R108). -/
def Obligations.AdcCommandsNeedReady : Prop :=
  ∀ (s : State) (i : Instr), s.adcReady = false →
    ((∃ a size, i = .adcRead a size) ∨ (∃ a size, i = .adcWrite a size) ∨ i = .adcReadData) →
    ∃ t, exec i s = .next t ∧ ended [] s t ∧ t.status = s.status ||| 0x00004000#32 ∧ t.bus = s.bus

/-- A failed transaction of ADC_RESET, ADC_READ, ADC_WRITE or ADC_READ_DATA ends the command with ADC_BUS_ERR; the frame
is recorded, its chip-select is back at 1, and no result register changes (rules R68, R71 to R73, R75). That its record
holds all its bytes is the model's choice (notes/assumptions/24.md). -/
def Obligations.AdcBusFaultEndsTheCommand : Prop :=
  ∀ (s : State) (i : Instr) (tx : List Byte) (rest : List Reply),
    i ≠ .adcInit → firstFrame i s = some (.adc, tx) → s.bus.adcIn = faultReply :: rest →
    ∃ t, exec i s = .next t ∧ ended [] s t ∧ t.status = s.status ||| 0x00000800#32 ∧
      t.bus = adcBusAfter s.bus [⟨.adc, tx, .fault⟩] rest

/-- A value written to an ADC register and read back at the same size, by a device that stores the payload and returns
it, is the value modulo 2^(8·size) (rule R74). -/
def Obligations.AdcWriteReadRoundTrip : Prop :=
  ∀ (s : State) (a : BitVec 6) (size : BitVec 3) (rx : List Byte) (r0 : Byte) (payload : List Byte) (rest : List Reply),
    1 ≤ size.toNat → size.toNat ≤ 3 → s.adcReady = true →
    writeFrameBytes a size.toNat s.adc.wdata = a.setWidth 8 :: payload →
    s.bus.adcIn = okReply rx :: okReply (r0 :: payload) :: rest →
    ∃ t u, exec (.adcWrite a size) s = .next t ∧ exec (.adcRead a size) t = .next u ∧
      (Reg.read .adcRdata u).toNat = s.adc.wdata.toNat % 2 ^ (8 * size.toNat)

/-! ### DAC commands -/

/-- DAC_SET with a current that converts, by rules R76 and R77 as `isDacCode` writes them out (the products in order, the
quotient K, a tie away from zero, the range 0 to 2^20 − 1): one frame of the code's 24-bit form on the chip-select of the
channel, the DAC_CODE of that channel follows, and nothing else changes (rules R77, R81, R82). -/
def Obligations.DacSetSendsTheCode : Prop :=
  ∀ (s : State) (d : NanPick) (c : ChanNo) (src : DacSource) (n : BitVec 20) (rx : List Byte) (rest : List Reply),
    isDacCode d s.cfg.params
      (match src with | .dacCur => Reg.read (.dacCur c) s | .out => Reg.read (.chan c .out) s) n →
    s.bus.dacIn = okReply rx :: rest →
    ∃ t, exec (.dacSet c src) s = .next t ∧ Reg.read (.dacCode c) t = n.setWidth 32 ∧ ended [.dacCode c] s t ∧
      t.status = s.status ∧
      t.bus = dacBusAfter s.bus
        [dacFrameOk c [(n.extractLsb' 16 4).setWidth 8, n.extractLsb' 8 8, n.extractLsb' 0 8]] rest
        (s.bus.csDacN.set c true)

/-- DAC_INIT where the zero current converts (`isDacCode` writes rule R77 out): its code is sent to the channels 0, 1, 2, 3
in that order and is every DAC_CODE afterwards; nothing else changes (rules R77, R83). -/
def Obligations.DacInitSendsZeroCurrent : Prop :=
  ∀ (s : State) (d : NanPick) (n : BitVec 20) (r0 r1 r2 r3 : List Byte) (rest : List Reply),
    isDacCode d s.cfg.params 0x00000000#32 n →
    s.bus.dacIn = [r0, r1, r2, r3].map okReply ++ rest →
    ∃ t, exec .dacInit s = .next t ∧ (∀ c : ChanNo, Reg.read (.dacCode c) t = n.setWidth 32) ∧
      ended [.dacCode 0, .dacCode 1, .dacCode 2, .dacCode 3] s t ∧ t.status = s.status ∧
      t.bus = dacBusAfter s.bus
        (([0, 1, 2, 3] : List ChanNo).map fun c =>
          dacFrameOk c [(n.extractLsb' 16 4).setWidth 8, n.extractLsb' 8 8, n.extractLsb' 0 8])
        rest (Vector.replicate 4 true)

/-- DAC_SET and DAC_INIT with a current that no code stands for (`isDacCode` writes rule R77 out) send no frame, set
DAC_BOUNDS and change no register, whatever the bus would answer (rules R77, R82, R83). -/
def Obligations.DacBoundsSendNothing : Prop :=
  ∀ (s : State) (d : NanPick) (i : Instr),
    ((∃ c src, i = .dacSet c src ∧ ∀ n, ¬ isDacCode d s.cfg.params
        (match src with | .dacCur => Reg.read (.dacCur c) s | .out => Reg.read (.chan c .out) s) n) ∨
      (i = .dacInit ∧ ∀ n, ¬ isDacCode d s.cfg.params 0x00000000#32 n)) →
    ∃ t, exec i s = .next t ∧ ended [] s t ∧ t.status = s.status ||| 0x00008000#32 ∧ t.bus = s.bus

/-- A failed frame ends DAC_SET and DAC_INIT with DAC_BUS_ERR: DAC_CODE of that channel keeps its value, its chip-select is
back at 1 and the ADC bus is untouched; in DAC_INIT the channels before it keep their new code, their chip-selects are at 1
and no later frame is sent (rules R82 to R84, R107). That the record of the failed frame holds all its bytes is the
model's choice (notes/assumptions/24.md). -/
def Obligations.DacBusFaultKeepsTheRest : Prop :=
  ∀ (s : State) (d : NanPick) (n : BitVec 20) (rest : List Reply),
    (∀ c src, isDacCode d s.cfg.params (dacCurrent c src s) n → s.bus.dacIn = faultReply :: rest →
      ∃ t, exec (.dacSet c src) s = .next t ∧ ended [] s t ∧ t.status = s.status ||| 0x00001000#32 ∧
        t.bus = dacBusAfter s.bus [⟨.dac c, dacFrameBytes n, .fault⟩] rest (s.bus.csDacN.set c true)) ∧
    (∀ (k : ChanNo) (rxs : List (List Byte)), isDacCode d s.cfg.params 0x00000000#32 n →
      rxs.length = k.val → s.bus.dacIn = rxs.map okReply ++ faultReply :: rest →
      ∃ t, exec .dacInit s = .next t ∧
        (∀ j : ChanNo, j < k → Reg.read (.dacCode j) t = n.setWidth 32) ∧
        ended (((List.finRange 4).take k.val).map .dacCode) s t ∧ t.status = s.status ||| 0x00001000#32 ∧
        t.bus = dacBusAfter s.bus
          (((List.finRange 4).take k.val).map (fun c => dacFrameOk c (dacFrameBytes n)) ++
            [⟨.dac k, dacFrameBytes n, .fault⟩])
          rest (Vector.ofFn fun j => if j ≤ k then true else s.bus.csDacN[j]))

/-- A larger current never gives a smaller code, and zero current gives the code of V_REF_TEC (rule R78). -/
def Obligations.DacCodesAreMonotone : Prop :=
  ∀ cfg : AdmittedConfig,
    (∀ (i1 i2 : Word) (n1 n2 : BitVec 20), isFinite i1 = true → isFinite i2 = true → fle i1 i2 = true →
      dacCodeFrom cfg.params i1 = some n1 → dacCodeFrom cfg.params i2 = some n2 → n1.toNat ≤ n2.toNat) ∧
    (∀ n : BitVec 20, dacCodeFrom cfg.params 0x00000000#32 = some n →
      (n.toNat : Int) = roundHalfAway (fmul 0 cfg.params.vRefTec (dacScale cfg.params)))

/-! ### Commit and hang -/

/-- A command does one of three things: it ends, the sequencer is IDLE, no transaction is left open, and of the registers
and the bits of STATUS only those that its rule writes (`commandWrites`, `commandBits`) may have changed; reset hits it and
every register takes its reset value; or a transaction never returns, and then nothing but the buses differs from before
the command (rules R47, R59, R106, R114, R122). -/
def Obligations.CommandsEndHangOrReset : Prop :=
  ∀ (i : Instr) (s t : State), s.rstN = true → exec i s = .next t →
    (ended (commandWrites i) s t ∧ t.rstN = true ∧ t.bus.inFlight = s.bus.inFlight ∧
      t.status &&& ~~~commandBits i = s.status &&& ~~~commandBits i) ∨
    (t.rstN = false ∧ t.seq = .idle ∧ t.bus.inFlight = none ∧ ∀ r : Reg, r.read t = resetTable s.cfg.params r) ∨
    (t = { s with bus := t.bus } ∧ t.bus.inFlight.isSome = true)

/-- The first transaction of a command that never returns, its number `rxs.length` among the command's frames and those
before it ended well (a bus with no reply left counts as such, the model's choice of notes/assumptions/6.md): the block
stays BUSY with that frame in flight and its chip-select at 0, the frames before it are sent and their chip-selects back at
1, no later frame is sent, and every register, status bit and other part of the state is as before the command, whatever
its earlier transactions would have written (rules R9, R31, R114). That the frame in flight is recorded with all its bytes
is the model's choice (notes/assumptions/24.md). -/
def Obligations.FirstStallHangsTheCommand : Prop :=
  ∀ (s : State) (i : Instr) (rxs : List (List Byte)) (f : BusLine × List Byte) (rest : List Reply),
    (serialFrames i s)[rxs.length]? = some f → identityPassed i rxs →
    s.bus.replies f.1 = rxs.map okReply ++ rest → (rest.headD ⟨.stall, false⟩).result = .stall →
    ∃ t, exec i s = .next t ∧ t = { s with bus := t.bus } ∧ t.seq = s.seq ∧ framed [] s t ∧ t.status = s.status ∧
      t.bus = { s.bus.withFrames f.1 (framesUpTo i s rxs f .stall) rest.tail with
        csAdcN := if f.1 = .adc then false else s.bus.csAdcN
        csDacN := Vector.ofFn fun c =>
          if f.1 = .dac c then false
          else if ((serialFrames i s).take rxs.length).any (fun g => g.1 == .dac c) then true
          else s.bus.csDacN[c]
        inFlight := some f }

/-- Only reset leaves a hang: on any other input the block stays BUSY, its buses stay as they are and every register but
STATUS reads as before (rule R114). -/
def Obligations.OnlyResetLeavesAHang : Prop :=
  ∀ s : State, s.rstN = true → s.hung = true → (∀ rest, s.inputs ≠ .rstPin false :: rest) →
    ∃ t, step s = .next t ∧ t.hung = true ∧ t.rstN = true ∧ t.bus = s.bus ∧
      (Reg.read .status t).getLsbD 0 = true ∧ ∀ r : Reg, r ≠ .status → r.read t = r.read s

/-! ### Arithmetic -/

/-- `maxNum` and `minNum` give the greater and the lesser of two numbers, −0.0 counting as less than +0.0, in both orders
of their operands; the number where one operand is a NaN; and a NaN where both are. `clampf` with bounds that are no NaN
gives a datum within them, and `hi` where they are out of order; where they are in order it gives `lo` for a NaN and for a
number up to `lo`, `hi` for a number from `hi` on, and any number between them as it is; so −0.0 within [+0.0, hi] is +0.0
(rules R13, R102). `datumOrder` writes the order out. -/
def Obligations.ClampfGivesTheClampedValue : Prop :=
  (∀ (d : NanBits) (a b : Word), isNaN a = false → isNaN b = false → datumOrder a ≤ datumOrder b →
    maxNum d a b = b ∧ maxNum d b a = b ∧ minNum d a b = a ∧ minNum d b a = a) ∧
  (∀ (d : NanBits) (a b : Word), isNaN a = true →
    (isNaN b = false → maxNum d a b = b ∧ maxNum d b a = b ∧ minNum d a b = b ∧ minNum d b a = b) ∧
    (isNaN b = true → isNaN (maxNum d a b) = true ∧ isNaN (minNum d a b) = true)) ∧
  (∀ (d e : NanBits) (v lo hi : Word), isNaN lo = false → isNaN hi = false →
    isNaN (clampf d e v lo hi) = false ∧ fle (clampf d e v lo hi) hi = true ∧
    (fle lo hi = true → fle lo (clampf d e v lo hi) = true) ∧
    (datumOrder hi < datumOrder lo → clampf d e v lo hi = hi) ∧
    (datumOrder lo ≤ datumOrder hi →
      (isNaN v = true → clampf d e v lo hi = lo) ∧
      (isNaN v = false →
        (datumOrder v ≤ datumOrder lo → clampf d e v lo hi = lo) ∧
        (datumOrder hi ≤ datumOrder v → clampf d e v lo hi = hi) ∧
        (datumOrder lo ≤ datumOrder v → datumOrder v ≤ datumOrder hi → clampf d e v lo hi = v)))) ∧
  (∀ a b : Word, flt a b = true → datumOrder a < datumOrder b) ∧
  (∀ (d e : NanBits) (hi : Word), isNaN hi = false → datumOrder 0x00000000#32 ≤ datumOrder hi →
    clampf d e 0x80000000#32 0x00000000#32 hi = 0x00000000#32)

/-- A finite sum is the datum nearest to the exact sum, and where two data are equally near it is the one whose
significand is even (rule R13). -/
def Obligations.SumsRoundToNearestEven : Prop :=
  ∀ (d : NanBits) (a b x : Word), isFinite a = true → isFinite b = true → isFinite (fadd d a b) = true →
    isFinite x = true →
    (units (fadd d a b) - (units a + units b)).natAbs ≤ (units x - (units a + units b)).natAbs ∧
    ((units (fadd d a b) - (units a + units b)).natAbs = (units x - (units a + units b)).natAbs →
      units x ≠ units (fadd d a b) → (fadd d a b).getLsbD 0 = false)

/-- A finite product, and a finite quotient by a datum that is not zero, is the datum nearest to the exact one, and where
two data are equally near it is the one whose significand is even (rule R13). A datum counts units of 2^-149, so a product
of units counts 2^-298, and a quotient of units counts 1: both sides of the second comparison are times the divisor. -/
def Obligations.ProductsAndQuotientsRoundToNearestEven : Prop :=
  (∀ (d : NanBits) (a b x : Word), isFinite a = true → isFinite b = true → isFinite (fmul d a b) = true →
    isFinite x = true →
    (units (fmul d a b) * 2 ^ 149 - units a * units b).natAbs ≤ (units x * 2 ^ 149 - units a * units b).natAbs ∧
    ((units (fmul d a b) * 2 ^ 149 - units a * units b).natAbs = (units x * 2 ^ 149 - units a * units b).natAbs →
      units x ≠ units (fmul d a b) → (fmul d a b).getLsbD 0 = false)) ∧
  (∀ (d : NanBits) (a b x : Word), isFinite a = true → isFinite b = true → isZero b = false →
    isFinite (fdiv d a b) = true → isFinite x = true →
    (units (fdiv d a b) * units b - units a * 2 ^ 149).natAbs ≤ (units x * units b - units a * 2 ^ 149).natAbs ∧
    ((units (fdiv d a b) * units b - units a * 2 ^ 149).natAbs = (units x * units b - units a * 2 ^ 149).natAbs →
      units x ≠ units (fdiv d a b) → (fdiv d a b).getLsbD 0 = false))

/-! ### Invariants of every step -/

/-- The machine right after reset meets every invariant below. -/
def Obligations.ResetMeetsTheInvariants : Prop :=
  State.reset.safe ∧ State.reset.bus.linesOk = true ∧ State.reset.phaseOk = true ∧ State.reset.statusOk = true

/-- The safety invariant: LO, HI, OUT, Y1 and Y2 of every channel stay within ±C_SAFE, whatever the host writes and
whatever the devices answer (rule R29). -/
def Obligations.StepKeepsOutputsSafe : Prop :=
  ∀ s t : State, s.safe → step s = .next t → t.safe

/-- The chip-select lines stay in agreement with the transaction in flight, and CMD with the running command (rules R23,
R24, R31). -/
def Obligations.StepKeepsLinesAndPhase : Prop :=
  ∀ s t : State, s.bus.linesOk = true → s.phaseOk = true → step s = .next t →
    t.bus.linesOk = true ∧ t.phaseOk = true

/-- Reserved bits of STATUS are never set, and no step changes the configuration, MAXCUR, CSAFE or the calibration table
(rules R19, R25, R30). -/
def Obligations.StepKeepsReservedBitsAndConfiguration : Prop :=
  ∀ s t : State, step s = .next t →
    t.cfg = s.cfg ∧ (∀ r : Reg, (r = .maxCur ∨ r = .cSafe ∨ ∃ k col, r = .cal k col) → r.read t = r.read s) ∧
    (s.statusOk = true → t.statusOk = true)

/-- A sticky bit stays set until the host writes 1 to it while IDLE or reset comes (rules R25, R106). -/
def Obligations.StickyBitsStayUntilCleared : Prop :=
  ∀ (s t : State) (e : Cause), step s = .next t → s.sticky e = true → t.sticky e = false →
    s.rstN = false ∨ t.rstN = false ∨
    ∃ v rest, s.inputs = .hostWrite 0x0004#16 v :: rest ∧ v.getLsbD e.bit = true ∧ s.seq = .idle

/-- A read-only register of a channel changes only by reset or by a running UPDATE, UPDATE_ALL or FINALIZE that works
on the channel (rule R27). -/
def Obligations.LiveRegistersChangeOnlyByCommand : Prop :=
  ∀ (s t : State) (c : ChanNo) (r : ChanReg), step s = .next t → r.isLive = true →
    Reg.read (.chan c r) t ≠ Reg.read (.chan c r) s →
    s.rstN = false ∨ t.rstN = false ∨ ∃ i, s.seq = .busy i ∧ commandWorksOn i c = true

/-- No command writes CMD, ADC_WDATA, CAL_VIN, DAC_CUR, STATE or a staging register: those change only by host writes
and by reset (rules R27, R39). -/
def Obligations.CommandsLeaveHostRegisters : Prop :=
  ∀ (i : Instr) (s t : State) (r : Reg), exec i s = .next t → t.rstN = true → hostOwned r = true →
    r.read t = r.read s
end

