-- ==== Sys2Proof/Laws/Binary32.lean ====
section
/-! SUPPORT. Facts of binary32 data: the fields of a negated datum and of a computed NaN, the order, and what `maxNum`
and `minNum` can give. -/

namespace Sys2Proof.Machine

/-! ### Negation -/

theorem signBit_fneg (a : Word) : signBit (fneg a) = !signBit a := by simp [signBit, fneg]
theorem expField_fneg (a : Word) : expField (fneg a) = expField a := by
  unfold expField fneg; congr 1; ext i hi; interval_cases i <;> simp
theorem fracField_fneg (a : Word) : fracField (fneg a) = fracField a := by
  unfold fracField fneg; congr 1; ext i hi; interval_cases i <;> simp
@[simp] theorem isNaN_fneg (a : Word) : isNaN (fneg a) = isNaN a := by
  simp only [isNaN, expField_fneg, fracField_fneg]
@[simp] theorem isFinite_fneg (a : Word) : isFinite (fneg a) = isFinite a := by
  simp only [isFinite, expField_fneg]
theorem magUnits_fneg (a : Word) : magUnits (fneg a) = magUnits a := by
  simp only [magUnits, expField_fneg, fracField_fneg]
@[simp] theorem units_fneg (a : Word) : units (fneg a) = -units a := by
  simp only [units, signBit_fneg, magUnits_fneg]; cases signBit a <;> simp

/-- A finite datum is no NaN. -/
theorem isNaN_of_isFinite {a : Word} (h : isFinite a = true) : isNaN a = false := by
  simp only [isFinite, bne_iff_ne] at h
  simp [isNaN, h]

/-! ### Computed NaNs -/

/-- A word laid out as sign, exponent 255 and fraction has those fields. -/
theorem nanLayout_fields (s : BitVec 1) (f : BitVec 23) :
    expField (s ++ 0xFF#8 ++ f) = 255 ∧ fracField (s ++ 0xFF#8 ++ f) = f.toNat := by
  have he : (s ++ 0xFF#8 ++ f).extractLsb' 23 8 = 0xFF#8 := by
    ext i hi
    rw [BitVec.getElem_extractLsb', BitVec.getLsbD_append, BitVec.getLsbD_append,
      if_neg (by omega), if_pos (by omega)]
    rw [Nat.add_sub_cancel_left, BitVec.getLsbD_eq_getElem hi]
  have hf : (s ++ 0xFF#8 ++ f).extractLsb' 0 23 = f := by
    ext i hi
    rw [BitVec.getElem_extractLsb', BitVec.getLsbD_append, if_pos (by omega), Nat.zero_add,
      BitVec.getLsbD_eq_getElem hi]
  exact ⟨congrArg BitVec.toNat he, congrArg BitVec.toNat hf⟩

/-- Whatever is drawn, the result is a NaN. -/
theorem isNaN_nanWord (d : NanBits) : isNaN (nanWord d) = true := by
  obtain ⟨he, hf⟩ := nanLayout_fields (BitVec.ofBool (d.getLsbD 23))
    (if d.extractLsb' 0 23 = 0#23 then 0x400000#23 else d.extractLsb' 0 23)
  have hz : (if d.extractLsb' 0 23 = 0#23 then 0x400000#23 else d.extractLsb' 0 23).toNat ≠ 0 := by
    split
    · decide
    · next h => intro h0; exact h (BitVec.eq_of_toNat_eq h0)
  have hff : fracField (nanWord d) ≠ 0 := fun h => hz (hf.symm.trans h)
  have hee : expField (nanWord d) = 255 := he
  simp [isNaN, hee, hff]

/-! ### Order -/

theorem fle_iff {a b : Word} : fle a b = true ↔ isNaN a = false ∧ isNaN b = false ∧ units a ≤ units b := by
  simp [fle, and_assoc]
theorem flt_iff {a b : Word} : flt a b = true ↔ isNaN a = false ∧ isNaN b = false ∧ units a < units b := by
  simp [flt, and_assoc]
theorem fle_refl {a : Word} (h : isNaN a = false) : fle a a = true := fle_iff.mpr ⟨h, h, le_refl _⟩
theorem fle_trans {a b c : Word} (h : fle a b = true) (k : fle b c = true) : fle a c = true := by
  rw [fle_iff] at *; exact ⟨h.1, k.2.1, h.2.2.trans k.2.2⟩
theorem fle_of_flt {a b : Word} (h : flt a b = true) : fle a b = true := by
  rw [flt_iff] at h; exact fle_iff.mpr ⟨h.1, h.2.1, h.2.2.le⟩

/-! ### `maxNum` and `minNum` -/

/-- Everything `maxNum` can give where its second operand is no NaN: one of the two, no NaN, at least each of them
that is a number. -/
theorem maxNum_spec (d : NanBits) (a : Word) {b : Word} (hb : isNaN b = false) :
    isNaN (maxNum d a b) = false ∧ units b ≤ units (maxNum d a b) ∧
      (isNaN a = false → units a ≤ units (maxNum d a b)) ∧
      ((isNaN a = false ∧ maxNum d a b = a) ∨ maxNum d a b = b) := by
  unfold maxNum
  cases ha : isNaN a <;> simp only [hb, if_true, Bool.false_eq_true, if_false]
  · split
    · exact ⟨hb, le_refl _, fun _ => by omega, .inr rfl⟩
    · split
      · exact ⟨ha, by omega, fun _ => le_refl _, .inl ⟨trivial, rfl⟩⟩
      · split
        · exact ⟨hb, le_refl _, fun _ => by omega, .inr rfl⟩
        · exact ⟨ha, by omega, fun _ => le_refl _, .inl ⟨trivial, rfl⟩⟩
  · simp

/-- Everything `minNum` can give where its second operand is no NaN. -/
theorem minNum_spec (d : NanBits) (a : Word) {b : Word} (hb : isNaN b = false) :
    isNaN (minNum d a b) = false ∧ units (minNum d a b) ≤ units b ∧
      (isNaN a = false → units (minNum d a b) ≤ units a) ∧
      ((isNaN a = false ∧ minNum d a b = a) ∨ minNum d a b = b) := by
  unfold minNum
  cases ha : isNaN a <;> simp only [hb, if_true, Bool.false_eq_true, if_false]
  · split
    · exact ⟨ha, by omega, fun _ => le_refl _, .inl ⟨trivial, rfl⟩⟩
    · split
      · exact ⟨hb, le_refl _, fun _ => by omega, .inr rfl⟩
      · split
        · exact ⟨ha, by omega, fun _ => le_refl _, .inl ⟨trivial, rfl⟩⟩
        · exact ⟨hb, le_refl _, fun _ => by omega, .inr rfl⟩
  · simp

/-- The draw of `maxNum` shows only where both operands are NaNs. -/
theorem maxNum_draw (d e : NanBits) (a : Word) {b : Word} (hb : isNaN b = false) : maxNum d a b = maxNum e a b := by
  simp only [maxNum, hb, Bool.false_eq_true, if_false]

/-- The draw of `minNum` shows only where both operands are NaNs. -/
theorem minNum_draw (d e : NanBits) (a : Word) {b : Word} (hb : isNaN b = false) : minNum d a b = minNum e a b := by
  simp only [minNum, hb, Bool.false_eq_true, if_false]

/-- A sum of two finite data has no draw. -/
theorem fadd_finite (d : NanBits) {a b : Word} (ha : isFinite a = true) (hb : isFinite b = true) :
    fadd d a b = addFinite a b := by
  have hai : isInf a = false := by simp only [isFinite, bne_iff_ne] at ha; simp [isInf, ha]
  have hbi : isInf b = false := by simp only [isFinite, bne_iff_ne] at hb; simp [isInf, hb]
  simp [fadd, isNaN_of_isFinite ha, isNaN_of_isFinite hb, hai, hbi]

/-- A product of two finite data has no draw. -/
theorem fmul_finite (d : NanBits) {a b : Word} (ha : isFinite a = true) (hb : isFinite b = true) :
    fmul d a b = packSign (signBit a != signBit b) (roundMag (magUnits a * magUnits b) (2 ^ 149)) := by
  have hai : isInf a = false := by simp only [isFinite, bne_iff_ne] at ha; simp [isInf, ha]
  have hbi : isInf b = false := by simp only [isFinite, bne_iff_ne] at hb; simp [isInf, hb]
  simp only [fmul, isNaN_of_isFinite ha, isNaN_of_isFinite hb, hai, hbi, Bool.or_self, Bool.false_eq_true, if_false]

/-! ### Draws -/

/-- Two data that differ at most in the bits of a NaN: what two draws of one operation can differ in. -/
def sameDatum (a b : Word) : Prop := a = b ∨ (isNaN a = true ∧ isNaN b = true)

theorem sameDatum_refl (a : Word) : sameDatum a a := .inl rfl

theorem sameDatum_nanWord (d e : NanBits) : sameDatum (nanWord d) (nanWord e) :=
  .inr ⟨isNaN_nanWord d, isNaN_nanWord e⟩

theorem sameDatum_ite {c : Prop} [Decidable c] {a a' b b' : Word} (ha : sameDatum a a') (hb : sameDatum b b') :
    sameDatum (if c then a else b) (if c then a' else b') := by
  by_cases hc : c
  · rwa [if_pos hc, if_pos hc]
  · rwa [if_neg hc, if_neg hc]

/-- A sum, whatever the draws, differs at most in the bits of a NaN. -/
theorem fadd_draw (d e : NanBits) {a a' b b' : Word} (ha : sameDatum a a') (hb : sameDatum b b') :
    sameDatum (fadd d a b) (fadd e a' b') := by
  have hnan : ∀ {x y : Word} (f : NanBits), (isNaN x || isNaN y) = true → isNaN (fadd f x y) = true := by
    intro x y f h
    rw [fadd, if_pos h]; exact isNaN_nanWord f
  rcases ha with rfl | ⟨h, h'⟩
  · rcases hb with rfl | ⟨h, h'⟩
    · have hr := @sameDatum_refl
      exact sameDatum_ite (sameDatum_nanWord d e) (sameDatum_ite (sameDatum_ite (sameDatum_nanWord d e) (hr a))
        (sameDatum_ite (hr b) (hr _)))
    · exact .inr ⟨hnan d (by simp [h]), hnan e (by simp [h'])⟩
  · exact .inr ⟨hnan d (by simp [h]), hnan e (by simp [h'])⟩

/-- A product, whatever the draws, differs at most in the bits of a NaN. -/
theorem fmul_draw (d e : NanBits) {a a' b b' : Word} (ha : sameDatum a a') (hb : sameDatum b b') :
    sameDatum (fmul d a b) (fmul e a' b') := by
  have hnan : ∀ {x y : Word} (f : NanBits), (isNaN x || isNaN y) = true → isNaN (fmul f x y) = true := by
    intro x y f h
    rw [fmul, if_pos h]; exact isNaN_nanWord f
  rcases ha with rfl | ⟨h, h'⟩
  · rcases hb with rfl | ⟨h, h'⟩
    · have hr := @sameDatum_refl
      exact sameDatum_ite (sameDatum_nanWord d e) (sameDatum_ite (sameDatum_ite (sameDatum_nanWord d e) (hr _)) (hr _))
    · exact .inr ⟨hnan d (by simp [h]), hnan e (by simp [h'])⟩
  · exact .inr ⟨hnan d (by simp [h]), hnan e (by simp [h'])⟩

/-- A quotient, whatever the draw, differs at most in the bits of a NaN. -/
theorem fdiv_draw (d e : NanBits) (a b : Word) : sameDatum (fdiv d a b) (fdiv e a b) := by
  have hr := @sameDatum_refl
  exact sameDatum_ite (sameDatum_nanWord d e) (sameDatum_ite (sameDatum_ite (sameDatum_nanWord d e) (hr _))
    (sameDatum_ite (hr _) (sameDatum_ite (sameDatum_ite (sameDatum_nanWord d e) (hr _)) (hr _))))

/-- A finite datum has no other that differs from it in the bits of a NaN. -/
theorem sameDatum_finite {a b : Word} (h : sameDatum a b) (ha : isFinite a = true) : a = b :=
  h.resolve_right fun hn => by rw [isNaN_of_isFinite ha] at hn; exact Bool.noConfusion hn.1

theorem isFinite_sameDatum {a b : Word} (h : sameDatum a b) : isFinite a = isFinite b := by
  rcases h with rfl | ⟨ha, hb⟩
  · rfl
  · cases hfa : isFinite a
    · cases hfb : isFinite b
      · rfl
      · rw [isNaN_of_isFinite hfb] at hb; exact Bool.noConfusion hb
    · rw [isNaN_of_isFinite hfa] at ha; exact Bool.noConfusion ha

end Sys2Proof.Machine
end

