-- ==== Sys2Proof/Laws/State.lean ====
section
/-! SUPPORT. What each update of the state does to each field of it: nothing, but to its own. -/

namespace Sys2Proof.Machine

/-! ### setInputs -/

@[simp] theorem State.setInputs_cfg (s : State) (l : List Input) : (s.setInputs l).cfg = s.cfg := rfl
@[simp] theorem State.setInputs_rstN (s : State) (l : List Input) : (s.setInputs l).rstN = s.rstN := rfl
@[simp] theorem State.setInputs_seq (s : State) (l : List Input) : (s.setInputs l).seq = s.seq := rfl
@[simp] theorem State.setInputs_cmd (s : State) (l : List Input) : (s.setInputs l).cmd = s.cmd := rfl
@[simp] theorem State.setInputs_status (s : State) (l : List Input) : (s.setInputs l).status = s.status := rfl
@[simp] theorem State.setInputs_adc (s : State) (l : List Input) : (s.setInputs l).adc = s.adc := rfl
@[simp] theorem State.setInputs_cal (s : State) (l : List Input) : (s.setInputs l).cal = s.cal := rfl
@[simp] theorem State.setInputs_dacCur (s : State) (l : List Input) : (s.setInputs l).dacCur = s.dacCur := rfl
@[simp] theorem State.setInputs_dacCode (s : State) (l : List Input) : (s.setInputs l).dacCode = s.dacCode := rfl
@[simp] theorem State.setInputs_temp (s : State) (l : List Input) : (s.setInputs l).temp = s.temp := rfl
@[simp] theorem State.setInputs_ch (s : State) (l : List Input) : (s.setInputs l).ch = s.ch := rfl
@[simp] theorem State.setInputs_bus (s : State) (l : List Input) : (s.setInputs l).bus = s.bus := rfl
@[simp] theorem State.setInputs_inputs (s : State) (l : List Input) : (s.setInputs l).inputs = l := rfl
@[simp] theorem State.setInputs_hRdata (s : State) (l : List Input) : (s.setInputs l).hRdata = s.hRdata := rfl
@[simp] theorem State.setInputs_draws (s : State) (l : List Input) : (s.setInputs l).draws = s.draws := rfl

/-! ### setHRdata -/

@[simp] theorem State.setHRdata_cfg (s : State) (v : Word) : (s.setHRdata v).cfg = s.cfg := rfl
@[simp] theorem State.setHRdata_rstN (s : State) (v : Word) : (s.setHRdata v).rstN = s.rstN := rfl
@[simp] theorem State.setHRdata_seq (s : State) (v : Word) : (s.setHRdata v).seq = s.seq := rfl
@[simp] theorem State.setHRdata_cmd (s : State) (v : Word) : (s.setHRdata v).cmd = s.cmd := rfl
@[simp] theorem State.setHRdata_status (s : State) (v : Word) : (s.setHRdata v).status = s.status := rfl
@[simp] theorem State.setHRdata_adc (s : State) (v : Word) : (s.setHRdata v).adc = s.adc := rfl
@[simp] theorem State.setHRdata_cal (s : State) (v : Word) : (s.setHRdata v).cal = s.cal := rfl
@[simp] theorem State.setHRdata_dacCur (s : State) (v : Word) : (s.setHRdata v).dacCur = s.dacCur := rfl
@[simp] theorem State.setHRdata_dacCode (s : State) (v : Word) : (s.setHRdata v).dacCode = s.dacCode := rfl
@[simp] theorem State.setHRdata_temp (s : State) (v : Word) : (s.setHRdata v).temp = s.temp := rfl
@[simp] theorem State.setHRdata_ch (s : State) (v : Word) : (s.setHRdata v).ch = s.ch := rfl
@[simp] theorem State.setHRdata_bus (s : State) (v : Word) : (s.setHRdata v).bus = s.bus := rfl
@[simp] theorem State.setHRdata_inputs (s : State) (v : Word) : (s.setHRdata v).inputs = s.inputs := rfl
@[simp] theorem State.setHRdata_hRdata (s : State) (v : Word) : (s.setHRdata v).hRdata = v := rfl
@[simp] theorem State.setHRdata_draws (s : State) (v : Word) : (s.setHRdata v).draws = s.draws := rfl

/-! ### setSeq -/

@[simp] theorem State.setSeq_cfg (s : State) (q : SeqState) : (s.setSeq q).cfg = s.cfg := rfl
@[simp] theorem State.setSeq_rstN (s : State) (q : SeqState) : (s.setSeq q).rstN = s.rstN := rfl
@[simp] theorem State.setSeq_seq (s : State) (q : SeqState) : (s.setSeq q).seq = q := rfl
@[simp] theorem State.setSeq_cmd (s : State) (q : SeqState) : (s.setSeq q).cmd = s.cmd := rfl
@[simp] theorem State.setSeq_status (s : State) (q : SeqState) : (s.setSeq q).status = s.status := rfl
@[simp] theorem State.setSeq_adc (s : State) (q : SeqState) : (s.setSeq q).adc = s.adc := rfl
@[simp] theorem State.setSeq_cal (s : State) (q : SeqState) : (s.setSeq q).cal = s.cal := rfl
@[simp] theorem State.setSeq_dacCur (s : State) (q : SeqState) : (s.setSeq q).dacCur = s.dacCur := rfl
@[simp] theorem State.setSeq_dacCode (s : State) (q : SeqState) : (s.setSeq q).dacCode = s.dacCode := rfl
@[simp] theorem State.setSeq_temp (s : State) (q : SeqState) : (s.setSeq q).temp = s.temp := rfl
@[simp] theorem State.setSeq_ch (s : State) (q : SeqState) : (s.setSeq q).ch = s.ch := rfl
@[simp] theorem State.setSeq_bus (s : State) (q : SeqState) : (s.setSeq q).bus = s.bus := rfl
@[simp] theorem State.setSeq_inputs (s : State) (q : SeqState) : (s.setSeq q).inputs = s.inputs := rfl
@[simp] theorem State.setSeq_hRdata (s : State) (q : SeqState) : (s.setSeq q).hRdata = s.hRdata := rfl
@[simp] theorem State.setSeq_draws (s : State) (q : SeqState) : (s.setSeq q).draws = s.draws := rfl

/-! ### setCmd -/

@[simp] theorem State.setCmd_cfg (s : State) (w : Word) : (s.setCmd w).cfg = s.cfg := rfl
@[simp] theorem State.setCmd_rstN (s : State) (w : Word) : (s.setCmd w).rstN = s.rstN := rfl
@[simp] theorem State.setCmd_seq (s : State) (w : Word) : (s.setCmd w).seq = s.seq := rfl
@[simp] theorem State.setCmd_cmd (s : State) (w : Word) : (s.setCmd w).cmd = w := rfl
@[simp] theorem State.setCmd_status (s : State) (w : Word) : (s.setCmd w).status = s.status := rfl
@[simp] theorem State.setCmd_adc (s : State) (w : Word) : (s.setCmd w).adc = s.adc := rfl
@[simp] theorem State.setCmd_cal (s : State) (w : Word) : (s.setCmd w).cal = s.cal := rfl
@[simp] theorem State.setCmd_dacCur (s : State) (w : Word) : (s.setCmd w).dacCur = s.dacCur := rfl
@[simp] theorem State.setCmd_dacCode (s : State) (w : Word) : (s.setCmd w).dacCode = s.dacCode := rfl
@[simp] theorem State.setCmd_temp (s : State) (w : Word) : (s.setCmd w).temp = s.temp := rfl
@[simp] theorem State.setCmd_ch (s : State) (w : Word) : (s.setCmd w).ch = s.ch := rfl
@[simp] theorem State.setCmd_bus (s : State) (w : Word) : (s.setCmd w).bus = s.bus := rfl
@[simp] theorem State.setCmd_inputs (s : State) (w : Word) : (s.setCmd w).inputs = s.inputs := rfl
@[simp] theorem State.setCmd_hRdata (s : State) (w : Word) : (s.setCmd w).hRdata = s.hRdata := rfl
@[simp] theorem State.setCmd_draws (s : State) (w : Word) : (s.setCmd w).draws = s.draws := rfl

/-! ### setAdc -/

@[simp] theorem State.setAdc_cfg (s : State) (r : AdcRegs) : (s.setAdc r).cfg = s.cfg := rfl
@[simp] theorem State.setAdc_rstN (s : State) (r : AdcRegs) : (s.setAdc r).rstN = s.rstN := rfl
@[simp] theorem State.setAdc_seq (s : State) (r : AdcRegs) : (s.setAdc r).seq = s.seq := rfl
@[simp] theorem State.setAdc_cmd (s : State) (r : AdcRegs) : (s.setAdc r).cmd = s.cmd := rfl
@[simp] theorem State.setAdc_status (s : State) (r : AdcRegs) : (s.setAdc r).status = s.status := rfl
@[simp] theorem State.setAdc_adc (s : State) (r : AdcRegs) : (s.setAdc r).adc = r := rfl
@[simp] theorem State.setAdc_cal (s : State) (r : AdcRegs) : (s.setAdc r).cal = s.cal := rfl
@[simp] theorem State.setAdc_dacCur (s : State) (r : AdcRegs) : (s.setAdc r).dacCur = s.dacCur := rfl
@[simp] theorem State.setAdc_dacCode (s : State) (r : AdcRegs) : (s.setAdc r).dacCode = s.dacCode := rfl
@[simp] theorem State.setAdc_temp (s : State) (r : AdcRegs) : (s.setAdc r).temp = s.temp := rfl
@[simp] theorem State.setAdc_ch (s : State) (r : AdcRegs) : (s.setAdc r).ch = s.ch := rfl
@[simp] theorem State.setAdc_bus (s : State) (r : AdcRegs) : (s.setAdc r).bus = s.bus := rfl
@[simp] theorem State.setAdc_inputs (s : State) (r : AdcRegs) : (s.setAdc r).inputs = s.inputs := rfl
@[simp] theorem State.setAdc_hRdata (s : State) (r : AdcRegs) : (s.setAdc r).hRdata = s.hRdata := rfl
@[simp] theorem State.setAdc_draws (s : State) (r : AdcRegs) : (s.setAdc r).draws = s.draws := rfl

/-! ### setCal -/

@[simp] theorem State.setCal_cfg (s : State) (r : CalRegs) : (s.setCal r).cfg = s.cfg := rfl
@[simp] theorem State.setCal_rstN (s : State) (r : CalRegs) : (s.setCal r).rstN = s.rstN := rfl
@[simp] theorem State.setCal_seq (s : State) (r : CalRegs) : (s.setCal r).seq = s.seq := rfl
@[simp] theorem State.setCal_cmd (s : State) (r : CalRegs) : (s.setCal r).cmd = s.cmd := rfl
@[simp] theorem State.setCal_status (s : State) (r : CalRegs) : (s.setCal r).status = s.status := rfl
@[simp] theorem State.setCal_adc (s : State) (r : CalRegs) : (s.setCal r).adc = s.adc := rfl
@[simp] theorem State.setCal_cal (s : State) (r : CalRegs) : (s.setCal r).cal = r := rfl
@[simp] theorem State.setCal_dacCur (s : State) (r : CalRegs) : (s.setCal r).dacCur = s.dacCur := rfl
@[simp] theorem State.setCal_dacCode (s : State) (r : CalRegs) : (s.setCal r).dacCode = s.dacCode := rfl
@[simp] theorem State.setCal_temp (s : State) (r : CalRegs) : (s.setCal r).temp = s.temp := rfl
@[simp] theorem State.setCal_ch (s : State) (r : CalRegs) : (s.setCal r).ch = s.ch := rfl
@[simp] theorem State.setCal_bus (s : State) (r : CalRegs) : (s.setCal r).bus = s.bus := rfl
@[simp] theorem State.setCal_inputs (s : State) (r : CalRegs) : (s.setCal r).inputs = s.inputs := rfl
@[simp] theorem State.setCal_hRdata (s : State) (r : CalRegs) : (s.setCal r).hRdata = s.hRdata := rfl
@[simp] theorem State.setCal_draws (s : State) (r : CalRegs) : (s.setCal r).draws = s.draws := rfl

/-! ### setDacCur -/

@[simp] theorem State.setDacCur_cfg (s : State) (c : ChanNo) (v : Word) : (s.setDacCur c v).cfg = s.cfg := rfl
@[simp] theorem State.setDacCur_rstN (s : State) (c : ChanNo) (v : Word) : (s.setDacCur c v).rstN = s.rstN := rfl
@[simp] theorem State.setDacCur_seq (s : State) (c : ChanNo) (v : Word) : (s.setDacCur c v).seq = s.seq := rfl
@[simp] theorem State.setDacCur_cmd (s : State) (c : ChanNo) (v : Word) : (s.setDacCur c v).cmd = s.cmd := rfl
@[simp] theorem State.setDacCur_status (s : State) (c : ChanNo) (v : Word) : (s.setDacCur c v).status = s.status := rfl
@[simp] theorem State.setDacCur_adc (s : State) (c : ChanNo) (v : Word) : (s.setDacCur c v).adc = s.adc := rfl
@[simp] theorem State.setDacCur_cal (s : State) (c : ChanNo) (v : Word) : (s.setDacCur c v).cal = s.cal := rfl
@[simp] theorem State.setDacCur_dacCur (s : State) (c : ChanNo) (v : Word) : (s.setDacCur c v).dacCur = s.dacCur.set c v := rfl
@[simp] theorem State.setDacCur_dacCode (s : State) (c : ChanNo) (v : Word) : (s.setDacCur c v).dacCode = s.dacCode := rfl
@[simp] theorem State.setDacCur_temp (s : State) (c : ChanNo) (v : Word) : (s.setDacCur c v).temp = s.temp := rfl
@[simp] theorem State.setDacCur_ch (s : State) (c : ChanNo) (v : Word) : (s.setDacCur c v).ch = s.ch := rfl
@[simp] theorem State.setDacCur_bus (s : State) (c : ChanNo) (v : Word) : (s.setDacCur c v).bus = s.bus := rfl
@[simp] theorem State.setDacCur_inputs (s : State) (c : ChanNo) (v : Word) : (s.setDacCur c v).inputs = s.inputs := rfl
@[simp] theorem State.setDacCur_hRdata (s : State) (c : ChanNo) (v : Word) : (s.setDacCur c v).hRdata = s.hRdata := rfl
@[simp] theorem State.setDacCur_draws (s : State) (c : ChanNo) (v : Word) : (s.setDacCur c v).draws = s.draws := rfl

/-! ### setDacCode -/

@[simp] theorem State.setDacCode_cfg (s : State) (c : ChanNo) (n : BitVec 20) : (s.setDacCode c n).cfg = s.cfg := rfl
@[simp] theorem State.setDacCode_rstN (s : State) (c : ChanNo) (n : BitVec 20) : (s.setDacCode c n).rstN = s.rstN := rfl
@[simp] theorem State.setDacCode_seq (s : State) (c : ChanNo) (n : BitVec 20) : (s.setDacCode c n).seq = s.seq := rfl
@[simp] theorem State.setDacCode_cmd (s : State) (c : ChanNo) (n : BitVec 20) : (s.setDacCode c n).cmd = s.cmd := rfl
@[simp] theorem State.setDacCode_status (s : State) (c : ChanNo) (n : BitVec 20) : (s.setDacCode c n).status = s.status := rfl
@[simp] theorem State.setDacCode_adc (s : State) (c : ChanNo) (n : BitVec 20) : (s.setDacCode c n).adc = s.adc := rfl
@[simp] theorem State.setDacCode_cal (s : State) (c : ChanNo) (n : BitVec 20) : (s.setDacCode c n).cal = s.cal := rfl
@[simp] theorem State.setDacCode_dacCur (s : State) (c : ChanNo) (n : BitVec 20) : (s.setDacCode c n).dacCur = s.dacCur := rfl
@[simp] theorem State.setDacCode_dacCode (s : State) (c : ChanNo) (n : BitVec 20) : (s.setDacCode c n).dacCode = s.dacCode.set c n := rfl
@[simp] theorem State.setDacCode_temp (s : State) (c : ChanNo) (n : BitVec 20) : (s.setDacCode c n).temp = s.temp := rfl
@[simp] theorem State.setDacCode_ch (s : State) (c : ChanNo) (n : BitVec 20) : (s.setDacCode c n).ch = s.ch := rfl
@[simp] theorem State.setDacCode_bus (s : State) (c : ChanNo) (n : BitVec 20) : (s.setDacCode c n).bus = s.bus := rfl
@[simp] theorem State.setDacCode_inputs (s : State) (c : ChanNo) (n : BitVec 20) : (s.setDacCode c n).inputs = s.inputs := rfl
@[simp] theorem State.setDacCode_hRdata (s : State) (c : ChanNo) (n : BitVec 20) : (s.setDacCode c n).hRdata = s.hRdata := rfl
@[simp] theorem State.setDacCode_draws (s : State) (c : ChanNo) (n : BitVec 20) : (s.setDacCode c n).draws = s.draws := rfl

/-! ### setTemp -/

@[simp] theorem State.setTemp_cfg (s : State) (i : Fin 16) (v : Word) : (s.setTemp i v).cfg = s.cfg := rfl
@[simp] theorem State.setTemp_rstN (s : State) (i : Fin 16) (v : Word) : (s.setTemp i v).rstN = s.rstN := rfl
@[simp] theorem State.setTemp_seq (s : State) (i : Fin 16) (v : Word) : (s.setTemp i v).seq = s.seq := rfl
@[simp] theorem State.setTemp_cmd (s : State) (i : Fin 16) (v : Word) : (s.setTemp i v).cmd = s.cmd := rfl
@[simp] theorem State.setTemp_status (s : State) (i : Fin 16) (v : Word) : (s.setTemp i v).status = s.status := rfl
@[simp] theorem State.setTemp_adc (s : State) (i : Fin 16) (v : Word) : (s.setTemp i v).adc = s.adc := rfl
@[simp] theorem State.setTemp_cal (s : State) (i : Fin 16) (v : Word) : (s.setTemp i v).cal = s.cal := rfl
@[simp] theorem State.setTemp_dacCur (s : State) (i : Fin 16) (v : Word) : (s.setTemp i v).dacCur = s.dacCur := rfl
@[simp] theorem State.setTemp_dacCode (s : State) (i : Fin 16) (v : Word) : (s.setTemp i v).dacCode = s.dacCode := rfl
@[simp] theorem State.setTemp_temp (s : State) (i : Fin 16) (v : Word) : (s.setTemp i v).temp = s.temp.set i v := rfl
@[simp] theorem State.setTemp_ch (s : State) (i : Fin 16) (v : Word) : (s.setTemp i v).ch = s.ch := rfl
@[simp] theorem State.setTemp_bus (s : State) (i : Fin 16) (v : Word) : (s.setTemp i v).bus = s.bus := rfl
@[simp] theorem State.setTemp_inputs (s : State) (i : Fin 16) (v : Word) : (s.setTemp i v).inputs = s.inputs := rfl
@[simp] theorem State.setTemp_hRdata (s : State) (i : Fin 16) (v : Word) : (s.setTemp i v).hRdata = s.hRdata := rfl
@[simp] theorem State.setTemp_draws (s : State) (i : Fin 16) (v : Word) : (s.setTemp i v).draws = s.draws := rfl

/-! ### setChan -/

@[simp] theorem State.setChan_cfg (s : State) (c : ChanNo) (k : Channel) : (s.setChan c k).cfg = s.cfg := rfl
@[simp] theorem State.setChan_rstN (s : State) (c : ChanNo) (k : Channel) : (s.setChan c k).rstN = s.rstN := rfl
@[simp] theorem State.setChan_seq (s : State) (c : ChanNo) (k : Channel) : (s.setChan c k).seq = s.seq := rfl
@[simp] theorem State.setChan_cmd (s : State) (c : ChanNo) (k : Channel) : (s.setChan c k).cmd = s.cmd := rfl
@[simp] theorem State.setChan_status (s : State) (c : ChanNo) (k : Channel) : (s.setChan c k).status = s.status := rfl
@[simp] theorem State.setChan_adc (s : State) (c : ChanNo) (k : Channel) : (s.setChan c k).adc = s.adc := rfl
@[simp] theorem State.setChan_cal (s : State) (c : ChanNo) (k : Channel) : (s.setChan c k).cal = s.cal := rfl
@[simp] theorem State.setChan_dacCur (s : State) (c : ChanNo) (k : Channel) : (s.setChan c k).dacCur = s.dacCur := rfl
@[simp] theorem State.setChan_dacCode (s : State) (c : ChanNo) (k : Channel) : (s.setChan c k).dacCode = s.dacCode := rfl
@[simp] theorem State.setChan_temp (s : State) (c : ChanNo) (k : Channel) : (s.setChan c k).temp = s.temp := rfl
@[simp] theorem State.setChan_ch (s : State) (c : ChanNo) (k : Channel) : (s.setChan c k).ch = s.ch.set c k := rfl
@[simp] theorem State.setChan_bus (s : State) (c : ChanNo) (k : Channel) : (s.setChan c k).bus = s.bus := rfl
@[simp] theorem State.setChan_inputs (s : State) (c : ChanNo) (k : Channel) : (s.setChan c k).inputs = s.inputs := rfl
@[simp] theorem State.setChan_hRdata (s : State) (c : ChanNo) (k : Channel) : (s.setChan c k).hRdata = s.hRdata := rfl
@[simp] theorem State.setChan_draws (s : State) (c : ChanNo) (k : Channel) : (s.setChan c k).draws = s.draws := rfl

/-! ### setBus -/

@[simp] theorem State.setBus_cfg (s : State) (b : Buses) : (s.setBus b).cfg = s.cfg := rfl
@[simp] theorem State.setBus_rstN (s : State) (b : Buses) : (s.setBus b).rstN = s.rstN := rfl
@[simp] theorem State.setBus_seq (s : State) (b : Buses) : (s.setBus b).seq = s.seq := rfl
@[simp] theorem State.setBus_cmd (s : State) (b : Buses) : (s.setBus b).cmd = s.cmd := rfl
@[simp] theorem State.setBus_status (s : State) (b : Buses) : (s.setBus b).status = s.status := rfl
@[simp] theorem State.setBus_adc (s : State) (b : Buses) : (s.setBus b).adc = s.adc := rfl
@[simp] theorem State.setBus_cal (s : State) (b : Buses) : (s.setBus b).cal = s.cal := rfl
@[simp] theorem State.setBus_dacCur (s : State) (b : Buses) : (s.setBus b).dacCur = s.dacCur := rfl
@[simp] theorem State.setBus_dacCode (s : State) (b : Buses) : (s.setBus b).dacCode = s.dacCode := rfl
@[simp] theorem State.setBus_temp (s : State) (b : Buses) : (s.setBus b).temp = s.temp := rfl
@[simp] theorem State.setBus_ch (s : State) (b : Buses) : (s.setBus b).ch = s.ch := rfl
@[simp] theorem State.setBus_bus (s : State) (b : Buses) : (s.setBus b).bus = b := rfl
@[simp] theorem State.setBus_inputs (s : State) (b : Buses) : (s.setBus b).inputs = s.inputs := rfl
@[simp] theorem State.setBus_hRdata (s : State) (b : Buses) : (s.setBus b).hRdata = s.hRdata := rfl
@[simp] theorem State.setBus_draws (s : State) (b : Buses) : (s.setBus b).draws = s.draws := rfl

/-! ### commit -/

@[simp] theorem State.commit_cfg (s : State) : (s.commit).cfg = s.cfg := rfl
@[simp] theorem State.commit_rstN (s : State) : (s.commit).rstN = s.rstN := rfl
@[simp] theorem State.commit_seq (s : State) : (s.commit).seq = .idle := rfl
@[simp] theorem State.commit_cmd (s : State) : (s.commit).cmd = s.cmd := rfl
@[simp] theorem State.commit_status (s : State) : (s.commit).status = s.status := rfl
@[simp] theorem State.commit_adc (s : State) : (s.commit).adc = s.adc := rfl
@[simp] theorem State.commit_cal (s : State) : (s.commit).cal = s.cal := rfl
@[simp] theorem State.commit_dacCur (s : State) : (s.commit).dacCur = s.dacCur := rfl
@[simp] theorem State.commit_dacCode (s : State) : (s.commit).dacCode = s.dacCode := rfl
@[simp] theorem State.commit_temp (s : State) : (s.commit).temp = s.temp := rfl
@[simp] theorem State.commit_ch (s : State) : (s.commit).ch = s.ch := rfl
@[simp] theorem State.commit_bus (s : State) : (s.commit).bus = s.bus := rfl
@[simp] theorem State.commit_inputs (s : State) : (s.commit).inputs = s.inputs := rfl
@[simp] theorem State.commit_hRdata (s : State) : (s.commit).hRdata = s.hRdata := rfl
@[simp] theorem State.commit_draws (s : State) : (s.commit).draws = s.draws + 1 := rfl

/-! ### flag -/

@[simp] theorem State.flag_cfg (s : State) (e : Cause) : (s.flag e).cfg = s.cfg := rfl
@[simp] theorem State.flag_rstN (s : State) (e : Cause) : (s.flag e).rstN = s.rstN := rfl
@[simp] theorem State.flag_seq (s : State) (e : Cause) : (s.flag e).seq = s.seq := rfl
@[simp] theorem State.flag_cmd (s : State) (e : Cause) : (s.flag e).cmd = s.cmd := rfl
@[simp] theorem State.flag_status (s : State) (e : Cause) : (s.flag e).status = s.status ||| bitWord e.bit := rfl
@[simp] theorem State.flag_adc (s : State) (e : Cause) : (s.flag e).adc = s.adc := rfl
@[simp] theorem State.flag_cal (s : State) (e : Cause) : (s.flag e).cal = s.cal := rfl
@[simp] theorem State.flag_dacCur (s : State) (e : Cause) : (s.flag e).dacCur = s.dacCur := rfl
@[simp] theorem State.flag_dacCode (s : State) (e : Cause) : (s.flag e).dacCode = s.dacCode := rfl
@[simp] theorem State.flag_temp (s : State) (e : Cause) : (s.flag e).temp = s.temp := rfl
@[simp] theorem State.flag_ch (s : State) (e : Cause) : (s.flag e).ch = s.ch := rfl
@[simp] theorem State.flag_bus (s : State) (e : Cause) : (s.flag e).bus = s.bus := rfl
@[simp] theorem State.flag_inputs (s : State) (e : Cause) : (s.flag e).inputs = s.inputs := rfl
@[simp] theorem State.flag_hRdata (s : State) (e : Cause) : (s.flag e).hRdata = s.hRdata := rfl
@[simp] theorem State.flag_draws (s : State) (e : Cause) : (s.flag e).draws = s.draws := rfl

/-! ### setAdcReady -/

@[simp] theorem State.setAdcReady_cfg (s : State) (b : Bool) : (s.setAdcReady b).cfg = s.cfg := rfl
@[simp] theorem State.setAdcReady_rstN (s : State) (b : Bool) : (s.setAdcReady b).rstN = s.rstN := rfl
@[simp] theorem State.setAdcReady_seq (s : State) (b : Bool) : (s.setAdcReady b).seq = s.seq := rfl
@[simp] theorem State.setAdcReady_cmd (s : State) (b : Bool) : (s.setAdcReady b).cmd = s.cmd := rfl
@[simp] theorem State.setAdcReady_status (s : State) (b : Bool) : (s.setAdcReady b).status = putBit s.status 1 b := rfl
@[simp] theorem State.setAdcReady_adc (s : State) (b : Bool) : (s.setAdcReady b).adc = s.adc := rfl
@[simp] theorem State.setAdcReady_cal (s : State) (b : Bool) : (s.setAdcReady b).cal = s.cal := rfl
@[simp] theorem State.setAdcReady_dacCur (s : State) (b : Bool) : (s.setAdcReady b).dacCur = s.dacCur := rfl
@[simp] theorem State.setAdcReady_dacCode (s : State) (b : Bool) : (s.setAdcReady b).dacCode = s.dacCode := rfl
@[simp] theorem State.setAdcReady_temp (s : State) (b : Bool) : (s.setAdcReady b).temp = s.temp := rfl
@[simp] theorem State.setAdcReady_ch (s : State) (b : Bool) : (s.setAdcReady b).ch = s.ch := rfl
@[simp] theorem State.setAdcReady_bus (s : State) (b : Bool) : (s.setAdcReady b).bus = s.bus := rfl
@[simp] theorem State.setAdcReady_inputs (s : State) (b : Bool) : (s.setAdcReady b).inputs = s.inputs := rfl
@[simp] theorem State.setAdcReady_hRdata (s : State) (b : Bool) : (s.setAdcReady b).hRdata = s.hRdata := rfl
@[simp] theorem State.setAdcReady_draws (s : State) (b : Bool) : (s.setAdcReady b).draws = s.draws := rfl

/-! ### setCalOk -/

@[simp] theorem State.setCalOk_cfg (s : State) (b : Bool) : (s.setCalOk b).cfg = s.cfg := rfl
@[simp] theorem State.setCalOk_rstN (s : State) (b : Bool) : (s.setCalOk b).rstN = s.rstN := rfl
@[simp] theorem State.setCalOk_seq (s : State) (b : Bool) : (s.setCalOk b).seq = s.seq := rfl
@[simp] theorem State.setCalOk_cmd (s : State) (b : Bool) : (s.setCalOk b).cmd = s.cmd := rfl
@[simp] theorem State.setCalOk_status (s : State) (b : Bool) : (s.setCalOk b).status = putBit s.status 2 b := rfl
@[simp] theorem State.setCalOk_adc (s : State) (b : Bool) : (s.setCalOk b).adc = s.adc := rfl
@[simp] theorem State.setCalOk_cal (s : State) (b : Bool) : (s.setCalOk b).cal = s.cal := rfl
@[simp] theorem State.setCalOk_dacCur (s : State) (b : Bool) : (s.setCalOk b).dacCur = s.dacCur := rfl
@[simp] theorem State.setCalOk_dacCode (s : State) (b : Bool) : (s.setCalOk b).dacCode = s.dacCode := rfl
@[simp] theorem State.setCalOk_temp (s : State) (b : Bool) : (s.setCalOk b).temp = s.temp := rfl
@[simp] theorem State.setCalOk_ch (s : State) (b : Bool) : (s.setCalOk b).ch = s.ch := rfl
@[simp] theorem State.setCalOk_bus (s : State) (b : Bool) : (s.setCalOk b).bus = s.bus := rfl
@[simp] theorem State.setCalOk_inputs (s : State) (b : Bool) : (s.setCalOk b).inputs = s.inputs := rfl
@[simp] theorem State.setCalOk_hRdata (s : State) (b : Bool) : (s.setCalOk b).hRdata = s.hRdata := rfl
@[simp] theorem State.setCalOk_draws (s : State) (b : Bool) : (s.setCalOk b).draws = s.draws := rfl

/-! ### clearSticky -/

@[simp] theorem State.clearSticky_cfg (s : State) (v : Word) : (s.clearSticky v).cfg = s.cfg := rfl
@[simp] theorem State.clearSticky_rstN (s : State) (v : Word) : (s.clearSticky v).rstN = s.rstN := rfl
@[simp] theorem State.clearSticky_seq (s : State) (v : Word) : (s.clearSticky v).seq = s.seq := rfl
@[simp] theorem State.clearSticky_cmd (s : State) (v : Word) : (s.clearSticky v).cmd = s.cmd := rfl
@[simp] theorem State.clearSticky_status (s : State) (v : Word) : (s.clearSticky v).status = s.status &&& ~~~(v &&& stickyMask) := rfl
@[simp] theorem State.clearSticky_adc (s : State) (v : Word) : (s.clearSticky v).adc = s.adc := rfl
@[simp] theorem State.clearSticky_cal (s : State) (v : Word) : (s.clearSticky v).cal = s.cal := rfl
@[simp] theorem State.clearSticky_dacCur (s : State) (v : Word) : (s.clearSticky v).dacCur = s.dacCur := rfl
@[simp] theorem State.clearSticky_dacCode (s : State) (v : Word) : (s.clearSticky v).dacCode = s.dacCode := rfl
@[simp] theorem State.clearSticky_temp (s : State) (v : Word) : (s.clearSticky v).temp = s.temp := rfl
@[simp] theorem State.clearSticky_ch (s : State) (v : Word) : (s.clearSticky v).ch = s.ch := rfl
@[simp] theorem State.clearSticky_bus (s : State) (v : Word) : (s.clearSticky v).bus = s.bus := rfl
@[simp] theorem State.clearSticky_inputs (s : State) (v : Word) : (s.clearSticky v).inputs = s.inputs := rfl
@[simp] theorem State.clearSticky_hRdata (s : State) (v : Word) : (s.clearSticky v).hRdata = s.hRdata := rfl
@[simp] theorem State.clearSticky_draws (s : State) (v : Word) : (s.clearSticky v).draws = s.draws := rfl

/-! ### Entering and leaving reset -/

@[simp] theorem State.enterReset_cfg (s : State) : s.enterReset.cfg = s.cfg := rfl
@[simp] theorem State.enterReset_rstN (s : State) : s.enterReset.rstN = false := rfl
@[simp] theorem State.enterReset_seq (s : State) : s.enterReset.seq = .idle := rfl
@[simp] theorem State.enterReset_cmd (s : State) : s.enterReset.cmd = 0 := rfl
@[simp] theorem State.enterReset_status (s : State) : s.enterReset.status = 0 := rfl
@[simp] theorem State.enterReset_adc (s : State) : s.enterReset.adc = resetAdc := rfl
@[simp] theorem State.enterReset_cal (s : State) : s.enterReset.cal = resetCal := rfl
@[simp] theorem State.enterReset_dacCur (s : State) : s.enterReset.dacCur = Vector.replicate 4 fZero := rfl
@[simp] theorem State.enterReset_dacCode (s : State) : s.enterReset.dacCode = Vector.replicate 4 0 := rfl
@[simp] theorem State.enterReset_temp (s : State) : s.enterReset.temp = Vector.replicate 16 fZero := rfl
@[simp] theorem State.enterReset_ch (s : State) : s.enterReset.ch = Vector.replicate 4 (resetChannel s.cfg.params) := rfl
@[simp] theorem State.enterReset_bus (s : State) : s.enterReset.bus = s.bus.idleLines := rfl
@[simp] theorem State.enterReset_inputs (s : State) : s.enterReset.inputs = s.inputs := rfl
@[simp] theorem State.enterReset_hRdata (s : State) : s.enterReset.hRdata = s.hRdata := rfl
@[simp] theorem State.enterReset_draws (s : State) : s.enterReset.draws = s.draws := rfl

@[simp] theorem State.leaveReset_cfg (s : State) : s.leaveReset.cfg = s.cfg := rfl
@[simp] theorem State.leaveReset_rstN (s : State) : s.leaveReset.rstN = true := rfl
@[simp] theorem State.leaveReset_seq (s : State) : s.leaveReset.seq = .idle := rfl
@[simp] theorem State.leaveReset_cmd (s : State) : s.leaveReset.cmd = 0 := rfl
@[simp] theorem State.leaveReset_status (s : State) : s.leaveReset.status = 0 := rfl
@[simp] theorem State.leaveReset_adc (s : State) : s.leaveReset.adc = resetAdc := rfl
@[simp] theorem State.leaveReset_cal (s : State) : s.leaveReset.cal = resetCal := rfl
@[simp] theorem State.leaveReset_dacCur (s : State) : s.leaveReset.dacCur = Vector.replicate 4 fZero := rfl
@[simp] theorem State.leaveReset_dacCode (s : State) : s.leaveReset.dacCode = Vector.replicate 4 0 := rfl
@[simp] theorem State.leaveReset_temp (s : State) : s.leaveReset.temp = Vector.replicate 16 fZero := rfl
@[simp] theorem State.leaveReset_ch (s : State) : s.leaveReset.ch = Vector.replicate 4 (resetChannel s.cfg.params) := rfl
@[simp] theorem State.leaveReset_bus (s : State) : s.leaveReset.bus = s.bus.idleLines := rfl
@[simp] theorem State.leaveReset_inputs (s : State) : s.leaveReset.inputs = s.inputs := rfl
@[simp] theorem State.leaveReset_hRdata (s : State) : s.leaveReset.hRdata = s.hRdata := rfl
@[simp] theorem State.leaveReset_draws (s : State) : s.leaveReset.draws = s.draws := rfl

/-! ### The state right after reset -/

@[simp] theorem State.resetOf_cfg (cfg : AdmittedConfig) : (State.resetOf cfg).cfg = cfg := rfl
@[simp] theorem State.resetOf_rstN (cfg : AdmittedConfig) : (State.resetOf cfg).rstN = true := rfl
@[simp] theorem State.resetOf_seq (cfg : AdmittedConfig) : (State.resetOf cfg).seq = .idle := rfl
@[simp] theorem State.resetOf_cmd (cfg : AdmittedConfig) : (State.resetOf cfg).cmd = 0 := rfl
@[simp] theorem State.resetOf_status (cfg : AdmittedConfig) : (State.resetOf cfg).status = 0 := rfl
@[simp] theorem State.resetOf_adc (cfg : AdmittedConfig) : (State.resetOf cfg).adc = resetAdc := rfl
@[simp] theorem State.resetOf_cal (cfg : AdmittedConfig) : (State.resetOf cfg).cal = resetCal := rfl
@[simp] theorem State.resetOf_dacCur (cfg : AdmittedConfig) : (State.resetOf cfg).dacCur = Vector.replicate 4 fZero := rfl
@[simp] theorem State.resetOf_dacCode (cfg : AdmittedConfig) : (State.resetOf cfg).dacCode = Vector.replicate 4 0 := rfl
@[simp] theorem State.resetOf_temp (cfg : AdmittedConfig) : (State.resetOf cfg).temp = Vector.replicate 16 fZero := rfl
@[simp] theorem State.resetOf_ch (cfg : AdmittedConfig) : (State.resetOf cfg).ch = Vector.replicate 4 (resetChannel cfg.params) := rfl
@[simp] theorem State.resetOf_bus (cfg : AdmittedConfig) : (State.resetOf cfg).bus = resetBuses := rfl
@[simp] theorem State.resetOf_inputs (cfg : AdmittedConfig) : (State.resetOf cfg).inputs = [] := rfl
@[simp] theorem State.resetOf_hRdata (cfg : AdmittedConfig) : (State.resetOf cfg).hRdata = 0 := rfl
@[simp] theorem State.resetOf_draws (cfg : AdmittedConfig) : (State.resetOf cfg).draws = 0 := rfl

end Sys2Proof.Machine
end

