-- ==== Sys2Proof/Laws/Flags.lean ====
section
/-! SUPPORT. The bits of STATUS: what flagging, writing a live bit, clearing and reading do to each of them. -/

namespace Sys2Proof.Machine

theorem Cause.bit_lt (e : Cause) : e.bit < 24 := by
  cases e with
  | buildRej ch => have := ch.isLt; simp only [Cause.bit]; omega
  | _ => decide

theorem Cause.bit_ge (e : Cause) : 8 ≤ e.bit := by
  cases e with
  | buildRej ch => simp only [Cause.bit]; omega
  | _ => decide

theorem Cause.bit_sticky (e : Cause) : stickyMask.getLsbD e.bit = true := by
  cases e with
  | buildRej ch => revert ch; decide
  | _ => decide

/-- Two causes never share a bit. -/
theorem Cause.bit_inj {e f : Cause} (h : e.bit = f.bit) : e = f := by
  have hf := f.bit_lt
  cases e <;> cases f <;> simp only [Cause.bit] at h hf <;>
    first | rfl | (exact absurd h (by omega)) | (congr 1; exact Fin.ext (by omega))

theorem bitWord_getLsbD (n k : Nat) (hn : n < 32) : (bitWord n).getLsbD k = decide (k = n) := by
  simp only [bitWord, BitVec.getLsbD_shiftLeft, BitVec.getLsbD_one]
  by_cases h : k = n
  · subst h; simp [hn]
  · have : ¬ (¬ k < n ∧ k - n = 0) := by omega
    simp [h]; omega

/-- A flag sets its own bit and leaves every other bit. -/
theorem State.flag_getLsbD (s : State) (e : Cause) (n : Nat) :
    (s.flag e).status.getLsbD n = (s.status.getLsbD n || decide (n = e.bit)) := by
  have h := e.bit_lt
  simp only [State.flag, BitVec.getLsbD_or, bitWord_getLsbD e.bit n (by omega)]

@[simp] theorem State.flag_sticky (s : State) (e f : Cause) :
    (s.flag e).sticky f = (s.sticky f || decide (f = e)) := by
  rw [State.sticky, State.flag_getLsbD, State.sticky]
  congr 1
  exact decide_eq_decide.mpr ⟨Cause.bit_inj, fun h => h ▸ rfl⟩

/-- `putBit` writes its own bit and leaves every other bit. -/
theorem putBit_getLsbD (w : Word) (n k : Nat) (b : Bool) (hn : n < 32) :
    (putBit w n b).getLsbD k = if k = n then b else w.getLsbD k := by
  by_cases hk : k < 32
  · have hd : decide (k < 32) = true := by simpa using hk
    have hw := bitWord_getLsbD n k hn
    cases b
    · simp only [putBit, Bool.false_eq_true, if_false, BitVec.getLsbD_and, BitVec.getLsbD_not, hw, hd]
      by_cases hkn : k = n <;> simp [hkn]
    · simp only [putBit, if_true, BitVec.getLsbD_or, hw]
      by_cases hkn : k = n <;> simp [hkn]
  · have hkn : k ≠ n := by omega
    rw [if_neg hkn, BitVec.getLsbD_of_ge _ k (by omega), BitVec.getLsbD_of_ge _ k (by omega)]

@[simp] theorem State.setAdcReady_sticky (s : State) (b : Bool) (e : Cause) :
    (s.setAdcReady b).sticky e = s.sticky e := by
  have h := e.bit_ge
  rw [State.sticky, State.setAdcReady_status, putBit_getLsbD _ _ _ _ (by omega), if_neg (by omega)]
  rfl

@[simp] theorem State.setCalOk_sticky (s : State) (b : Bool) (e : Cause) :
    (s.setCalOk b).sticky e = s.sticky e := by
  have h := e.bit_ge
  rw [State.sticky, State.setCalOk_status, putBit_getLsbD _ _ _ _ (by omega), if_neg (by omega)]
  rfl

@[simp] theorem State.setAdcReady_adcReady (s : State) (b : Bool) : (s.setAdcReady b).adcReady = b := by
  rw [State.adcReady, State.setAdcReady_status, putBit_getLsbD _ _ _ _ (by omega), if_pos rfl]

@[simp] theorem State.setCalOk_calOk (s : State) (b : Bool) : (s.setCalOk b).calOk = b := by
  rw [State.calOk, State.setCalOk_status, putBit_getLsbD _ _ _ _ (by omega), if_pos rfl]

/-- A write to STATUS clears a sticky bit exactly where its data bit is 1. -/
@[simp] theorem State.clearSticky_sticky (s : State) (v : Word) (e : Cause) :
    (s.clearSticky v).sticky e = (s.sticky e && !v.getLsbD e.bit) := by
  have h := e.bit_lt
  have hlt : decide (e.bit < 32) = true := by simp; omega
  simp only [State.sticky, State.clearSticky, BitVec.getLsbD_and, BitVec.getLsbD_not, hlt, Cause.bit_sticky,
    Bool.and_true, Bool.true_and]

theorem State.isBusy_idle {s : State} (h : s.seq = .idle) : s.isBusy = false := by simp [State.isBusy, h]

theorem State.isBusy_busy {s : State} {i : Instr} (h : s.seq = .busy i) : s.isBusy = true := by
  simp [State.isBusy, h]

/-- STATUS as the host reads it: BUSY is the phase, any other bit is the stored bit, and a reserved bit is 0. -/
theorem State.statusRead_getLsbD (s : State) (n : Nat) :
    s.statusRead.getLsbD n = ((s.status.getLsbD n && storedMask.getLsbD n) || (decide (n = 0) && s.isBusy)) := by
  cases h : s.isBusy
  · simp only [State.statusRead, h, BitVec.getLsbD_or, BitVec.getLsbD_and]; simp
  · simp only [State.statusRead, h, BitVec.getLsbD_or, BitVec.getLsbD_and, BitVec.getLsbD_one, if_true]; simp

/-- BUSY as the host reads it is the phase. -/
theorem State.statusRead_busy (s : State) : s.statusRead.getLsbD 0 = s.isBusy := by
  have h0 : storedMask.getLsbD 0 = false := by decide
  rw [State.statusRead_getLsbD, h0]; simp

end Sys2Proof.Machine
end

