-- ==== Sys2Proof/Laws/RegisterMap.lean ====
section
/-! SUPPORT. What each update of the state does to what a register reads: an update of a field changes the registers of
that field and no other. STATUS reads the stored bits and the phase. -/

namespace Sys2Proof.Machine

/-! ### Reads that an update leaves alone -/

@[simp] theorem Reg.read_setInputs (r : Reg) (s : State) (l : List Input) : r.read (s.setInputs l) = r.read s := by
  cases r <;> rfl
@[simp] theorem Reg.read_setHRdata (r : Reg) (s : State) (v : Word) : r.read (s.setHRdata v) = r.read s := by
  cases r <;> rfl
@[simp] theorem Reg.read_setBus (r : Reg) (s : State) (b : Buses) : r.read (s.setBus b) = r.read s := by
  cases r <;> rfl

theorem Reg.read_setSeq {r : Reg} (hr : r ≠ .status) (s : State) (q : SeqState) : r.read (s.setSeq q) = r.read s := by
  cases r <;> first | rfl | exact absurd rfl hr
theorem Reg.read_commit {r : Reg} (hr : r ≠ .status) (s : State) : r.read s.commit = r.read s := by
  cases r <;> first | rfl | exact absurd rfl hr
theorem Reg.read_flag {r : Reg} (hr : r ≠ .status) (s : State) (e : Cause) : r.read (s.flag e) = r.read s := by
  cases r <;> first | rfl | exact absurd rfl hr
theorem Reg.read_setAdcReady {r : Reg} (hr : r ≠ .status) (s : State) (b : Bool) :
    r.read (s.setAdcReady b) = r.read s := by cases r <;> first | rfl | exact absurd rfl hr
theorem Reg.read_setCalOk {r : Reg} (hr : r ≠ .status) (s : State) (b : Bool) :
    r.read (s.setCalOk b) = r.read s := by cases r <;> first | rfl | exact absurd rfl hr
theorem Reg.read_clearSticky {r : Reg} (hr : r ≠ .status) (s : State) (v : Word) :
    r.read (s.clearSticky v) = r.read s := by cases r <;> first | rfl | exact absurd rfl hr

/-! ### Updates of a register -/

theorem Reg.read_setCmd {r : Reg} (hr : r ≠ .cmd) (s : State) (w : Word) : r.read (s.setCmd w) = r.read s := by
  cases r <;> first | rfl | exact absurd rfl hr
@[simp] theorem Reg.read_setDacCur_same (s : State) (c : ChanNo) (v : Word) :
    Reg.read (.dacCur c) (s.setDacCur c v) = v := by
  simp [Reg.read, State.setDacCur]
theorem Reg.read_setDacCur_other {r : Reg} {c : ChanNo} (h : r ≠ .dacCur c) (s : State) (v : Word) :
    r.read (s.setDacCur c v) = r.read s := by
  cases r with
  | dacCur k =>
    have hv : c.val ≠ k.val := fun e => h (by rw [Fin.ext e])
    simp [Reg.read, State.setDacCur, hv]
  | _ => rfl
@[simp] theorem Reg.read_setDacCode_same (s : State) (c : ChanNo) (n : BitVec 20) :
    Reg.read (.dacCode c) (s.setDacCode c n) = n.setWidth 32 := by
  simp [Reg.read, State.setDacCode]
theorem Reg.read_setDacCode_other {r : Reg} {c : ChanNo} (h : r ≠ .dacCode c) (s : State) (n : BitVec 20) :
    r.read (s.setDacCode c n) = r.read s := by
  cases r with
  | dacCode k =>
    have hv : c.val ≠ k.val := fun e => h (by rw [Fin.ext e])
    simp [Reg.read, State.setDacCode, hv]
  | _ => rfl
@[simp] theorem Reg.read_setTemp_same (s : State) (i : Fin 16) (v : Word) :
    Reg.read (.temp i) (s.setTemp i v) = v := by
  simp [Reg.read, State.setTemp]
theorem Reg.read_setTemp_other {r : Reg} {i : Fin 16} (h : r ≠ .temp i) (s : State) (v : Word) :
    r.read (s.setTemp i v) = r.read s := by
  cases r with
  | temp k =>
    have hv : i.val ≠ k.val := fun e => h (by rw [Fin.ext e])
    simp [Reg.read, State.setTemp, hv]
  | _ => rfl

@[simp] theorem State.setChan_same (s : State) (c : ChanNo) (k : Channel) : (s.setChan c k).ch[c] = k := by
  simp [State.setChan]
theorem State.setChan_other {s : State} {c j : ChanNo} {k : Channel} (h : j ≠ c) : (s.setChan c k).ch[j] = s.ch[j] := by
  have hv : c.val ≠ j.val := fun e => h (Fin.ext e.symm)
  simp [State.setChan, hv]

/-- The registers of channel `c` read the new channel, every other register reads as before. -/
theorem Reg.read_setChan_same (r : ChanReg) (s : State) (c : ChanNo) (k : Channel) :
    Reg.read (.chan c r) (s.setChan c k) = r.read k := by
  simp [Reg.read]
theorem Reg.read_setChan_other {r : Reg} {c : ChanNo} (h : ∀ q, r ≠ .chan c q) (s : State) (k : Channel) :
    r.read (s.setChan c k) = r.read s := by
  cases r with
  | chan j q =>
    have hj : j ≠ c := fun e => h q (by rw [e])
    simp only [Reg.read, State.setChan_other hj]
  | _ => rfl

/-- An update of channel `c` changes exactly the registers of `c` that read differently in the new channel. -/
theorem Reg.read_setChan {r : Reg} {s : State} {c : ChanNo} {k : Channel}
    (h : ∀ q, r = .chan c q → q.read k = q.read s.ch[c]) : r.read (s.setChan c k) = r.read s := by
  by_cases hr : ∃ q, r = .chan c q
  · obtain ⟨q, rfl⟩ := hr
    rw [Reg.read_setChan_same, h q rfl]; rfl
  · exact Reg.read_setChan_other (fun q e => hr ⟨q, e⟩) s k

theorem Reg.read_setAdc {r : Reg} {s : State} {a : AdcRegs}
    (hw : r = .adcWdata → a.wdata = s.adc.wdata) (hr : r = .adcRdata → a.rdata = s.adc.rdata)
    (hd : r = .adcData → a.data = s.adc.data) (ht : r = .adcTag → a.tag = s.adc.tag)
    (hi : r = .adcId → a.id = s.adc.id) : r.read (s.setAdc a) = r.read s := by
  cases r with
  | adcWdata => exact hw rfl
  | adcRdata => exact hr rfl
  | adcData => simp only [Reg.read, State.setAdc_adc, hd rfl]
  | adcTag => simp only [Reg.read, State.setAdc_adc, ht rfl]
  | adcId => simp only [Reg.read, State.setAdc_adc, hi rfl]
  | _ => rfl

theorem Reg.read_setCal {r : Reg} {s : State} {a : CalRegs} (hv : r = .calVin → a.vin = s.cal.vin)
    (ht : r = .calTout → a.tout = s.cal.tout) (hi : r = .calIdx → a.idx = s.cal.idx) :
    r.read (s.setCal a) = r.read s := by
  cases r with
  | calVin => exact hv rfl
  | calTout => exact ht rfl
  | calIdx => simp only [Reg.read, State.setCal_cal, hi rfl]
  | _ => rfl

/-! ### Reads by field -/

/-- A register of the configuration reads the configuration alone. -/
theorem Reg.read_config {s t : State} (h : t.cfg = s.cfg) {r : Reg} (hr : r = .maxCur ∨ r = .cSafe ∨ ∃ k col, r = .cal k col) :
    r.read t = r.read s := by
  rcases hr with rfl | rfl | ⟨k, col, rfl⟩ <;> simp only [Reg.read, h]

/-- Two states that agree on every field a register can show agree on every register but STATUS. -/
theorem Reg.read_congr {s t : State} (hcfg : t.cfg = s.cfg) (hcmd : t.cmd = s.cmd) (hadc : t.adc = s.adc)
    (hcal : t.cal = s.cal) (hcur : t.dacCur = s.dacCur) (hcode : t.dacCode = s.dacCode) (htemp : t.temp = s.temp)
    (hch : t.ch = s.ch) {r : Reg} (hr : r ≠ .status) : r.read t = r.read s := by
  cases r <;> first | exact absurd rfl hr | simp only [Reg.read, hcfg, hcmd, hadc, hcal, hcur, hcode, htemp, hch]

/-! ### Frames -/

theorem framed_refl (l : List Reg) (s : State) : framed l s s := ⟨fun _ _ _ => rfl, rfl, rfl, rfl, rfl⟩

theorem framed_trans {l : List Reg} {s t u : State} (h : framed l s t) (k : framed l t u) : framed l s u :=
  ⟨fun r hr hl => (k.1 r hr hl).trans (h.1 r hr hl), k.2.1.trans h.2.1, k.2.2.1.trans h.2.2.1,
    k.2.2.2.1.trans h.2.2.2.1, k.2.2.2.2.trans h.2.2.2.2⟩

theorem framed_mono {l m : List Reg} {s t : State} (h : framed l s t) (hlm : ∀ r, r ∈ l → r ∈ m) : framed m s t :=
  ⟨fun r hr hm => h.1 r hr fun hl => hm (hlm r hl), h.2⟩

/-- The end of a command closes a frame. -/
theorem ended_commit {l : List Reg} {s t : State} (h : framed l s t) : ended l s t.commit :=
  ⟨⟨fun r hr hl => (Reg.read_commit hr t).trans (h.1 r hr hl), h.2⟩, rfl⟩

theorem framed_setBus {l : List Reg} {s t : State} (h : framed l s t) (b : Buses) : framed l s (t.setBus b) :=
  ⟨fun r hr hl => (Reg.read_setBus r t b).trans (h.1 r hr hl), h.2⟩

theorem framed_flag {l : List Reg} {s t : State} (h : framed l s t) (e : Cause) : framed l s (t.flag e) :=
  ⟨fun r hr hl => (Reg.read_flag hr t e).trans (h.1 r hr hl), h.2⟩

theorem framed_setAdcReady {l : List Reg} {s t : State} (h : framed l s t) (b : Bool) :
    framed l s (t.setAdcReady b) :=
  ⟨fun r hr hl => (Reg.read_setAdcReady hr t b).trans (h.1 r hr hl), h.2⟩

theorem framed_setCalOk {l : List Reg} {s t : State} (h : framed l s t) (b : Bool) : framed l s (t.setCalOk b) :=
  ⟨fun r hr hl => (Reg.read_setCalOk hr t b).trans (h.1 r hr hl), h.2⟩

theorem framed_setDacCode {l : List Reg} {s t : State} (h : framed l s t) {c : ChanNo} (hc : .dacCode c ∈ l)
    (n : BitVec 20) : framed l s (t.setDacCode c n) :=
  ⟨fun r hr hl => by
    have hn : r ≠ .dacCode c := fun e => hl (e ▸ hc)
    exact (Reg.read_setDacCode_other hn t n).trans (h.1 r hr hl), h.2⟩

theorem framed_setTemp {l : List Reg} {s t : State} (h : framed l s t) {i : Fin 16} (hi : .temp i ∈ l)
    (v : Word) : framed l s (t.setTemp i v) :=
  ⟨fun r hr hl => by
    have hn : r ≠ .temp i := fun e => hl (e ▸ hi)
    exact (Reg.read_setTemp_other hn t v).trans (h.1 r hr hl), h.2⟩

theorem framed_setChan {l : List Reg} {s t : State} (h : framed l s t) {c : ChanNo} {k : Channel}
    (hk : ∀ q, .chan c q ∉ l → q.read k = q.read t.ch[c]) : framed l s (t.setChan c k) :=
  ⟨fun r hr hl => (Reg.read_setChan fun q e => hk q (e ▸ hl)).trans (h.1 r hr hl), h.2⟩

end Sys2Proof.Machine
end

