-- ==== Sys2Proof/Laws/Channel.lean ====
section
/-! SUPPORT. What one tick, a list of ticks and the body of FINALIZE can do: to the channel they work on, to the others,
and to the rest of the state. -/

namespace Sys2Proof.Machine

/-- A left fold over `0..n-1` goes through a chain of accumulators, one for each index. -/
theorem foldl_finRange_chain {α : Type} (n : Nat) (f : α → Fin n → α) (z : α) :
    ∃ m : Nat → α, m 0 = z ∧ (∀ i : Fin n, m (i.val + 1) = f (m i.val) i) ∧ m n = (List.finRange n).foldl f z := by
  refine ⟨fun k => ((List.finRange n).take k).foldl f z, rfl, fun i => ?_, ?_⟩
  · have hi : i.val < (List.finRange n).length := by simp
    have htake : (List.finRange n).take (i.val + 1) = (List.finRange n).take i.val ++ [i] := by
      rw [List.take_add_one, List.getElem?_eq_getElem hi]; simp
    simp only [htake, List.foldl_append, List.foldl_cons, List.foldl_nil]
  · have hl : (List.finRange n).length = n := by simp
    simp only [List.take_of_length_le (Nat.le_of_eq hl)]

/-! ### One tick -/

@[simp] theorem State.tick_cfg (s : State) (c : ChanNo) : (s.tick c).cfg = s.cfg := rfl
@[simp] theorem State.tick_rstN (s : State) (c : ChanNo) : (s.tick c).rstN = s.rstN := rfl
@[simp] theorem State.tick_seq (s : State) (c : ChanNo) : (s.tick c).seq = s.seq := rfl
@[simp] theorem State.tick_cmd (s : State) (c : ChanNo) : (s.tick c).cmd = s.cmd := rfl
@[simp] theorem State.tick_status (s : State) (c : ChanNo) : (s.tick c).status = s.status := rfl
@[simp] theorem State.tick_temp (s : State) (c : ChanNo) : (s.tick c).temp = s.temp := rfl
@[simp] theorem State.tick_bus (s : State) (c : ChanNo) : (s.tick c).bus = s.bus := rfl
@[simp] theorem State.tick_inputs (s : State) (c : ChanNo) : (s.tick c).inputs = s.inputs := rfl
@[simp] theorem State.tick_hRdata (s : State) (c : ChanNo) : (s.tick c).hRdata = s.hRdata := rfl
@[simp] theorem State.tick_draws (s : State) (c : ChanNo) : (s.tick c).draws = s.draws := rfl
@[simp] theorem State.tick_chanPicks (s : State) (c j : ChanNo) : (s.tick c).chanPicks j = s.chanPicks j := rfl

@[simp] theorem State.tick_ch_same (s : State) (c : ChanNo) :
    (s.tick c).ch[c] = tickChannel (s.chanPicks c) s.temp s.ch[c] := s.setChan_same c _
theorem State.tick_ch_other {s : State} {c j : ChanNo} (h : j ≠ c) : (s.tick c).ch[j] = s.ch[j] :=
  State.setChan_other h

/-- A tick of a channel that is On. -/
theorem tickChannel_on {pick : NanPick} {temp : Vector Word 16} {k : Channel} (h : k.state = .on) :
    tickChannel pick temp k = { k with
      mix := mix pick temp k.live.w
      out := biquadOut pick k.live.filter (mix pick temp k.live.w) k.fstate
      fstate := biquadState pick k.live.filter (mix pick temp k.live.w) k.fstate } := by
  simp only [tickChannel, h]

/-- A tick of a channel in Hold or Off. -/
theorem tickChannel_hold {pick : NanPick} {temp : Vector Word 16} {k : Channel} (h : k.state ≠ .on) :
    tickChannel pick temp k = { k with mix := mix pick temp k.live.w, out := k.fstate.y1 } := by
  cases hs : k.state <;> first | exact absurd hs h | simp only [tickChannel, hs]

@[simp] theorem tickChannel_state (pick : NanPick) (temp : Vector Word 16) (k : Channel) :
    (tickChannel pick temp k).state = k.state := by unfold tickChannel; split <;> rfl
@[simp] theorem tickChannel_stage (pick : NanPick) (temp : Vector Word 16) (k : Channel) :
    (tickChannel pick temp k).stage = k.stage := by unfold tickChannel; split <;> rfl
@[simp] theorem tickChannel_live (pick : NanPick) (temp : Vector Word 16) (k : Channel) :
    (tickChannel pick temp k).live = k.live := by unfold tickChannel; split <;> rfl
@[simp] theorem tickChannel_mix (pick : NanPick) (temp : Vector Word 16) (k : Channel) :
    (tickChannel pick temp k).mix = mix pick temp k.live.w := by unfold tickChannel; split <;> rfl

/-- A tick changes at most the six registers of its channel. -/
theorem tick_framed (s : State) (c : ChanNo) : framed (tickRegs c) s (s.tick c) := by
  refine framed_setChan (framed_refl _ s) fun q hq => ?_
  cases q <;> first | (refine absurd ?_ hq; simp [tickRegs]; done) |
    simp only [ChanReg.read, tickChannel_state, tickChannel_stage, tickChannel_live]

/-! ### Several ticks -/

@[simp] theorem State.tickEach_nil (s : State) : s.tickEach [] = s := rfl
@[simp] theorem State.tickEach_cons (s : State) (c : ChanNo) (cs : List ChanNo) :
    s.tickEach (c :: cs) = (s.tick c).tickEach cs := rfl

/-- Ticks leave everything but the channels. -/
theorem State.tickEach_rest (s : State) (cs : List ChanNo) :
    (s.tickEach cs) = { s with ch := (s.tickEach cs).ch } := by
  induction cs generalizing s with
  | nil => rfl
  | cons c cs ih => rw [State.tickEach_cons, ih (s.tick c)]; rfl

/-- A channel that is not ticked stays. -/
theorem State.tickEach_ch_other (s : State) (cs : List ChanNo) (c : ChanNo) (h : c ∉ cs) :
    (s.tickEach cs).ch[c] = s.ch[c] := by
  induction cs generalizing s with
  | nil => rfl
  | cons k cs ih =>
    rw [List.mem_cons, not_or] at h
    rw [State.tickEach_cons, ih (s.tick k) h.2, State.tick_ch_other h.1]

/-- A channel that is ticked once gets its own tick, whatever was ticked before it. -/
theorem State.tickEach_ch_mem (s : State) (cs : List ChanNo) (hn : cs.Nodup) (c : ChanNo) (h : c ∈ cs) :
    (s.tickEach cs).ch[c] = tickChannel (s.chanPicks c) s.temp s.ch[c] := by
  induction cs generalizing s with
  | nil => simp at h
  | cons k cs ih =>
    rw [List.nodup_cons] at hn
    rw [State.tickEach_cons]
    by_cases hk : c = k
    · subst hk
      rw [State.tickEach_ch_other _ _ _ hn.1, State.tick_ch_same]
    · rw [ih (s.tick k) hn.2 ((List.mem_cons.mp h).resolve_left hk), State.tick_ch_other hk]
      rfl

/-! ### FINALIZE -/

/-- FINALIZE with an accepted build. -/
theorem State.finalizeChan_some {s : State} {c : ChanNo} {f : FilterRegs}
    (h : buildFilter pidKernel s.ch[c].stage = some f) :
    s.finalizeChan c = s.setChan c (finalizeChannel (s.chanPicks c) pidKernel s.cfg.params s.ch[c]) := by
  unfold State.finalizeChan; rw [h]

/-- FINALIZE with a rejected build. -/
theorem State.finalizeChan_none {s : State} {c : ChanNo} (h : buildFilter pidKernel s.ch[c].stage = none) :
    s.finalizeChan c =
      (s.setChan c (finalizeChannel (s.chanPicks c) pidKernel s.cfg.params s.ch[c])).flag (.buildRej c) := by
  unfold State.finalizeChan; rw [h]

theorem builtFilter_some {kernel : PidKernel} {k : Channel} {f : FilterRegs} (h : buildFilter kernel k.stage = some f) :
    builtFilter kernel k = f := by rw [builtFilter, h]; rfl
theorem builtFilter_none {kernel : PidKernel} {k : Channel} (h : buildFilter kernel k.stage = none) :
    builtFilter kernel k = k.live.filter := by rw [builtFilter, h]; rfl

@[simp] theorem State.finalizeChan_ch_same (s : State) (c : ChanNo) :
    (s.finalizeChan c).ch[c] = finalizeChannel (s.chanPicks c) pidKernel s.cfg.params s.ch[c] := by
  unfold State.finalizeChan; split <;> exact s.setChan_same c _
theorem State.finalizeChan_ch_other {s : State} {c j : ChanNo} (h : j ≠ c) :
    (s.finalizeChan c).ch[j] = s.ch[j] := by
  unfold State.finalizeChan; split <;> exact State.setChan_other h

@[simp] theorem State.finalizeChan_cfg (s : State) (c : ChanNo) : (s.finalizeChan c).cfg = s.cfg := by
  unfold State.finalizeChan; split <;> rfl
@[simp] theorem State.finalizeChan_rstN (s : State) (c : ChanNo) : (s.finalizeChan c).rstN = s.rstN := by
  unfold State.finalizeChan; split <;> rfl
@[simp] theorem State.finalizeChan_bus (s : State) (c : ChanNo) : (s.finalizeChan c).bus = s.bus := by
  unfold State.finalizeChan; split <;> rfl
@[simp] theorem State.finalizeChan_inputs (s : State) (c : ChanNo) : (s.finalizeChan c).inputs = s.inputs := by
  unfold State.finalizeChan; split <;> rfl

@[simp] theorem finalizeChannel_state (pick : NanPick) (kernel : PidKernel) (p : Params) (k : Channel) :
    (finalizeChannel pick kernel p k).state = k.state := rfl
@[simp] theorem finalizeChannel_stage (pick : NanPick) (kernel : PidKernel) (p : Params) (k : Channel) :
    (finalizeChannel pick kernel p k).stage = k.stage := rfl
@[simp] theorem finalizeChannel_out (pick : NanPick) (kernel : PidKernel) (p : Params) (k : Channel) :
    (finalizeChannel pick kernel p k).out = k.out := rfl
@[simp] theorem finalizeChannel_fstate (pick : NanPick) (kernel : PidKernel) (p : Params) (k : Channel) :
    (finalizeChannel pick kernel p k).fstate = k.fstate := rfl

/-- FINALIZE changes at most the live registers of its channel, and STATUS. -/
theorem finalizeChan_framed (s : State) (c : ChanNo) : framed (liveRegs c) s (s.finalizeChan c) := by
  have h : framed (liveRegs c) s
      (s.setChan c (finalizeChannel (s.chanPicks c) pidKernel s.cfg.params s.ch[c])) := by
    refine framed_setChan (framed_refl _ s) fun q hq => ?_
    cases q <;> first | rfl | (refine absurd ?_ hq; simp [liveRegs])
  unfold State.finalizeChan
  split
  · exact framed_flag h _
  · exact h

end Sys2Proof.Machine
end

