-- ==== Sys2Proof/Laws/DacCode.lean ====
section
/-! SUPPORT. What the conversion of a current to a code can give: rounding to the nearest integer, and the codes that rule
R77 names, in the terms the statements use. -/

namespace Sys2Proof.Machine

/-- Rounding half away gives `n` exactly where `n` is nearest and, in a tie, of larger magnitude. -/
theorem roundHalfAway_eq_iff (w : Word) (n : Nat) :
    roundHalfAway w = (n : Int) ↔
      2 * ((n : Int) * 2 ^ 149 - units w).natAbs ≤ 2 ^ 149 ∧
      (2 * ((n : Int) * 2 ^ 149 - units w).natAbs = 2 ^ 149 → (units w).natAbs < n * 2 ^ 149) := by
  unfold roundHalfAway units
  cases signBit w <;> simp only [Bool.false_eq_true, if_true, if_false] <;> omega

/-- The two spellings of `t` in rule R77 differ at most in the bits of a NaN. -/
theorem dacLevel_draw (d : NanPick) (p : Params) (i : Word) : sameDatum (dacVolts d p i) (dacLevel p i) :=
  fmul_draw _ _
    (fadd_draw _ _ (fmul_draw _ _ (fmul_draw _ _ (sameDatum_refl i) (sameDatum_refl _)) (sameDatum_refl _))
      (sameDatum_refl _))
    (fdiv_draw _ _ _ _)

/-- The conversion gives a code exactly where rule R77 names it. -/
theorem dacCodeFrom_eq_some_iff (d : NanPick) (p : Params) (i : Word) (n : BitVec 20) :
    dacCodeFrom p i = some n ↔ isDacCode d p i n := by
  have hs := dacLevel_draw d p i
  unfold isDacCode
  rw [isFinite_sameDatum hs]
  by_cases hf : isFinite (dacLevel p i) = true
  · rw [sameDatum_finite hs ((isFinite_sameDatum hs).trans hf)]
    have hn := n.isLt
    rw [dacCodeFrom, if_pos hf, ← roundHalfAway_eq_iff]
    constructor
    · intro h
      split at h
      · next hr =>
        injection h with h
        refine ⟨hf, ?_⟩
        rw [← h, BitVec.toNat_ofNat, Nat.mod_eq_of_lt (by omega)]
        omega
      · cases h
    · intro ⟨_, h⟩
      rw [if_pos (by omega), h]
      simp
  · rw [dacCodeFrom, if_neg hf]
    exact ⟨fun h => (Option.some_ne_none n h.symm).elim, fun h => absurd h.1 hf⟩

/-- The conversion refuses a current exactly where rule R77 names no code for it. -/
theorem dacCodeFrom_eq_none_iff (d : NanPick) (p : Params) (i : Word) :
    dacCodeFrom p i = none ↔ ∀ n, ¬ isDacCode d p i n := by
  rw [Option.eq_none_iff_forall_ne_some]
  exact forall_congr' fun n => not_congr (dacCodeFrom_eq_some_iff d p i n)

end Sys2Proof.Machine
end

