-- ==== Sys2Proof/Laws/DatumOrder.lean ====
section
/-! SUPPORT. The order of binary32 data in the terms the statements use: the value and the sign of a datum, which `maxNum`
and `minNum` compare, against its pattern read as sign and magnitude. -/

namespace Sys2Proof.Machine

/-- The magnitude of a datum, from the pattern below its sign bit. -/
theorem magUnits_eq (w : Word) :
    magUnits w = if (w.extractLsb' 0 31).toNat / 2 ^ 23 = 0 then (w.extractLsb' 0 31).toNat % 2 ^ 23
      else (2 ^ 23 + (w.extractLsb' 0 31).toNat % 2 ^ 23) * 2 ^ ((w.extractLsb' 0 31).toNat / 2 ^ 23 - 1) := by
  have he : expField w = (w.extractLsb' 0 31).toNat / 2 ^ 23 := by
    simp only [expField, BitVec.extractLsb'_toNat, Nat.shiftRight_eq_div_pow]; omega
  have hf : fracField w = (w.extractLsb' 0 31).toNat % 2 ^ 23 := by
    simp only [fracField, BitVec.extractLsb'_toNat, Nat.shiftRight_eq_div_pow]; omega
  rw [magUnits, he, hf]

/-- A larger pattern below the sign bit is a larger magnitude. -/
theorem magnitude_strictMono :
    StrictMono fun n : Nat => if n / 2 ^ 23 = 0 then n % 2 ^ 23 else (2 ^ 23 + n % 2 ^ 23) * 2 ^ (n / 2 ^ 23 - 1) := by
  refine strictMono_nat_of_lt_succ fun n => ?_
  by_cases hc : n % 2 ^ 23 + 1 < 2 ^ 23
  · rw [show (n + 1) / 2 ^ 23 = n / 2 ^ 23 by omega, show (n + 1) % 2 ^ 23 = n % 2 ^ 23 + 1 by omega]
    split
    · omega
    · exact Nat.mul_lt_mul_of_pos_right (by omega) (by positivity)
  · rw [show (n + 1) / 2 ^ 23 = n / 2 ^ 23 + 1 by omega, show (n + 1) % 2 ^ 23 = 0 by omega,
      if_neg (Nat.succ_ne_zero _), Nat.add_sub_cancel]
    split
    · next h => rw [h]; omega
    · next h =>
      obtain ⟨e, he⟩ : ∃ e, n / 2 ^ 23 = e + 1 := ⟨n / 2 ^ 23 - 1, by omega⟩
      rw [he, Nat.add_sub_cancel, pow_succ 2 e, show 2 ^ 23 + n % 2 ^ 23 = 2 ^ 24 - 1 by omega]
      have : 0 < 2 ^ e := by positivity
      omega

theorem magUnits_le_iff (a b : Word) :
    magUnits a ≤ magUnits b ↔ (a.extractLsb' 0 31).toNat ≤ (b.extractLsb' 0 31).toNat := by
  rw [magUnits_eq, magUnits_eq]; exact magnitude_strictMono.le_iff_le

/-- One datum is at or below another exactly where its value is less, or equal with a sign that is not the lesser. -/
theorem datumOrder_le_iff (a b : Word) :
    datumOrder a ≤ datumOrder b ↔
      units a < units b ∨ (units a = units b ∧ (signBit a = true ∨ signBit b = false)) := by
  have h := magUnits_le_iff a b
  have k := magUnits_le_iff b a
  have ha := magUnits_le_iff a 0#32
  have hb := magUnits_le_iff b 0#32
  rw [show magUnits 0#32 = 0 from by decide, show ((0#32).extractLsb' 0 31).toNat = 0 from by decide] at ha hb
  unfold datumOrder units signBit
  cases a.getLsbD 31 <;> cases b.getLsbD 31 <;>
    simp only [if_true, Bool.false_eq_true, Bool.true_eq_false, if_false, or_true, or_self, and_true,
      and_false, or_false] <;> omega

/-- Two words of one place in the order are one word. -/
theorem eq_of_datumOrder_eq {a b : Word} (h : datumOrder a = datumOrder b) : a = b := by
  have hs : a.getLsbD 31 = b.getLsbD 31 ∧ a.extractLsb' 0 31 = b.extractLsb' 0 31 := by
    unfold datumOrder at h
    cases ha : a.getLsbD 31 <;> cases hb : b.getLsbD 31 <;>
      simp only [ha, hb, if_true, Bool.false_eq_true, if_false] at h <;>
      first | exact ⟨rfl, BitVec.eq_of_toNat_eq (by omega)⟩ | omega
  apply BitVec.eq_of_getLsbD_eq
  intro i hi
  by_cases hj : i < 31
  · have := congrArg (·.getLsbD i) hs.2
    simpa [BitVec.getLsbD_extractLsb', hj] using this
  · rw [show i = 31 by omega]; exact hs.1

end Sys2Proof.Machine
end

