-- ==== Sys2Proof/Laws/Flow.lean ====
section
/-! SUPPORT. What serial transactions, frames and the commands built of them can do: the outcomes of `spiXfer` by the
reply it meets, a rule for `andThen`, what every serial command leaves alone, and the buses it leaves. -/

namespace Sys2Proof.Machine

/-! ### Flow -/

@[simp] theorem Flow.andThen_ok {α β : Type} (a : α) (s : State) (f : α → State → Flow β) :
    (Flow.ok a s).andThen f = f a s := rfl
@[simp] theorem Flow.andThen_raised {α β : Type} (s : State) (f : α → State → Flow β) :
    (Flow.raised s : Flow α).andThen f = .raised s := rfl
@[simp] theorem Flow.andThen_hung {α β : Type} (s : State) (f : α → State → Flow β) :
    (Flow.hung s : Flow α).andThen f = .hung s := rfl
@[simp] theorem Flow.andThen_resetHit {α β : Type} (s : State) (f : α → State → Flow β) :
    (Flow.resetHit s : Flow α).andThen f = .resetHit s := rfl

@[simp] theorem finish_ok {α : Type} (s t : State) (a : α) : finish s (.ok a t) = t.commit := rfl
@[simp] theorem finish_raised {α : Type} (s t : State) : finish s (.raised t : Flow α) = t.commit := rfl
@[simp] theorem finish_hung {α : Type} (s t : State) : finish s (.hung t : Flow α) = s.setBus t.bus := rfl
@[simp] theorem finish_resetHit {α : Type} (s t : State) :
    finish s (.resetHit t : Flow α) = (s.setBus t.bus).enterReset := rfl

/-- Whatever state a flow stands at: `P` where the command has gone on, raised or been hit by reset (no transaction is
left open), `Q` where a transaction never returns. -/
def Flow.ends {α : Type} (P Q : State → Prop) : Flow α → Prop
  | .ok _ t => P t
  | .raised t => P t
  | .hung t => Q t
  | .resetHit t => P t

/-- The rule for `andThen`: what the first part gives is what the second part may use. -/
theorem Flow.ends_andThen {α β : Type} {P Q : State → Prop} {x : Flow α} {f : α → State → Flow β}
    (hx : x.ends P Q) (hf : ∀ a t, P t → (f a t).ends P Q) : (x.andThen f).ends P Q := by
  cases x with
  | ok a t => exact hf a t hx
  | raised t => exact hx
  | hung t => exact hx
  | resetHit t => exact hx

/-- A weaker postcondition. -/
theorem Flow.ends_mono {α : Type} {P P' Q Q' : State → Prop} {x : Flow α} (hx : x.ends P Q)
    (hP : ∀ t, P t → P' t) (hQ : ∀ t, Q t → Q' t) : x.ends P' Q' := by
  cases x with
  | ok a t => exact hP t hx
  | raised t => exact hP t hx
  | hung t => exact hQ t hx
  | resetHit t => exact hP t hx

/-! ### One transaction -/

theorem spiXfer_ok {line : BusLine} {tx : List Byte} {s : State} {rx : List Byte}
    (h : s.bus.nextReply line = ⟨.ok rx, false⟩) :
    spiXfer line tx s = .ok (receivedBytes line tx.length rx)
      (s.setBus (s.bus.endXfer line tx (.ok (receivedBytes line tx.length rx)))) := by
  simp [spiXfer, h]

theorem spiXfer_fault {line : BusLine} {tx : List Byte} {s : State}
    (h : s.bus.nextReply line = ⟨.fault, false⟩) :
    spiXfer line tx s = .raised ((s.setBus (s.bus.endXfer line tx .fault)).flag (busError line)) := by
  simp [spiXfer, h, raiseError]

theorem spiXfer_stall {line : BusLine} {tx : List Byte} {s : State}
    (h : (s.bus.nextReply line).result = .stall) :
    spiXfer line tx s = .hung (s.setBus (s.bus.stallXfer line tx)) := by
  unfold spiXfer
  split <;> simp_all

/-- Everything one transaction can do: it goes on, raises the bus error of its line, is followed by reset, or never
returns. -/
theorem spiXfer_cases (line : BusLine) (tx : List Byte) (s : State) :
    (∃ rx, spiXfer line tx s = .ok rx (s.setBus (s.bus.endXfer line tx (.ok rx)))) ∨
    spiXfer line tx s = .raised ((s.setBus (s.bus.endXfer line tx .fault)).flag (busError line)) ∨
    (∃ r, spiXfer line tx s = .resetHit (s.setBus (s.bus.endXfer line tx r))) ∨
    spiXfer line tx s = .hung (s.setBus (s.bus.stallXfer line tx)) := by
  unfold spiXfer
  split
  · exact .inr (.inr (.inr rfl))
  · exact .inl ⟨_, rfl⟩
  · exact .inr (.inr (.inl ⟨_, rfl⟩))
  · exact .inr (.inl rfl)
  · exact .inr (.inr (.inl ⟨_, rfl⟩))

/-- Where a property holds of the buses a transaction leaves and survives the raised bit, it holds of the flow. -/
theorem spiXfer_ends {P Q : State → Prop} {line : BusLine} {tx : List Byte} {s : State}
    (hend : ∀ r, P (s.setBus (s.bus.endXfer line tx r)))
    (hflag : ∀ t, P t → P (t.flag (busError line)))
    (hstall : Q (s.setBus (s.bus.stallXfer line tx))) : (spiXfer line tx s).ends P Q := by
  rcases spiXfer_cases line tx s with ⟨rx, h⟩ | h | ⟨r, h⟩ | h <;> rw [h]
  · exact hend _
  · exact hflag _ (hend _)
  · exact hend _
  · exact hstall

/-! ### What holds all along a serial command -/

theorem whenAdcReady_ends {α : Type} {P Q : State → Prop} {s : State} {body : State → Flow α}
    (hraise : P (s.flag .adcNotReady)) (hbody : (body s).ends P Q) : (whenAdcReady s body).ends P Q := by
  unfold whenAdcReady
  split
  · exact hbody
  · exact hraise

theorem withDacCode_ends {α : Type} {P Q : State → Prop} {i : Word} {s : State} {body : BitVec 20 → State → Flow α}
    (hraise : P (s.flag .dacBounds)) (hbody : ∀ n, (body n s).ends P Q) : (withDacCode i s body).ends P Q := by
  unfold withDacCode
  split
  · exact hbody _
  · exact hraise

/-- `P` survives everything a serial command does short of a transaction that never returns, which gives `Q`. -/
structure SerialClosed (P Q : State → Prop) : Prop where
  endXfer : ∀ t line tx r, P t → P (t.setBus (t.bus.endXfer line tx r))
  stall : ∀ t line tx, P t → Q (t.setBus (t.bus.stallXfer line tx))
  flag : ∀ t e, P t → P (t.flag e)
  ready : ∀ t b, P t → P (t.setAdcReady b)
  adc : ∀ t (r : AdcRegs), r.wdata = t.adc.wdata → P t → P (t.setAdc r)
  code : ∀ t c n, P t → P (t.setDacCode c n)

section
variable {P Q : State → Prop} (hc : SerialClosed P Q)
include hc

theorem SerialClosed.xfer {t : State} (h : P t) (line : BusLine) (tx : List Byte) : (spiXfer line tx t).ends P Q :=
  spiXfer_ends (fun r => hc.endXfer t line tx r h) (fun u hu => hc.flag u _ hu) (hc.stall t line tx h)

theorem SerialClosed.adcWriteFrame {t : State} (h : P t) (a : BitVec 6) (n : Nat) (v : Word) :
    (adcWriteFrame a n v t).ends P Q := Flow.ends_andThen (hc.xfer h _ _) fun _ _ hu => hu

theorem SerialClosed.adcReadFrame {t : State} (h : P t) (a : BitVec 6) (n : Nat) : (adcReadFrame a n t).ends P Q :=
  Flow.ends_andThen (hc.xfer h _ _) fun _ _ hu => hu

theorem SerialClosed.adcResetFrame {t : State} (h : P t) : (adcResetFrame t).ends P Q :=
  Flow.ends_andThen (hc.xfer h _ _) fun _ _ hu => hu

theorem SerialClosed.adcConfigure (l : List (BitVec 6 × AdcCfgEntry)) {t : State} (h : P t) :
    (adcConfigure l t).ends P Q := by
  induction l generalizing t with
  | nil => exact h
  | cons x rest ih => exact Flow.ends_andThen (hc.adcWriteFrame h _ _ _) fun _ _ hu => ih hu

theorem SerialClosed.dacSend {t : State} (h : P t) (c : ChanNo) (n : BitVec 20) : (dacSend c n t).ends P Q :=
  Flow.ends_andThen (Flow.ends_andThen (hc.xfer h _ _) fun _ _ hu => hu) fun _ u hu => hc.code u c n hu

theorem SerialClosed.dacSendAll (n : BitVec 20) (cs : List ChanNo) {t : State} (h : P t) :
    (dacSendAll n cs t).ends P Q := by
  induction cs generalizing t with
  | nil => exact h
  | cons c rest ih => exact Flow.ends_andThen (hc.dacSend h _ _) fun _ _ hu => ih hu

theorem SerialClosed.adcResetFlow {s : State} (h : P s) : (adcResetFlow s).ends P Q :=
  Flow.ends_andThen (hc.adcResetFrame h) fun _ _ hu => hu

theorem SerialClosed.adcInitFlow {s : State} (h : P s) : (adcInitFlow s).ends P Q := by
  refine Flow.ends_andThen (hc.adcResetFrame (hc.ready s false h)) fun _ t ht => ?_
  refine Flow.ends_andThen (hc.adcReadFrame (t := waitAfterReset t) ht _ _) fun v u hu => ?_
  have hadc : P (u.setAdc { u.adc with id := v.setWidth 16 }) := hc.adc u _ rfl hu
  unfold adcInitChecked
  split
  · exact Flow.ends_andThen (hc.adcConfigure _ hadc) fun _ w hw => hc.ready w true hw
  · exact hc.flag _ _ hadc

theorem SerialClosed.adcReadFlow {s : State} (h : P s) (a : BitVec 6) (n : BitVec 3) : (adcReadFlow a n s).ends P Q :=
  whenAdcReady_ends (hc.flag s _ h) (Flow.ends_andThen (hc.adcReadFrame h _ _) fun _ u hu => hc.adc u _ rfl hu)

theorem SerialClosed.adcWriteFlow {s : State} (h : P s) (a : BitVec 6) (n : BitVec 3) : (adcWriteFlow a n s).ends P Q :=
  whenAdcReady_ends (hc.flag s _ h) (hc.adcWriteFrame h _ _ _)

theorem SerialClosed.adcReadDataFlow {s : State} (h : P s) : (adcReadDataFlow s).ends P Q :=
  whenAdcReady_ends (hc.flag s _ h) (Flow.ends_andThen (hc.adcReadFrame h _ _) fun _ u hu => hc.adc u _ rfl hu)

theorem SerialClosed.dacInitFlow {s : State} (h : P s) : (dacInitFlow s).ends P Q :=
  withDacCode_ends (hc.flag s _ h) fun n => hc.dacSendAll n _ h

theorem SerialClosed.dacSetFlow {s : State} (h : P s) (c : ChanNo) (src : DacSource) : (dacSetFlow c src s).ends P Q :=
  withDacCode_ends (hc.flag s _ h) fun _ => hc.dacSend h _ _

end

/-! ### What every serial command leaves alone -/

/-- `t` differs from `s` at most in the buses, STATUS, the ADC result registers and DAC_CODE. -/
def serialFrame (s t : State) : Prop :=
  t.cfg = s.cfg ∧ t.rstN = s.rstN ∧ t.seq = s.seq ∧ t.cmd = s.cmd ∧ t.cal = s.cal ∧ t.dacCur = s.dacCur ∧
  t.temp = s.temp ∧ t.ch = s.ch ∧ t.inputs = s.inputs ∧ t.hRdata = s.hRdata ∧ t.draws = s.draws ∧
  t.adc.wdata = s.adc.wdata

theorem serialFrame_refl (s : State) : serialFrame s s := by simp [serialFrame]

theorem serialFrame_closed (s : State) : SerialClosed (serialFrame s) (serialFrame s) where
  endXfer _ _ _ _ h := h
  stall _ _ _ h := h
  flag _ _ h := h
  ready _ _ h := h
  code _ _ _ h := h
  adc _ _ hr h := by
    obtain ⟨h1, h2, h3, h4, h5, h6, h7, h8, h9, h10, h11, h12⟩ := h
    exact ⟨h1, h2, h3, h4, h5, h6, h7, h8, h9, h10, h11, hr.trans h12⟩

/-! ### The buses a transaction leaves -/

@[simp] theorem Buses.endXfer_inFlight (b : Buses) (line : BusLine) (tx : List Byte) (r : XferResult) :
    (b.endXfer line tx r).inFlight = b.inFlight := by cases line <;> rfl

@[simp] theorem Buses.stallXfer_inFlight (b : Buses) (line : BusLine) (tx : List Byte) :
    (b.stallXfer line tx).inFlight = some (line, tx) := rfl

/-- A transaction on the ADC bus uses up a reply, records its frame and ends with its line at 1. -/
theorem Buses.endXfer_adc (b : Buses) (tx : List Byte) (r : XferResult) :
    b.endXfer .adc tx r = { b with adcIn := b.adcIn.tail, adcLog := b.adcLog ++ [⟨.adc, tx, r⟩], csAdcN := true } := rfl

/-- A transaction on the DAC bus uses up a reply, records its frame and ends with its line at 1. -/
theorem Buses.endXfer_dac (b : Buses) (c : ChanNo) (tx : List Byte) (r : XferResult) :
    b.endXfer (.dac c) tx r =
      { b with dacIn := b.dacIn.tail, dacLog := b.dacLog ++ [⟨.dac c, tx, r⟩], csDacN := b.csDacN.set c true } := rfl

end Sys2Proof.Machine
end

