-- ==== Sys2Proof/Laws/HostAccess.lean ====
section
/-! SUPPORT. Everything a host access can do, by the case it falls under. -/

namespace Sys2Proof.Machine

theorem memRead_mapped {s : State} {a : HostAddr} {r : Reg} (h : decodeAddr a = some r) :
    memRead s a = (r.read s, s) := by simp only [memRead, h]
theorem memRead_unmapped {s : State} {a : HostAddr} (h : decodeAddr a = none) :
    memRead s a = (0, s.flag .accErr) := by simp only [memRead, h]

theorem dispatchWord_ok {s : State} {v : Word} {i : Instr} (h : decode v = .ok i) :
    dispatchWord s v = (s.setCmd v).setSeq (.busy i) := by simp only [dispatchWord, h]
theorem dispatchWord_error {s : State} {v : Word} {e : IllegalWord} (h : decode v = .error e) :
    dispatchWord s v = s.flag .illegalCmd := by simp only [dispatchWord, h]

theorem memWrite_busy {s : State} (h : s.isBusy = true) (a : HostAddr) (v : Word) :
    memWrite s a v = s.flag .wrBusy := by simp only [memWrite, h, if_true]
theorem memWrite_unmapped {s : State} (h : s.isBusy = false) {a : HostAddr} (ha : decodeAddr a = none) (v : Word) :
    memWrite s a v = s.flag .accErr := by simp only [memWrite, h, ha, Bool.false_eq_true, if_false]
theorem memWrite_readOnly {s : State} (h : s.isBusy = false) {a : HostAddr} {r : Reg} (ha : decodeAddr a = some r)
    (hr : r.readOnly = true) (v : Word) : memWrite s a v = s.flag .accErr := by
  simp only [memWrite, h, ha, hr, Bool.false_eq_true, if_false, if_true]
theorem memWrite_writable {s : State} (h : s.isBusy = false) {a : HostAddr} {r : Reg} (ha : decodeAddr a = some r)
    (hr : r.readOnly = false) (v : Word) : memWrite s a v = r.write v s := by
  simp only [memWrite, h, ha, hr, Bool.false_eq_true, if_false]

/-- Everything a host write out of reset can do. -/
theorem memWrite_cases (s : State) (a : HostAddr) (v : Word) :
    (s.isBusy = true ∧ memWrite s a v = s.flag .wrBusy) ∨
    (s.isBusy = false ∧ memWrite s a v = s.flag .accErr) ∨
    (∃ r, s.isBusy = false ∧ decodeAddr a = some r ∧ r.readOnly = false ∧ memWrite s a v = r.write v s) := by
  cases hb : s.isBusy
  · right
    cases ha : decodeAddr a with
    | none => exact .inl ⟨rfl, memWrite_unmapped hb ha v⟩
    | some r =>
      cases hr : r.readOnly
      · exact .inr ⟨r, rfl, rfl, hr, memWrite_writable hb ha hr v⟩
      · exact .inl ⟨rfl, memWrite_readOnly hb ha hr v⟩
  · exact .inl ⟨rfl, memWrite_busy hb a v⟩

/-- Everything a write to a register can do: a command starts, the sticky bits named are cleared, an error is flagged,
a global register or a channel is stored to, or nothing happens. A stored channel differs in its operating state or
its staging registers alone. -/
theorem Reg.write_cases (r : Reg) (v : Word) (s : State) :
    (∃ i, r = .cmd ∧ decode v = .ok i ∧ r.write v s = (s.setCmd v).setSeq (.busy i)) ∨
    (r = .status ∧ r.write v s = s.clearSticky v) ∨
    (∃ e, r.write v s = s.flag e) ∨
    (r = .adcWdata ∧ r.write v s = s.setAdc { s.adc with wdata := v }) ∨
    (r = .calVin ∧ r.write v s = s.setCal { s.cal with vin := v }) ∨
    (∃ c, r = .dacCur c ∧ r.write v s = s.setDacCur c v) ∨
    (∃ i, r = .temp i ∧ r.write v s = s.setTemp i v) ∨
    (∃ c q g, r.write v s = s.setChan c { s.ch[c] with state := q, stage := g }) ∨
    r.write v s = s := by
  cases r with
  | cmd =>
    cases hd : decode v with
    | ok i => exact .inl ⟨i, rfl, rfl, dispatchWord_ok hd⟩
    | error e => exact .inr (.inr (.inl ⟨_, dispatchWord_error hd⟩))
  | status => exact .inr (.inl ⟨rfl, rfl⟩)
  | adcWdata => exact .inr (.inr (.inr (.inl ⟨rfl, rfl⟩)))
  | calVin => exact .inr (.inr (.inr (.inr (.inl ⟨rfl, rfl⟩))))
  | dacCur c => exact .inr (.inr (.inr (.inr (.inr (.inl ⟨c, rfl, rfl⟩)))))
  | temp i => exact .inr (.inr (.inr (.inr (.inr (.inr (.inl ⟨i, rfl, rfl⟩))))))
  | chan c q =>
    cases q with
    | state =>
      simp only [Reg.write, writeChState]
      cases chStateOf v with
      | none => exact .inr (.inr (.inl ⟨_, rfl⟩))
      | some q => exact .inr (.inr (.inr (.inr (.inr (.inr (.inr (.inl ⟨c, q, s.ch[c].stage, rfl⟩)))))))
    | _ => exact .inr (.inr (.inr (.inr (.inr (.inr (.inr (.inl ⟨c, s.ch[c].state, _, rfl⟩)))))))
  | _ => exact .inr (.inr (.inr (.inr (.inr (.inr (.inr (.inr rfl)))))))

/-- A write to a plain staging register is read back, and every other staging register of the channel stays. -/
theorem ChanReg.read_writeStage_same {r : ChanReg} (hr : r.readOnly = false) (hs : r ≠ .state) (v : Word) (k : Channel) :
    r.read { k with stage := r.writeStage v k.stage } = v := by
  cases r <;> first | rfl | exact absurd rfl hs | exact Bool.noConfusion hr |
    simp [ChanReg.read, ChanReg.writeStage]

theorem ChanReg.read_writeStage_other {q r : ChanReg} (h : q ≠ r) (v : Word) (k : Channel) :
    q.read { k with stage := r.writeStage v k.stage } = q.read k := by
  cases r with
  | ws i =>
    cases q with
    | ws j =>
      have hv : i.val ≠ j.val := fun e => h (by rw [Fin.ext e])
      simp [ChanReg.read, ChanReg.writeStage, hv]
    | _ => rfl
  | _ => cases q <;> first | rfl | exact absurd rfl h

end Sys2Proof.Machine
end

