-- ==== Sys2Proof/Laws/PerInstr.lean ====
section
/-! SUPPORT. What holds of every command as an encoded word: the family `ReservedZero`, one lemma per constructor. -/

namespace Sys2Proof

/-- The fields of a laid-out word. -/
theorem layWord_reserved (size : BitVec 3) (addr : BitVec 8) (wt src : Bool) (ch : BitVec 2) (op : BitVec 8) :
    (layWord size addr wt src ch op).extractLsb' 27 5 = 0#5 ∧
      (layWord size addr wt src ch op).extractLsb' 12 4 = 0#4 := by
  constructor <;>
  · ext i hi
    simp only [layWord, BitVec.getElem_extractLsb', BitVec.getLsbD_append]
    interval_cases i <;> simp

theorem layWord_op (size : BitVec 3) (addr : BitVec 8) (wt src : Bool) (ch : BitVec 2) (op : BitVec 8) :
    (layWord size addr wt src ch op).extractLsb' 0 8 = op := by
  ext i hi
  rw [layWord, BitVec.getElem_extractLsb', BitVec.getLsbD_append, if_pos (by omega), Nat.zero_add,
    BitVec.getLsbD_eq_getElem hi]

/-- The word of a command has its reserved bits 31:27 and 15:12 at zero (rules R54, R57). -/
def Laws.ReservedZero.Statement (i : Instr) : Prop :=
  (encode i).extractLsb' 27 5 = 0#5 ∧ (encode i).extractLsb' 12 4 = 0#4

theorem Laws.ReservedZero.nop : Laws.ReservedZero.Statement .nop := layWord_reserved ..
theorem Laws.ReservedZero.update (c : ChanNo) : Laws.ReservedZero.Statement (.update c) := layWord_reserved ..
theorem Laws.ReservedZero.updateAll : Laws.ReservedZero.Statement .updateAll := layWord_reserved ..
theorem Laws.ReservedZero.finalize (c : ChanNo) : Laws.ReservedZero.Statement (.finalize c) := layWord_reserved ..
theorem Laws.ReservedZero.cal : Laws.ReservedZero.Statement .cal := layWord_reserved ..
theorem Laws.ReservedZero.calT (idx : Fin 16) : Laws.ReservedZero.Statement (.calT idx) := layWord_reserved ..
theorem Laws.ReservedZero.adcInit : Laws.ReservedZero.Statement .adcInit := layWord_reserved ..
theorem Laws.ReservedZero.adcReset : Laws.ReservedZero.Statement .adcReset := layWord_reserved ..
theorem Laws.ReservedZero.adcRead (a : BitVec 6) (n : BitVec 3) : Laws.ReservedZero.Statement (.adcRead a n) :=
  layWord_reserved ..
theorem Laws.ReservedZero.adcWrite (a : BitVec 6) (n : BitVec 3) : Laws.ReservedZero.Statement (.adcWrite a n) :=
  layWord_reserved ..
theorem Laws.ReservedZero.adcReadData : Laws.ReservedZero.Statement .adcReadData := layWord_reserved ..
theorem Laws.ReservedZero.dacInit : Laws.ReservedZero.Statement .dacInit := layWord_reserved ..
theorem Laws.ReservedZero.dacSet (c : ChanNo) (src : DacSource) : Laws.ReservedZero.Statement (.dacSet c src) :=
  layWord_reserved ..

end Sys2Proof
end

