-- ==== Sys2Proof/Laws/Serial.lean ====
section
/-! SUPPORT. The frames of ADC_INIT as the statements write them out and as the model sends them, and what its run of
configuration writes does where the transactions end well. -/

namespace Sys2Proof.Machine

/-- The payload in the two orders of counting its bytes. -/
theorem payloadBytes_eq (n : Nat) (v : Word) :
    payloadBytes n v = (List.range n).map fun j => v.extractLsb' (8 * (n - 1 - j)) 8 := by
  refine List.ext_getElem (by simp [payloadBytes]) fun j h1 h2 => ?_
  simp [payloadBytes, List.getElem_reverse]

/-- The model sends the frames that the statements write out. -/
theorem adcInitFrames_eq (p : Params) :
    adcInitFrames p = resetFrameBytes :: readFrameBytes adcRegId 2 ::
      (adcCfgWrites p).map fun x => writeFrameBytes x.1 x.2.size.toNat x.2.value := by
  have haddr : [0x01#8, 0x02#8, 0x10#8, 0x11#8, 0x20#8, 0x21#8, 0x28#8, 0x29#8] = adcCfgRegisters.map writeAddrByte := by
    decide
  have hread : readFrameBytes adcRegId 2 = [0x47#8, 0x00#8, 0x00#8] := by decide
  rw [adcInitFrames, haddr, hread, List.zipWith_map_left, adcCfgWrites, List.map_zip_eq_zipWith]
  congr 3
  funext a e
  simp only [writeFrameBytes, payloadBytes_eq, Function.curry]

/-- What an ADC transaction that ends well gives. -/
theorem spiXfer_adc_ok {tx rx : List Byte} {s : State} {rest : List Reply}
    (h : s.bus.adcIn = okReply rx :: rest) :
    spiXfer .adc tx s = .ok (receivedBytes .adc tx.length rx)
      (s.setBus (adcBusAfter s.bus [adcFrameOk tx rx] rest)) := by
  have hn : s.bus.nextReply .adc = ⟨.ok rx, false⟩ := by simp [Buses.nextReply, Buses.replies, h]
  rw [spiXfer_ok hn, Buses.endXfer_adc, h]
  rfl

/-- Configuration writes whose transactions end well send their frames in order, and the rest goes on from there. -/
theorem adcConfigure_append (l m : List (BitVec 6 × AdcCfgEntry)) (rxs : List (List Byte)) (s : State)
    (rest : List Reply) (hl : rxs.length = l.length) (hb : s.bus.adcIn = rxs.map okReply ++ rest)
    (hcs : s.bus.csAdcN = true) :
    adcConfigure (l ++ m) s = adcConfigure m (s.setBus (adcBusAfter s.bus
      (List.zipWith adcFrameOk (l.map fun x => writeFrameBytes x.1 x.2.size.toNat x.2.value) rxs) rest)) := by
  induction l generalizing rxs s with
  | nil =>
    obtain rfl : rxs = [] := List.length_eq_zero_iff.mp hl
    have hs : adcBusAfter s.bus [] rest = s.bus := by
      simp only [List.map_nil, List.nil_append] at hb
      rw [adcBusAfter, ← hb, ← hcs, List.append_nil]
    simp only [List.nil_append, List.map_nil, List.zipWith_nil_left, hs]
    rfl
  | cons x l ih =>
    cases rxs with
    | nil => simp at hl
    | cons rx rxs =>
      have hx := spiXfer_adc_ok (tx := writeFrameBytes x.1 x.2.size.toNat x.2.value) hb
      have := ih rxs (s.setBus (adcBusAfter s.bus [adcFrameOk (writeFrameBytes x.1 x.2.size.toNat x.2.value) rx]
        (rxs.map okReply ++ rest))) (by simpa using hl) rfl rfl
      simp only [List.cons_append, adcConfigure, adcWriteFrame, hx, Flow.andThen_ok]
      refine this.trans ?_
      simp [adcBusAfter, State.setBus]

end Sys2Proof.Machine
end

