-- ==== Sys2Proof/Laws/Step.lean ====
section
/-! SUPPORT. Everything a command and a step can do: a command ends, hangs or is cut by reset; a step is an input or the
running command. -/

namespace Sys2Proof.Machine

/-! ### What each command leaves -/

@[simp] theorem exec_nop (s : State) : exec .nop s = .next s.commit := rfl
@[simp] theorem exec_update (c : ChanNo) (s : State) : exec (.update c) s = .next (s.tick c).commit := rfl
@[simp] theorem exec_updateAll (s : State) : exec .updateAll s = .next (s.tickEach [0, 1, 2, 3]).commit := rfl
@[simp] theorem exec_finalize (c : ChanNo) (s : State) : exec (.finalize c) s = .next (s.finalizeChan c).commit := rfl
@[simp] theorem exec_adcInit (s : State) : exec .adcInit s = .next (finish s (adcInitFlow s)) := rfl
@[simp] theorem exec_adcReset (s : State) : exec .adcReset s = .next (finish s (adcResetFlow s)) := rfl
@[simp] theorem exec_adcRead (a : BitVec 6) (n : BitVec 3) (s : State) :
    exec (.adcRead a n) s = .next (finish s (adcReadFlow a n s)) := rfl
@[simp] theorem exec_adcWrite (a : BitVec 6) (n : BitVec 3) (s : State) :
    exec (.adcWrite a n) s = .next (finish s (adcWriteFlow a n s)) := rfl
@[simp] theorem exec_adcReadData (s : State) : exec .adcReadData s = .next (finish s (adcReadDataFlow s)) := rfl
@[simp] theorem exec_dacInit (s : State) : exec .dacInit s = .next (finish s (dacInitFlow s)) := rfl
@[simp] theorem exec_dacSet (c : ChanNo) (src : DacSource) (s : State) :
    exec (.dacSet c src) s = .next (finish s (dacSetFlow c src s)) := rfl

/-- CAL in range. -/
theorem exec_cal_inRange {s : State} (h : calInRange s.cfg.params.calTable s.cal.vin = true) :
    exec .cal s = .next s.calStore.commit := by
  simp only [exec, execCal, calibrate, h, if_true, finish]

/-- CAL.T in range. -/
theorem exec_calT_inRange {s : State} (idx : Fin 16) (h : calInRange s.cfg.params.calTable s.cal.vin = true) :
    exec (.calT idx) s = .next (s.calStore.setTemp idx s.calStore.cal.tout).commit := by
  simp only [exec, execCalT, calibrate, h, if_true, finish]

/-- CAL and CAL.T out of range. -/
theorem exec_cal_outOfRange {s : State} {i : Instr} (hi : i = .cal ∨ ∃ idx, i = .calT idx)
    (h : calInRange s.cfg.params.calTable s.cal.vin = false) :
    exec i s = .next ((s.setCalOk false).flag .calOor).commit := by
  rcases hi with rfl | ⟨idx, rfl⟩ <;>
    simp only [exec, execCal, execCalT, calibrate, h, Bool.false_eq_true, if_false, raiseError, finish]

/-! ### Every command -/

/-- What every command leaves alone up to its commit: the configuration, the pin, the phase, CMD, ADC_WDATA, CAL_VIN,
DAC_CUR, the inputs, the last read's data, the draws, and each channel's operating state and staging registers. -/
def commandFrame (s t : State) : Prop :=
  t.cfg = s.cfg ∧ t.rstN = s.rstN ∧ t.seq = s.seq ∧ t.cmd = s.cmd ∧ t.adc.wdata = s.adc.wdata ∧
  t.cal.vin = s.cal.vin ∧ t.dacCur = s.dacCur ∧ t.inputs = s.inputs ∧ t.hRdata = s.hRdata ∧ t.draws = s.draws ∧
  ∀ c : ChanNo, t.ch[c].state = s.ch[c].state ∧ t.ch[c].stage = s.ch[c].stage

theorem commandFrame_refl (s : State) : commandFrame s s := by simp [commandFrame]

theorem commandFrame_tick (s : State) (c : ChanNo) : commandFrame s (s.tick c) := by
  refine ⟨rfl, rfl, rfl, rfl, rfl, rfl, rfl, rfl, rfl, rfl, fun j => ?_⟩
  by_cases h : j = c
  · subst h; simp only [State.tick_ch_same, tickChannel_state, tickChannel_stage, and_self]
  · rw [State.tick_ch_other h]; exact ⟨rfl, rfl⟩

theorem commandFrame_tickEach (s : State) (cs : List ChanNo) : commandFrame s (s.tickEach cs) := by
  induction cs generalizing s with
  | nil => exact commandFrame_refl s
  | cons c cs ih =>
    obtain ⟨h1, h2, h3, h4, h5, h6, h7, h8, h9, h10, h11⟩ := ih (s.tick c)
    obtain ⟨_, _, _, _, _, _, _, _, _, _, k11⟩ := commandFrame_tick s c
    exact ⟨h1, h2, h3, h4, h5, h6, h7, h8, h9, h10,
      fun j => ⟨(h11 j).1.trans (k11 j).1, (h11 j).2.trans (k11 j).2⟩⟩

theorem commandFrame_finalizeChan (s : State) (c : ChanNo) : commandFrame s (s.finalizeChan c) := by
  have hch : ∀ j : ChanNo, (s.finalizeChan c).ch[j].state = s.ch[j].state ∧
      (s.finalizeChan c).ch[j].stage = s.ch[j].stage := by
    intro j
    by_cases h : j = c
    · subst h; simp only [State.finalizeChan_ch_same, finalizeChannel_state, finalizeChannel_stage, and_self]
    · rw [State.finalizeChan_ch_other h]; exact ⟨rfl, rfl⟩
  refine ⟨by simp, by simp, ?_, ?_, ?_, ?_, ?_, by simp, ?_, ?_, hch⟩ <;>
    (unfold State.finalizeChan; split <;> rfl)

/-- The result a command in `exec`'s table leaves, before `finish`: the flow of its body. -/
def commandFlow (i : Instr) (s : State) : Flow Unit :=
  match i with
  | .nop => .ok () s
  | .update c => .ok () (s.tick c)
  | .updateAll => .ok () (s.tickEach [0, 1, 2, 3])
  | .finalize c => .ok () (s.finalizeChan c)
  | .cal => calibrate (fun t => t) s
  | .calT idx => calibrate (fun t => t.setTemp idx t.cal.tout) s
  | .adcInit => adcInitFlow s
  | .adcReset => adcResetFlow s
  | .adcRead a n => adcReadFlow a n s
  | .adcWrite a n => adcWriteFlow a n s
  | .adcReadData => adcReadDataFlow s
  | .dacInit => dacInitFlow s
  | .dacSet c src => dacSetFlow c src s

/-- Every command is the finish of its flow. -/
theorem exec_eq (i : Instr) (s : State) : exec i s = .next (finish s (commandFlow i s)) := by
  cases i <;> rfl

/-- What holds all along a command: a property that the serial operations keep, and that the bodies of the other
commands have. -/
theorem commandFlow_ends {P Q : State → Prop} (hc : SerialClosed P Q) {s : State} (hs : P s)
    (htick : ∀ c, P (s.tick c)) (htickAll : P (s.tickEach [0, 1, 2, 3])) (hfin : ∀ c, P (s.finalizeChan c))
    (hcal : P s.calStore) (hcalT : ∀ idx, P (s.calStore.setTemp idx s.calStore.cal.tout))
    (hoor : P ((s.setCalOk false).flag .calOor)) (i : Instr) : (commandFlow i s).ends P Q := by
  cases i with
  | nop => exact hs
  | update c => exact htick c
  | updateAll => exact htickAll
  | finalize c => exact hfin c
  | cal =>
    simp only [commandFlow, calibrate, raiseError]
    split
    · exact hcal
    · exact hoor
  | calT idx =>
    simp only [commandFlow, calibrate, raiseError]
    split
    · exact hcalT idx
    · exact hoor
  | adcInit => exact hc.adcInitFlow hs
  | adcReset => exact hc.adcResetFlow hs
  | adcRead a n => exact hc.adcReadFlow hs a n
  | adcWrite a n => exact hc.adcWriteFlow hs a n
  | adcReadData => exact hc.adcReadDataFlow hs
  | dacInit => exact hc.dacInitFlow hs
  | dacSet c src => exact hc.dacSetFlow hs c src

theorem commandFrame_closed (s : State) : SerialClosed (commandFrame s) (commandFrame s) where
  endXfer _ _ _ _ h := h
  stall _ _ _ h := h
  flag _ _ h := h
  ready _ _ h := h
  code _ _ _ h := h
  adc _ _ hr h := by
    obtain ⟨h1, h2, h3, h4, h5, h6⟩ := h
    exact ⟨h1, h2, h3, h4, hr.trans h5, h6⟩

/-- Every command, at every point where it stands, has left the command frame alone. -/
theorem commandFlow_frame (i : Instr) (s : State) : (commandFlow i s).ends (commandFrame s) (commandFrame s) :=
  commandFlow_ends (commandFrame_closed s) (commandFrame_refl s) (commandFrame_tick s) (commandFrame_tickEach s _)
    (commandFrame_finalizeChan s) (commandFrame_refl s) (fun _ => commandFrame_refl s) (commandFrame_refl s) i

/-- Everything a command can do, in one place: it ends (with or without a raise), it never returns, or reset cuts it. -/
theorem exec_cases (i : Instr) (s : State) :
    (∃ u, commandFrame s u ∧ exec i s = .next u.commit) ∨
    (∃ b, exec i s = .next (s.setBus b)) ∨
    (∃ b, exec i s = .next (s.setBus b).enterReset) := by
  have h := commandFlow_frame i s
  rw [exec_eq]
  cases hf : commandFlow i s with
  | ok a u => rw [hf] at h; exact .inl ⟨u, h, rfl⟩
  | raised u => rw [hf] at h; exact .inl ⟨u, h, rfl⟩
  | hung u => exact .inr (.inl ⟨u.bus, rfl⟩)
  | resetHit u => exact .inr (.inr ⟨u.bus, rfl⟩)

/-! ### Every step -/

theorem sequencerTurn_run {s : State} {i : Instr} (hr : s.rstN = true) (hq : s.seq = .busy i)
    (hb : s.bus.inFlight = none) : sequencerTurn s = .run i s := by
  simp only [sequencerTurn, hr, hq, hb]

/-- Everything the sequencer's turn can be. -/
theorem sequencerTurn_cases (s : State) :
    (∃ i, s.rstN = true ∧ s.seq = .busy i ∧ s.bus.inFlight = none ∧ sequencerTurn s = .run i s) ∨
    sequencerTurn s = .moved s := by
  unfold sequencerTurn
  split
  · next i h1 h2 h3 => exact .inl ⟨i, h1, h2, h3, rfl⟩
  · exact .inr rfl

theorem step_hostRead {s : State} {a : HostAddr} {rest : List Input} (h : s.inputs = .hostRead a :: rest) :
    step s = .next ((s.setInputs rest).hostRead a) := by simp only [step, nextTurn, h]
theorem step_hostWrite {s : State} {a : HostAddr} {v : Word} {rest : List Input}
    (h : s.inputs = .hostWrite a v :: rest) : step s = .next ((s.setInputs rest).hostWrite a v) := by
  simp only [step, nextTurn, h]
theorem step_rstPin {s : State} {b : Bool} {rest : List Input} (h : s.inputs = .rstPin b :: rest) :
    step s = .next ((s.setInputs rest).setRstPin b) := by simp only [step, nextTurn, h]

/-- Everything a step can be: nobody moves, a host access, a level of the reset pin, or the running command. -/
theorem step_cases (s : State) :
    (∃ l, step s = .next (s.setInputs l)) ∨
    (∃ a rest, s.inputs = .hostRead a :: rest ∧ step s = .next ((s.setInputs rest).hostRead a)) ∨
    (∃ a v rest, s.inputs = .hostWrite a v :: rest ∧ step s = .next ((s.setInputs rest).hostWrite a v)) ∨
    (∃ b rest, s.inputs = .rstPin b :: rest ∧ step s = .next ((s.setInputs rest).setRstPin b)) ∨
    (∃ i l, s.rstN = true ∧ s.seq = .busy i ∧ s.bus.inFlight = none ∧ step s = exec i (s.setInputs l)) := by
  have hturn : ∀ l, nextTurn s = sequencerTurn (s.setInputs l) →
      (∃ l, step s = .next (s.setInputs l)) ∨
      (∃ i l, s.rstN = true ∧ s.seq = .busy i ∧ s.bus.inFlight = none ∧ step s = exec i (s.setInputs l)) := by
    intro l hl
    rcases sequencerTurn_cases (s.setInputs l) with ⟨i, h1, h2, h3, h4⟩ | h4
    · exact .inr ⟨i, l, h1, h2, h3, by simp only [step, hl, h4]⟩
    · exact .inl ⟨l, by simp only [step, hl, h4]⟩
  cases hi : s.inputs with
  | nil =>
    have hs : s.setInputs [] = s := by rw [← hi]; rfl
    rcases hturn [] (by simp only [nextTurn, hi, hs]) with h | h
    · exact .inl h
    · exact .inr (.inr (.inr (.inr h)))
  | cons x rest =>
    cases x with
    | hostRead a => exact .inr (.inl ⟨a, rest, rfl, step_hostRead hi⟩)
    | hostWrite a v => exact .inr (.inr (.inl ⟨a, v, rest, rfl, step_hostWrite hi⟩))
    | rstPin b => exact .inr (.inr (.inr (.inl ⟨b, rest, rfl, step_rstPin hi⟩)))
    | sequencer =>
      rcases hturn rest (by simp only [nextTurn, hi]) with h | h
      · exact .inl h
      · exact .inr (.inr (.inr (.inr h)))

/-! ### Reset -/

/-- Every register but STATUS reads in a block in reset what it reads right after reset, and STATUS reads 0 in both. -/
theorem Reg.read_enterReset (r : Reg) (s : State) : r.read s.enterReset = r.read (State.resetOf s.cfg) := by
  cases r <;> rfl
theorem Reg.read_leaveReset (r : Reg) (s : State) : r.read s.leaveReset = r.read (State.resetOf s.cfg) := by
  cases r <;> rfl

end Sys2Proof.Machine
end

