-- ==== Sys2Proof/Tests/Slice0.lean ====
section
/-! SUPPORT. Tests of single steps, and for every statement with hypotheses a concrete state that meets them.

Expected values are those of 95_test_vectors.md, whose numbers (A1, D21, K5, F2, U1, ...) the comments name; a test with
no such number is calculated by hand from the rule it names. All tests run under the test configuration of §1. -/

open Sys2Proof Sys2Proof.Machine

namespace Sys2Proof.Tests

set_option Elab.async false

/-! ### WellFormed -/

theorem test_wf_refuses_read_of_zero_bytes : Instr.wf (.adcRead 0x07 0) = false := by decide
theorem test_wf_refuses_read_of_five_bytes : Instr.wf (.adcRead 0x07 5) = false := by decide
theorem test_wf_accepts_read_of_four_bytes : Instr.wf (.adcRead 0x3F 4) = true := by decide
theorem test_wf_refuses_write_of_zero_bytes : Instr.wf (.adcWrite 0x01 0) = false := by decide
theorem test_wf_refuses_write_of_four_bytes : Instr.wf (.adcWrite 0x01 4) = false := by decide
theorem test_wf_accepts_write_of_three_bytes : Instr.wf (.adcWrite 0x01 3) = true := by decide

/-! ### Decoding: one word of each constructor, laid out by rules R54 to R56 -/

theorem test_decode_nop : decode 0b00000_000_00000000_0000_0_0_00_00000000#32 = .ok .nop := by decide
theorem test_decode_update : decode 0b00000_000_00000000_0000_0_0_11_00000001#32 = .ok (.update 3) := by decide
theorem test_decode_updateAll : decode 0b00000_000_00000000_0000_0_0_00_00000010#32 = .ok .updateAll := by decide
theorem test_decode_finalize : decode 0b00000_000_00000000_0000_0_0_10_00000011#32 = .ok (.finalize 2) := by decide
theorem test_decode_cal : decode 0b00000_000_00000000_0000_0_0_00_00010000#32 = .ok .cal := by decide
theorem test_decode_calT : decode 0b00000_000_00001001_0000_1_0_00_00010000#32 = .ok (.calT 9) := by decide
theorem test_decode_adcInit : decode 0b00000_000_00000000_0000_0_0_00_00100000#32 = .ok .adcInit := by decide
theorem test_decode_adcReset : decode 0b00000_000_00000000_0000_0_0_00_00100001#32 = .ok .adcReset := by decide
theorem test_decode_adcRead :
    decode 0b00000_100_00000100_0000_0_0_00_00100010#32 = .ok (.adcRead 0x04 4) := by decide
theorem test_decode_adcWrite :
    decode 0b00000_001_00110000_0000_0_0_00_00100011#32 = .ok (.adcWrite 0x30 1) := by decide
theorem test_decode_adcReadData : decode 0b00000_000_00000000_0000_0_0_00_00100100#32 = .ok .adcReadData := by decide
theorem test_decode_dacInit : decode 0b00000_000_00000000_0000_0_0_00_00110000#32 = .ok .dacInit := by decide
theorem test_decode_dacSet :
    decode 0b00000_000_00000000_0000_0_1_11_00110001#32 = .ok (.dacSet 3 .out) := by decide

/-- The illegal words of 95_test_vectors.md §3.1. -/
theorem test_decode_refuses :
    ([0x00000401#32, 0x00000102#32, 0x00030010#32, 0x00100810#32, 0x00000110#32, 0x00070022#32, 0x05070022#32,
      0x00470022#32, 0x01470022#32, 0x02870022#32, 0x04010023#32, 0x00000831#32, 0x00001000#32, 0x08000000#32,
      0x00000004#32, 0x00000025#32, 0x000000FF#32].all fun w => (decode w).toOption.isNone) = true := by decide +kernel

/-! ### States to test on -/

/-- The machine right after reset, under the test configuration. -/
def base : State := State.resetOf testConfig

/-- The state an outcome leaves. -/
def after (o : Host.Outcome State Fault Refusal) : State :=
  match o with
  | .next t => t
  | .fault _ => base
  | .refused _ => base

/-- `base` with answers of the ADC, ADC_READY as given. -/
def withAdc (ready : Bool) (l : List Reply) : State :=
  { base.setAdcReady ready with bus := { resetBuses with adcIn := l } }

/-- `base` with answers of the DAC. -/
def withDac (l : List Reply) : State := { base with bus := { resetBuses with dacIn := l } }

/-- `base` with a command running and nothing left to do but it. -/
def running (i : Instr) : State := { base with cmd := encode i, seq := .busy i }

/-- `base` with the given inputs to come. -/
def facing (l : List Input) : State := { base with inputs := l }

/-- The answers of a whole ADC_INIT of the simulated ADC. -/
def initAnswers : List (List Byte) := [] :: [0x00#8, 0x00#8, 0xD5#8] :: List.replicate 8 []

/-- The staging values of vector F2. -/
def stageF2 : Stage :=
  { resetStage with
    kp := 0x3F800000#32, setpoint := 0x41C80000#32, pmin := 0xC47A0000#32, pmax := 0x447A0000#32,
    vlim := 0x40A00000#32, ws := resetStage.ws.set 0 0x3F800000#32 }

/-- `base` with channel `c` staged and in an operating state. -/
def staged (c : ChanNo) (q : ChState) (g : Stage) : State := base.setChan c { base.ch[c] with state := q, stage := g }

/-! ### One step of each command -/

/-- Rule R60 (vector H18). -/
theorem test_nop : after (exec .nop (running .nop)) = { base with draws := 1 } := by decide +kernel

/-- Vectors F2 and U1. -/
theorem test_update_on :
    (after (exec (.update 0) ((after (exec (.finalize 0) (staged 0 .on stageF2))).setTemp 0 0x41D00000#32))).ch[0].out
      = 0x3F800000#32 := by decide +kernel

/-- Vector U4 with Y1 of its own: Hold keeps OUT at Y1 and still writes MIX. -/
theorem test_update_hold :
    (after (exec (.update 1) (base.setChan 1
      { base.ch[1] with state := .hold, fstate := ⟨0, 0, 0xBF000000#32, 0⟩ }))).ch[1].out = 0xBF000000#32 := by
  decide +kernel

/-- 95_test_vectors.md §3.7: UPDATE_ALL from reset changes nothing. -/
theorem test_updateAll_reset : after (exec .updateAll base) = { base with draws := 1 } := by decide +kernel

/-- Rule R100: each channel has its own hold value. -/
theorem test_updateAll_hold :
    (after (exec .updateAll ((base.setChan 0 { base.ch[0] with fstate := ⟨0, 0, 0x3F800000#32, 0⟩ }).setChan 3
      { base.ch[3] with fstate := ⟨0, 0, 0xC0000000#32, 0⟩ }))).ch.map (·.out)
      = #v[0x3F800000#32, 0#32, 0#32, 0xC0000000#32] := by decide +kernel

/-- The corner cases of rule R102 with PWM_MAX_V = 4.0, and rule R13 for bounds that are out of order. -/
theorem test_clampf :
    [0x7FC00000#32, 0x80000000#32, 0x7F800000#32, 0x40400000#32].map (clampf 0 0 · 0x00000000#32 0x40800000#32)
      = [0x00000000#32, 0x00000000#32, 0x40800000#32, 0x40400000#32] ∧
    clampf 0 0 0x00000000#32 0x3FC00000#32 0xBFC00000#32 = 0xBFC00000#32 := by decide +kernel

/-- STATE written 1, On (rule R26): the next UPDATE runs the filter, and X1 takes the offset of vector F2. -/
theorem test_state_write_on :
    let s := (after (exec (.finalize 0) (staged 0 .off stageF2))).setInputs [.hostWrite 0x0100#16 1#32]
    (after (exec (.update 0) (after (step s)))).ch[0].fstate.x1 = 0xC1C80000#32 := by decide +kernel

/-- Vector F2. -/
theorem test_finalize :
    (after (exec (.finalize 0) (staged 0 .off stageF2))).ch[0].live.filter
      = ⟨0x3F800000#32, 0, 0, 0, 0, 0xC1C80000#32, 0xC0000000#32, 0x40000000#32⟩ := by decide +kernel

/-- Vector F6: a setpoint that is not finite is rejected. -/
theorem test_finalize_rejects :
    (after (exec (.finalize 1) (staged 1 .off { stageF2 with setpoint := 0x7F800000#32 }))).status
      = 0x00200000#32 := by decide +kernel

/-- Vector K6. -/
theorem test_cal :
    (after (exec .cal (base.setCal { resetCal with vin := 0x3F99999A#32 }))).cal
      = ⟨0x3F99999A#32, 0x431B9998#32, 76#8⟩ := by decide +kernel

/-- 95_test_vectors.md §3.5, the last command form. -/
theorem test_cal_out_of_range :
    (after (exec .cal ({ base with status := 0x00000004#32 }.setCal { resetCal with vin := 0x40000000#32 }))).status
      = 0x00010000#32 := by decide +kernel

/-- Vector K5 in the form CALW 0. -/
theorem test_calT :
    (after (exec (.calT 0) (base.setCal { resetCal with vin := 0x3FBA0000#32 }))).temp[0] = 0x41D00000#32 := by
  decide +kernel

/-- 95_test_vectors.md §3.5, CALW 5 out of range. -/
theorem test_calT_out_of_range :
    (after (exec (.calT 5) (base.setCal { resetCal with vin := 0x40000000#32 }))).status = 0x00010000#32 := by
  decide +kernel

/-- Vector A1. -/
theorem test_adcInit :
    let t := after (exec .adcInit (withAdc false (initAnswers.map okReply)))
    t.status = 0x00000002#32 ∧ t.adc.id = 0x00D5#16 ∧
    t.bus.adcLog.map (·.tx) = [List.replicate 8 0xFF#8, [0x47#8, 0x00#8, 0x00#8],
      [0x01#8, 0xC0#8, 0x01#8], [0x02#8, 0xC0#8, 0x02#8], [0x10#8, 0xC0#8, 0x10#8], [0x11#8, 0xC0#8, 0x11#8],
      [0x20#8, 0xC0#8, 0x20#8], [0x21#8, 0xC0#8, 0x21#8], [0x28#8, 0xC0#8, 0x28#8], [0x29#8, 0xC0#8, 0x29#8]] := by
  decide +kernel

/-- Vector A2. -/
theorem test_adcInit_identity :
    let t := after (exec .adcInit (withAdc false [okReply [], okReply [0x00#8, 0x00#8, 0xA0#8]]))
    t.status = 0x00002000#32 ∧ t.adc.id = 0x00A0#16 := by decide +kernel

/-- Vector A10. -/
theorem test_adcReset :
    let t := after (exec .adcReset (withAdc true [okReply []]))
    t.status = 0x00000002#32 ∧ t.bus.adcLog.map (·.tx) = [List.replicate 8 0xFF#8] := by decide +kernel

/-- Vector A11. -/
theorem test_adcRead :
    let t := after (exec (.adcRead 0x07 2) (withAdc true [okReply [0x5A#8, 0x00#8, 0xD5#8]]))
    t.adc.rdata = 0x000000D5#32 ∧ t.bus.adcLog.map (·.tx) = [[0x47#8, 0x00#8, 0x00#8]] := by decide +kernel

/-- Vector A4. -/
theorem test_adcRead_not_ready : (after (exec (.adcRead 0x07 2) base)).status = 0x00004000#32 := by decide +kernel

/-- Worked example E11. -/
theorem test_adcWrite :
    let t := after (exec (.adcWrite 0x01 2)
      ((withAdc true [okReply []]).setAdc { resetAdc with wdata := 0x12345678#32 }))
    t.bus.adcLog.map (·.tx) = [[0x01#8, 0x56#8, 0x78#8]] ∧ t.status = 0x00000002#32 := by decide +kernel

/-- Vector A8. -/
theorem test_adcReadData :
    let t := after (exec .adcReadData (withAdc true [okReply [0x00#8, 0x12#8, 0x34#8, 0x56#8, 0x01#8]]))
    t.adc.data = 0x123456#24 ∧ t.adc.tag = 0x01#8 := by decide +kernel

/-- Vector A16. -/
theorem test_adcReadData_fault : (after (exec .adcReadData (withAdc true [faultReply]))).status = 0x00000802#32 := by
  decide +kernel

/-- Vector D25. -/
theorem test_dacInit :
    let t := after (exec .dacInit (withDac (List.replicate 4 (okReply []))))
    t.dacCode = Vector.replicate 4 0x60000#20 ∧
    t.bus.dacLog.map (fun f => (f.line, f.tx)) =
      [(.dac 0, [0x06#8, 0#8, 0#8]), (.dac 1, [0x06#8, 0#8, 0#8]), (.dac 2, [0x06#8, 0#8, 0#8]),
        (.dac 3, [0x06#8, 0#8, 0#8])] := by decide +kernel

/-- Vector D26. -/
theorem test_dacInit_fault :
    let t := after (exec .dacInit (withDac [okReply [], okReply [], faultReply]))
    t.dacCode = #v[0x60000#20, 0x60000#20, 0#20, 0#20] ∧ t.status = 0x00001000#32 := by decide +kernel

/-- Vector D21. -/
theorem test_dacSet :
    let t := after (exec (.dacSet 1 .dacCur) ((withDac [okReply []]).setDacCur 1 0x3F800000#32))
    t.dacCode[1] = 0x88000#20 ∧
    t.bus.dacLog.map (fun f => (f.line, f.tx)) = [(.dac 1, [0x08#8, 0x80#8, 0x00#8])] := by decide +kernel

/-- Vector D22. -/
theorem test_dacSet_bounds :
    (after (exec (.dacSet 2 .dacCur) (base.setDacCur 2 0x40800000#32))).status = 0x00008000#32 := by decide +kernel

/-! ### The current-to-code conversion -/

/-- Vector D9: 393216.5 exactly, a tie that goes away from zero. -/
theorem test_dacCode_tie : dacCodeFrom testParams 0x364CCCCD#32 = some 0x60001#20 := by decide +kernel

/-- Vectors D11, D12, D16, D17: the ends of the range. -/
theorem test_dacCode_ends :
    [0xC01999A5#32, 0xC01999A6#32, 0x407FFFF2#32, 0x407FFFF3#32].map (dacCodeFrom testParams)
      = [some 0#20, none, some 0xFFFFF#20, none] := by decide +kernel

/-! ### Host accesses and reset -/

/-- Vector S2: reset after the identity read of ADC_INIT. -/
theorem test_reset_in_adcInit :
    let t := after (exec .adcInit (withAdc true [okReply [], ⟨.ok [0x00#8, 0x00#8, 0xD5#8], true⟩]))
    t.rstN = false ∧ t.adc.id = 0#16 ∧ t.status = 0#32 ∧ t.bus.csAdcN = true := by decide +kernel

/-- Vector H9. -/
theorem test_status_write :
    (after (step { facing [.hostWrite 0x0004#16 0x00004100#32] with status := 0x0023C500#32 })).status
      = 0x00238400#32 := by decide +kernel

/-- Vector H2. -/
theorem test_misaligned_read :
    let t := after (step (facing [.hostRead 0x0102#16]))
    t.hRdata = 0#32 ∧ t.status = 0x00000400#32 := by decide +kernel

/-- Vector H5: MAXCUR of the test configuration. -/
theorem test_maxCurrent : Reg.read .maxCur base = 0x407FFFE6#32 := by decide +kernel

/-- Rule R80 where PWM_MAX_I is 8.0 and so above MAX_CURRENT, and where it is 2.0 and so below. -/
theorem test_cSafe :
    cSafe { testParams with pwmMaxI := 0x41000000#32 } = 0x407FFFE6#32 ∧ cSafe testParams = 0x40000000#32 := by
  decide +kernel

/-- 95_test_vectors.md §1: the advisory limits at reset. -/
theorem test_reset_limits : (base.ch[2].live.ilimUp, base.ch[2].live.ilimLo) = (0x40066666#32, 0xC0066666#32) := by
  decide +kernel

/-- 95_test_vectors.md §3.1: an illegal word written to CMD. -/
theorem test_illegal_word : (after (step (facing [.hostWrite 0#16 0x04010023#32]))).status = 0x00000100#32 := by
  decide +kernel

/-- The word of an opcode-table row is the one the next step runs. -/
theorem test_fetch_word :
    (after (step (State.reset.withFetchWord 32 0x00000021))).bus.inFlight = some (.adc, List.replicate 8 0xFF#8) := by
  decide +kernel

/-! ### Witnesses: a state and operands that meet the hypotheses of each statement, one theorem for each clause -/

theorem witness_DecodeEncodeAgree : Instr.wf (.adcRead 0x3F 4) = true := by decide
theorem witness_AcceptedWordsEncodeBack : decode 0x043F0022#32 = .ok (.adcRead 0x3F 4) := by decide
theorem witness_RegisterAddressesAgree_first : decodeAddr 0x0000#16 = some .cmd := by decide +kernel
theorem witness_RegisterAddressesAgree_last : decodeAddr 0x18F8#16 = some (.cal 143 .s) := by decide +kernel

theorem witness_AcceptedWordIsRun :
    let s := facing [.hostWrite 0x0000#16 0x00000731#32, .sequencer]
    s.rstN = true ∧ s.seq = .idle ∧ s.bus.inFlight = none ∧ decode 0x00000731#32 = .ok (.dacSet 3 .out) ∧
    s.inputs = .hostWrite 0x0000#16 0x00000731#32 :: .sequencer :: [] := by decide +kernel

theorem witness_StepRunsTheBusyCommand_turn :
    let s := { running .updateAll with inputs := [.sequencer] }
    s.rstN = true ∧ s.seq = .busy .updateAll ∧ s.bus.inFlight = none ∧ s.inputs = .sequencer :: [] := by decide +kernel
theorem witness_StepRunsTheBusyCommand_end :
    (running .updateAll).rstN = true ∧ (running .updateAll).seq = .busy .updateAll ∧
    (running .updateAll).bus.inFlight = none ∧ (running .updateAll).inputs = [] := by decide +kernel

theorem witness_IllegalWordOnlySetsItsBit :
    let s := facing [.hostWrite 0x0000#16 0x05070022#32]
    s.rstN = true ∧ s.seq = .idle ∧ legalWord 0x05070022#32 = false ∧
    s.inputs = .hostWrite 0x0000#16 0x05070022#32 :: [] := by decide +kernel

theorem witness_HostReadsReturnRegisters_mapped :
    let s := facing [.hostRead 0x18F8#16]
    s.rstN = true ∧ s.inputs = .hostRead 0x18F8#16 :: [] ∧ decodeAddr 0x18F8#16 = some (.cal 143 .s) := by
  decide +kernel
theorem witness_HostReadsReturnRegisters_unmapped :
    let s := facing [.hostRead 0x18FC#16]
    s.rstN = true ∧ s.inputs = .hostRead 0x18FC#16 :: [] ∧ decodeAddr 0x18FC#16 = none := by decide +kernel

theorem witness_BusyWritesAreIgnored_write :
    let s := { running (.update 0) with inputs := [.hostWrite 0xFFFF#16 0#32] }
    s.rstN = true ∧ s.isBusy = true ∧ s.inputs = .hostWrite 0xFFFF#16 0#32 :: [] := by decide +kernel
theorem witness_BusyWritesAreIgnored_read :
    let s := { running (.update 0) with inputs := [.hostRead 0x0104#16] }
    s.rstN = true ∧ s.isBusy = true ∧ decodeAddr 0x0104#16 = some (.chan 0 .out) ∧
    s.inputs = .hostRead 0x0104#16 :: [] := by decide +kernel

theorem witness_BadWritesOnlySetAccErr_misaligned :
    let s := facing [.hostWrite 0x0001#16 0#32]
    s.rstN = true ∧ s.seq = .idle ∧ s.inputs = .hostWrite 0x0001#16 0#32 :: [] ∧ (0x0001#16).toNat % 4 ≠ 0 := by
  decide +kernel
theorem witness_BadWritesOnlySetAccErr_readOnly :
    let s := facing [.hostWrite 0x18F8#16 0#32]
    s.rstN = true ∧ s.seq = .idle ∧ s.inputs = .hostWrite 0x18F8#16 0#32 :: [] ∧
    ((Reg.cal 143 .s).addr = (0x18F8#16).toNat ∧ (Reg.cal 143 .s).readOnly = true) := by decide +kernel
theorem witness_BadWritesOnlySetAccErr_unmapped :
    let s := facing [.hostWrite 0xFFFC#16 0#32]
    s.rstN = true ∧ s.seq = .idle ∧ s.inputs = .hostWrite 0xFFFC#16 0#32 :: [] ∧
    (∀ r : Reg, r.addr ≠ (0xFFFC#16).toNat) := by
  refine ⟨rfl, rfl, rfl, fun r => ?_⟩
  have h : (0xFFFC#16).toNat = 65532 := rfl
  rw [h]
  cases r with
  | chan c q => have := c.isLt; cases q <;> simp only [Reg.addr, ChanReg.offset] <;> omega
  | cal k col => have := k.isLt; cases col <;> simp only [Reg.addr, CalColumn.offset] <;> omega
  | _ => simp only [Reg.addr]; omega

theorem witness_PlainWritesStoreTheirValue :
    let r : Reg := .chan 3 (.ws 15)
    let s := facing [.hostWrite r.hostAddr 0x7FC00001#32]
    s.rstN = true ∧ s.seq = .idle ∧ s.inputs = .hostWrite r.hostAddr 0x7FC00001#32 :: [] ∧ r.readOnly = false ∧
    r ≠ .cmd ∧ r ≠ .status ∧ (∀ c, r ≠ .chan c .state) := by decide +kernel

theorem witness_StatusWriteClearsWrittenOnes :
    let s := facing [.hostWrite 0x0004#16 0xFFFFFFFF#32]
    s.rstN = true ∧ s.seq = .idle ∧ s.inputs = .hostWrite 0x0004#16 0xFFFFFFFF#32 :: [] := by decide +kernel

theorem witness_StateWritesAreChecked_legal :
    let s := facing [.hostWrite (Reg.hostAddr (.chan 1 .state)) 2#32]
    s.rstN = true ∧ s.seq = .idle ∧ s.inputs = .hostWrite (Reg.hostAddr (.chan 1 .state)) 2#32 :: [] ∧
    (2#32).toNat ≤ 2 := by decide +kernel
theorem witness_StateWritesAreChecked_illegal :
    let s := facing [.hostWrite (Reg.hostAddr (.chan 1 .state)) 3#32]
    s.rstN = true ∧ s.seq = .idle ∧ s.inputs = .hostWrite (Reg.hostAddr (.chan 1 .state)) 3#32 :: [] ∧
    2 < (3#32).toNat := by decide +kernel

theorem witness_ResetAbandonsEverything_pin :
    ({ running .adcInit with inputs := [.rstPin false] }).inputs = .rstPin false :: [] := by decide +kernel
/-- The pin falls after the first transaction of a command, which fails. -/
theorem witness_ResetAbandonsEverything_first :
    let s := withAdc true [⟨.fault, true⟩]
    (serialFrames .adcReset s)[([] : List (List Byte)).length]? = some (.adc, List.replicate 8 0xFF#8) ∧
    XferResult.fault ≠ .stall ∧ s.bus.replies .adc = ([] : List (List Byte)).map okReply ++ ⟨.fault, true⟩ :: [] := by
  decide +kernel
/-- The pin falls after the last transaction of ADC_INIT, which ends well. -/
theorem witness_ResetAbandonsEverything_last :
    let rxs : List (List Byte) := [] :: [0#8, 0#8, 0xD5#8] :: List.replicate 7 []
    let s := withAdc false (rxs.map okReply ++ ⟨.ok [], true⟩ :: [])
    (serialFrames .adcInit s)[rxs.length]? = some (.adc, [0x29#8, 0xC0#8, 0x29#8]) ∧ identityPassed .adcInit rxs ∧
    XferResult.ok [] ≠ .stall ∧ s.bus.replies .adc = rxs.map okReply ++ ⟨.ok [], true⟩ :: [] :=
  ⟨by decide +kernel, fun _ rx h => by
    obtain rfl : [0#8, 0#8, 0xD5#8] = rx := by simpa using h
    decide +kernel, by decide, by decide +kernel⟩
theorem witness_ResetIgnoresTheHost_read :
    ({ base.enterReset with inputs := [.hostRead 4#16] }).rstN = false ∧
    ({ base.enterReset with inputs := [.hostRead 4#16] }).inputs = .hostRead 4#16 :: [] := by decide +kernel
theorem witness_ResetIgnoresTheHost_write :
    ({ base.enterReset with inputs := [.hostWrite 0#16 1#32] }).rstN = false ∧
    ({ base.enterReset with inputs := [.hostWrite 0#16 1#32] }).inputs = .hostWrite 0#16 1#32 :: [] := by decide +kernel
theorem witness_ResetIgnoresTheHost_pin :
    ({ base.enterReset with inputs := [.rstPin true] }).rstN = false ∧
    ({ base.enterReset with inputs := [.rstPin true] }).inputs = .rstPin true :: [] := by decide +kernel
theorem witness_FinalizeFromResetChangesNothing : testConfig.params.pwmMaxV ≠ 0x80000000#32 := by decide +kernel

/-- The state in which STATE reads 1 is the one that rule R26 names On. -/
theorem witness_UpdateOnRunsTheBiquad : Reg.read (.chan 0 .state) (staged 0 .on stageF2) = 1#32 := by decide +kernel
theorem witness_UpdateHoldsWhenNotOn_hold : Reg.read (.chan 3 .state) (staged 3 .hold stageF2) ≠ 1#32 := by decide +kernel
theorem witness_UpdateHoldsWhenNotOn_off : Reg.read (.chan 3 .state) (staged 3 .off stageF2) ≠ 1#32 := by decide +kernel
theorem witness_UpdateAllUpdatesEachChannel : exec (.update 2) base = .next (after (exec (.update 2) base)) := rfl
theorem witness_TickOrderIsImmaterial : ([3, 1, 0, 2] : List ChanNo).Perm [0, 1, 2, 3] := by decide +kernel

theorem witness_FinalizeInstallsAcceptedBuild :
    buildFilter pidKernel (staged 0 .off stageF2).ch[(0 : ChanNo)].stage =
      some ⟨0x3F800000#32, 0, 0, 0, 0, 0xC1C80000#32, 0xC47A0000#32, 0x447A0000#32⟩ := by decide +kernel
theorem witness_FinalizeKeepsFilterOnReject :
    buildFilter pidKernel (staged 3 .off { stageF2 with setpoint := 0x7FC00000#32 }).ch[(3 : ChanNo)].stage = none := by
  decide +kernel
theorem witness_FinalizeNormalizesWeights_sum :
    exec (.finalize 0) (staged 0 .off stageF2) = .next (after (exec (.finalize 0) (staged 0 .off stageF2))) := rfl
/-- The hypotheses of the normalization's second clause: an absolute sum of zero from weights of either zero. -/
theorem witness_FinalizeNormalizesWeights_zero :
    weightSum (fun _ => 0) (resetStage.ws.set 1 0x80000000#32) = 0x00000000#32 := by decide +kernel

/-- Gains and limits as BuildFilterFollowsItsRule aligns them, KP negative, LI finite and LD not. -/
def stageSigns : Stage :=
  { stageF2 with kp := 0xBF800000#32, ki := 0x3F000000#32, kd := 0x00000000#32, li := 0x40A00000#32 }

theorem witness_BuildFilterFollowsItsRule :
    signBit 0xBF000000#32 = signBit stageSigns.kp ∧ 0xBF000000#32 &&& 0x7FFFFFFF#32 = stageSigns.ki &&& 0x7FFFFFFF#32 ∧
    signBit 0x80000000#32 = signBit stageSigns.kp ∧ 0x80000000#32 &&& 0x7FFFFFFF#32 = stageSigns.kd &&& 0x7FFFFFFF#32 ∧
    isFinite stageSigns.li = true ∧ signBit 0xC0A00000#32 = signBit stageSigns.kp ∧
    0xC0A00000#32 &&& 0x7FFFFFFF#32 = stageSigns.li &&& 0x7FFFFFFF#32 ∧ isFinite stageSigns.ld = false := by
  decide +kernel
theorem witness_BuildFilterFollowsItsRule_reject :
    (fun _ _ _ _ _ _ => none : PidKernel) 0xBF800000#32 0xBF000000#32 0x80000000#32 0xC0A00000#32 0x7F800000#32
      0x3A82292F#32 = none := rfl
theorem witness_BuildFilterFollowsItsRule_accept :
    (fun kp _ _ _ _ _ => some ⟨kp, 0, 0, 0, 0⟩ : PidKernel) stageSigns.kp 0xBF000000#32 0x80000000#32 0xC0A00000#32
      0x7F800000#32 0x3A82292F#32 = some ⟨0xBF800000#32, 0, 0, 0, 0⟩ ∧
    (∀ w ∈ [0xBF800000#32, 0#32, 0#32, 0#32, 0#32, stageSigns.setpoint], isFinite w = true) := by
  refine ⟨rfl, ?_⟩
  simp only [List.forall_mem_cons, List.not_mem_nil, false_imp_iff, implies_true, and_true]
  decide +kernel
theorem witness_BuildFilterFollowsItsRule_not_finite :
    (fun kp _ _ _ _ _ => some ⟨kp, 0x7F800000#32, 0, 0, 0⟩ : PidKernel) stageSigns.kp 0xBF000000#32 0x80000000#32
      0xC0A00000#32 0x7F800000#32 0x3A82292F#32 = some ⟨0xBF800000#32, 0x7F800000#32, 0, 0, 0⟩ ∧
    (∃ w ∈ [0xBF800000#32, 0x7F800000#32, 0#32, 0#32, 0#32, stageSigns.setpoint], isFinite w = false) :=
  ⟨rfl, 0x7F800000#32, by simp, by decide⟩

theorem witness_ProportionalGainsGiveProportionalFilter :
    let g := { stageF2 with kd := 0x80000000#32 }
    g.ki = 0x00000000#32 ∧ g.kd = 0x80000000#32 ∧ isFinite g.kp = true ∧ isFinite g.setpoint = true ∧
    (staged 0 .off g).ch[(0 : ChanNo)].stage = g := by decide +kernel

/-- CAL_VIN set, ready for CAL. -/
def calAt (v : Word) : State := base.setCal { resetCal with vin := v }

theorem witness_CalInRangeInterpolates_top :
    fle (calAt 0x3FC00000#32).cal.vin (calEntry (calAt 0x3FC00000#32).cfg.params.calTable 0).v = true ∧
    fle (calEntry (calAt 0x3FC00000#32).cfg.params.calTable 143).v (calAt 0x3FC00000#32).cal.vin = true := by
  decide +kernel
theorem witness_CalInRangeInterpolates_bottom :
    fle (calAt 0x3F710000#32).cal.vin (calEntry (calAt 0x3F710000#32).cfg.params.calTable 0).v = true ∧
    fle (calEntry (calAt 0x3F710000#32).cfg.params.calTable 143).v (calAt 0x3F710000#32).cal.vin = true := by
  decide +kernel
theorem witness_CalOutOfRangeIsReported_above :
    fle (calAt 0x3FC00001#32).cal.vin (calEntry (calAt 0x3FC00001#32).cfg.params.calTable 0).v = false := by
  decide +kernel
theorem witness_CalOutOfRangeIsReported_below :
    fle (calEntry (calAt 0x3F70FFFF#32).cfg.params.calTable 143).v (calAt 0x3F70FFFF#32).cal.vin = false := by
  decide +kernel
theorem witness_CalibrationKnotsAreExact :
    isFinite (fdiv 0
      (fsub 0 (calEntry testConfig.params.calTable (142 + 1)).t (calEntry testConfig.params.calTable 142).t)
      (fsub 0 (calEntry testConfig.params.calTable (142 + 1)).v (calEntry testConfig.params.calTable 142).v)) = true := by
  decide +kernel

theorem witness_AdcResetSendsOnes : (withAdc true [okReply []]).bus.adcIn = okReply [] :: [] := rfl
theorem witness_AdcInitConfigures :
    (List.replicate 8 ([] : List Byte)).length = 8 ∧ (0xDF#8).extractLsb' 4 4 = 0xD#4 ∧
    (withAdc false (([] :: [0x00#8, 0xFF#8, 0xDF#8] :: List.replicate 8 []).map okReply)).bus.adcIn =
      (([] :: [0x00#8, 0xFF#8, 0xDF#8] :: List.replicate 8 []).map okReply) ++ [] := by decide +kernel
theorem witness_AdcInitRejectsIdentity :
    (0xC5#8).extractLsb' 4 4 ≠ 0xD#4 ∧
    (withAdc true [okReply [], okReply [0#8, 0#8, 0xC5#8]]).bus.adcIn =
      okReply [] :: okReply [0#8, 0#8, 0xC5#8] :: [] := by decide +kernel
/-- The reset frame fails. -/
theorem witness_AdcInitStopsAtBusFault_first :
    (adcInitFrames testConfig.params)[([] : List (List Byte)).length]? = some (List.replicate 8 0xFF#8) ∧
    ([] : List (List Byte))[1]? = none ∧
    (withAdc true [faultReply]).bus.adcIn = ([] : List (List Byte)).map okReply ++ faultReply :: [] := by decide +kernel
/-- The last configuration write fails. -/
theorem witness_AdcInitStopsAtBusFault_last :
    let rxs : List (List Byte) := [] :: [0#8, 0#8, 0xD5#8] :: List.replicate 7 []
    (adcInitFrames testConfig.params)[rxs.length]? = some [0x29#8, 0xC0#8, 0x29#8] ∧
    rxs[1]? = some [0#8, 0#8, 0xD5#8] ∧
    adcIdOk ((readFrameValue 2 (receivedBytes .adc 3 [0#8, 0#8, 0xD5#8])).setWidth 16) = true ∧
    (withAdc false (rxs.map okReply ++ faultReply :: [])).bus.adcIn = rxs.map okReply ++ faultReply :: [] := by
  decide +kernel
theorem witness_AdcReadGivesBigEndianValue :
    1 ≤ (4#3).toNat ∧ (4#3).toNat ≤ 4 ∧ [0x12#8, 0x34#8, 0x56#8, 0x01#8].length = (4#3).toNat ∧
    (withAdc true [okReply [0x5A#8, 0x12#8, 0x34#8, 0x56#8, 0x01#8]]).adcReady = true ∧
    (withAdc true [okReply [0x5A#8, 0x12#8, 0x34#8, 0x56#8, 0x01#8]]).bus.adcIn =
      okReply (0x5A#8 :: [0x12#8, 0x34#8, 0x56#8, 0x01#8]) :: [] := by decide +kernel
theorem witness_AdcWriteSendsPayload :
    1 ≤ (3#3).toNat ∧ (3#3).toNat ≤ 3 ∧ (withAdc true [okReply []]).adcReady = true ∧
    (withAdc true [okReply []]).bus.adcIn = okReply [] :: [] := by decide +kernel
theorem witness_AdcReadDataSplitsTheWord :
    (withAdc true [okReply [0#8, 0x12#8, 0x34#8, 0x56#8, 1#8]]).adcReady = true ∧
    (withAdc true [okReply [0#8, 0x12#8, 0x34#8, 0x56#8, 1#8]]).bus.adcIn =
      okReply [0#8, 0x12#8, 0x34#8, 0x56#8, 1#8] :: [] := by decide +kernel
theorem witness_AdcCommandsNeedReady : base.adcReady = false ∧ (Instr.adcReadData = .adcReadData) := by decide +kernel
theorem witness_AdcBusFaultEndsTheCommand :
    Instr.adcWrite 0x30 1 ≠ .adcInit ∧
    firstFrame (.adcWrite 0x30 1) (withAdc true [faultReply]) = some (.adc, [0x30#8, 0x00#8]) ∧
    (withAdc true [faultReply]).bus.adcIn = faultReply :: [] := by decide +kernel
theorem witness_AdcWriteReadRoundTrip :
    let s := (withAdc true [okReply [], okReply [0#8, 0xCC#8, 0xDD#8]]).setAdc { resetAdc with wdata := 0xAABBCCDD#32 }
    1 ≤ (2#3).toNat ∧ (2#3).toNat ≤ 3 ∧ s.adcReady = true ∧
    writeFrameBytes 0x30 (2#3).toNat s.adc.wdata = (0x30#6).setWidth 8 :: [0xCC#8, 0xDD#8] ∧
    s.bus.adcIn = okReply [] :: okReply (0#8 :: [0xCC#8, 0xDD#8]) :: [] := by decide +kernel

/-- The tie of vector D9, from DAC_CUR. -/
theorem witness_DacSetSendsTheCode_dacCur :
    isDacCode (fun _ => 0) testConfig.params
      (Reg.read (.dacCur 1) ((withDac [okReply []]).setDacCur 1 0x364CCCCD#32)) 0x60001#20 ∧
    ((withDac [okReply []]).setDacCur 1 0x364CCCCD#32).bus.dacIn = okReply [] :: [] := by
  unfold isDacCode; decide +kernel
theorem witness_DacSetSendsTheCode_out :
    isDacCode (fun _ => 0) testConfig.params (Reg.read (.chan 3 .out) (withDac [okReply []])) 0x60000#20 ∧
    (withDac [okReply []]).bus.dacIn = okReply [] :: [] := by unfold isDacCode; decide +kernel
theorem witness_DacInitSendsZeroCurrent :
    isDacCode (fun _ => 0) testConfig.params 0x00000000#32 0x60000#20 ∧
    (withDac (List.replicate 4 (okReply []))).bus.dacIn = [[], [], [], []].map okReply ++ [] := by
  unfold isDacCode; decide +kernel
/-- Vector D20: an infinite current has no code. -/
theorem witness_DacBoundsSendNothing :
    ∀ n, ¬ isDacCode (fun _ => 0) testConfig.params
      (Reg.read (.dacCur 2) (base.setDacCur 2 0x7F800000#32)) n := by
  intro n h
  exact absurd h.1 (by decide +kernel)
/-- An admitted configuration in which zero current has no code: a negative V_REF_TEC. -/
theorem witness_DacBoundsSendNothing_zero_current :
    paramsAdmitted { testParams with vRefTec := 0xBF800000#32 } = true ∧
    ∀ n, ¬ isDacCode (fun _ => 0) { testParams with vRefTec := 0xBF800000#32 } 0x00000000#32 n := by
  refine ⟨by decide +kernel, fun n h => ?_⟩
  have hu : units (dacVolts (fun _ => 0) { testParams with vRefTec := 0xBF800000#32 } 0x00000000#32)
      = -(2 ^ 18 * 2 ^ 149) := by decide +kernel
  have h2 := h.2.1
  rw [hu] at h2
  omega
theorem witness_DacBusFaultKeepsTheRest_set :
    isDacCode (fun _ => 0) testConfig.params (dacCurrent 0 .dacCur (withDac [faultReply])) 0x60000#20 ∧
    (withDac [faultReply]).bus.dacIn = faultReply :: [] := by unfold isDacCode; decide +kernel
theorem witness_DacBusFaultKeepsTheRest_init :
    isDacCode (fun _ => 0) testConfig.params 0x00000000#32 0x60000#20 ∧
    [[], [], ([] : List Byte)].length = (3 : ChanNo).val ∧
    (withDac [okReply [], okReply [], okReply [], faultReply]).bus.dacIn =
      [[], [], ([] : List Byte)].map okReply ++ faultReply :: [] := by unfold isDacCode; decide +kernel
theorem witness_DacCodesAreMonotone :
    isFinite 0xC01999A5#32 = true ∧ isFinite 0x407FFFF2#32 = true ∧ fle 0xC01999A5#32 0x407FFFF2#32 = true ∧
    dacCodeFrom testConfig.params 0xC01999A5#32 = some 0#20 ∧
    dacCodeFrom testConfig.params 0x407FFFF2#32 = some 0xFFFFF#20 := by decide +kernel

theorem witness_CommandsEndHangOrReset :
    (running .adcReset).rstN = true ∧ exec .adcReset (running .adcReset) = .next (after (exec .adcReset (running .adcReset)))
    := ⟨rfl, rfl⟩
/-- The first transaction of a command stalls: no reply is left. -/
theorem witness_FirstStallHangsTheCommand_first :
    (serialFrames (.dacSet 2 .dacCur) base)[([] : List (List Byte)).length]? = some (.dac 2, [0x06#8, 0#8, 0#8]) ∧
    base.bus.replies (.dac 2) = ([] : List (List Byte)).map okReply ++ [] ∧
    (([] : List Reply).headD ⟨.stall, false⟩).result = .stall := by decide +kernel
/-- The last transaction of DAC_INIT stalls. -/
theorem witness_FirstStallHangsTheCommand_dacInit :
    let rxs : List (List Byte) := [[], [], []]
    let s := withDac (rxs.map okReply ++ [⟨.stall, true⟩])
    (serialFrames .dacInit s)[rxs.length]? = some (.dac 3, [0x06#8, 0#8, 0#8]) ∧
    s.bus.replies (.dac 3) = rxs.map okReply ++ [⟨.stall, true⟩] ∧
    ([(⟨.stall, true⟩ : Reply)].headD ⟨.stall, false⟩).result = .stall := by decide +kernel
/-- The last transaction of ADC_INIT stalls. -/
theorem witness_FirstStallHangsTheCommand_adcInit :
    let rxs : List (List Byte) := [] :: [0#8, 0#8, 0xD5#8] :: List.replicate 7 []
    let s := withAdc true (rxs.map okReply ++ [])
    (serialFrames .adcInit s)[rxs.length]? = some (.adc, [0x29#8, 0xC0#8, 0x29#8]) ∧ identityPassed .adcInit rxs ∧
    s.bus.replies .adc = rxs.map okReply ++ [] ∧ (([] : List Reply).headD ⟨.stall, false⟩).result = .stall :=
  ⟨by decide +kernel, fun _ rx h => by
    obtain rfl : [0#8, 0#8, 0xD5#8] = rx := by simpa using h
    decide +kernel, by decide +kernel, by decide⟩
theorem witness_OnlyResetLeavesAHang :
    let s := { running .adcReset with bus := { resetBuses with csAdcN := false, inFlight := some (.adc, [0xFF#8]) } }
    s.rstN = true ∧ s.hung = true ∧ s.inputs = [] := by decide +kernel

theorem witness_ClampfGivesTheClampedValue_maxNum :
    isNaN 0x80000000#32 = false ∧ isNaN 0x00000000#32 = false ∧ datumOrder 0x80000000#32 ≤ datumOrder 0x00000000#32 ∧
    isNaN 0x7F800001#32 = true ∧ isNaN 0xFFFFFFFF#32 = true := by decide +kernel
/-- -0.0 is below, 4.0 at, and a NaN outside the bounds +0.0 and 4.0. -/
theorem witness_ClampfGivesTheClampedValue_in_order :
    isNaN 0x40800000#32 = false ∧ fle 0x00000000#32 0x40800000#32 = true ∧ flt 0x00000000#32 0x40800000#32 = true ∧
    datumOrder 0x80000000#32 ≤ datumOrder 0x00000000#32 ∧ datumOrder 0x00000000#32 ≤ datumOrder 0x40800000#32 ∧
    isNaN 0x7FC00000#32 = true := by decide +kernel
/-- The bounds +0.0 and -0.0 are out of order. -/
theorem witness_ClampfGivesTheClampedValue_out_of_order :
    isNaN 0x00000000#32 = false ∧ isNaN 0x80000000#32 = false ∧
    datumOrder 0x80000000#32 < datumOrder 0x00000000#32 := by decide +kernel
theorem witness_SumsRoundToNearestEven :
    isFinite 0x3F800000#32 = true ∧ isFinite 0x33800000#32 = true ∧
    isFinite (fadd 0 0x3F800000#32 0x33800000#32) = true ∧ isFinite 0x3F800001#32 = true := by decide +kernel
/-- A tie between the two least data. -/
theorem witness_ProductsAndQuotientsRoundToNearestEven_product :
    isFinite 0x00000001#32 = true ∧ isFinite 0x3F000000#32 = true ∧
    isFinite (fmul 0 0x00000001#32 0x3F000000#32) = true ∧ isFinite 0x00000000#32 = true := by decide +kernel
/-- The same tie as a quotient by -2. -/
theorem witness_ProductsAndQuotientsRoundToNearestEven_quotient :
    isFinite 0x00000001#32 = true ∧ isFinite 0xC0000000#32 = true ∧ isZero 0xC0000000#32 = false ∧
    isFinite (fdiv 0 0x00000001#32 0xC0000000#32) = true ∧ isFinite 0x80000001#32 = true := by decide +kernel

theorem witness_StepKeepsOutputsSafe :
    (∀ c : ChanNo, channelSafe base.cfg.params base.ch[c] = true) ∧
    step (running (.finalize 0)) = .next (after (step (running (.finalize 0)))) := ⟨by decide +kernel, rfl⟩
theorem witness_StepKeepsLinesAndPhase :
    (running .adcReset).bus.linesOk = true ∧ (running .adcReset).phaseOk = true ∧
    step (running .adcReset) = .next (after (step (running .adcReset))) := ⟨by decide +kernel, by decide +kernel, rfl⟩
theorem witness_StepKeepsReservedBitsAndConfiguration :
    (running .adcReset).statusOk = true ∧ step (running .adcReset) = .next (after (step (running .adcReset))) :=
  ⟨by decide +kernel, rfl⟩
theorem witness_StickyBitsStayUntilCleared :
    let s := { facing [.hostWrite 0x0004#16 0x00800000#32] with status := 0x00800000#32 }
    s.sticky (.buildRej 3) = true ∧ (after (step s)).sticky (.buildRej 3) = false := by decide +kernel
theorem witness_LiveRegistersChangeOnlyByCommand :
    let s := { staged 0 .off stageF2 with seq := .busy (.finalize 0) }
    ChanReg.isLive .b0 = true ∧ Reg.read (.chan 0 .b0) (after (step s)) ≠ Reg.read (.chan 0 .b0) s := by decide +kernel
theorem witness_CommandsLeaveHostRegisters :
    (after (exec (.calT 0) base)).rstN = true ∧ hostOwned .calVin = true := by decide +kernel

end Sys2Proof.Tests
end

section
/-! PROOFS. The value of `maxNum`, `minNum` and `clampf` by the order of their operands (rule R13). -/

namespace Sys2Proof.Machine

/-! ### A quiet NaN is a NaN -/

theorem expField_quiet (w : Word) : expField (w ||| 0x00400000#32) = expField w := by
  unfold expField; congr 1; ext i hi; interval_cases i <;> simp

theorem fracField_quiet_ne_zero (w : Word) : fracField (w ||| 0x00400000#32) ≠ 0 := by
  intro h
  have hz : (w ||| 0x00400000#32).extractLsb' 0 23 = 0#23 := BitVec.eq_of_toNat_eq h
  have hbit := congrArg (·.getLsbD 22) hz
  simp at hbit

theorem isNaN_quietNanWord (d : NanBits) : isNaN (quietNanWord d) = true := by
  have hd := isNaN_nanWord d
  simp only [isNaN, Bool.and_eq_true, beq_iff_eq, bne_iff_ne] at hd ⊢
  exact ⟨(expField_quiet _).trans hd.1, fracField_quiet_ne_zero _⟩

/-! ### `maxNum` and `minNum` by the order of their operands -/

section
variable (d : NanBits) {a b : Word}

/-- A datum at or below another has the lesser value, is the same word, or is −0.0 below +0.0. -/
theorem datumOrder_le_cases (h : datumOrder a ≤ datumOrder b) :
    units a < units b ∨ a = b ∨ (units a = units b ∧ signBit a = true ∧ signBit b = false) := by
  rcases (datumOrder_le_iff a b).mp h with hlt | ⟨heq, hsign⟩
  · exact .inl hlt
  · by_cases hba : datumOrder b ≤ datumOrder a
    · exact .inr (.inl (eq_of_datumOrder_eq (le_antisymm h hba)))
    · rw [datumOrder_le_iff, heq] at hba
      exact .inr (.inr ⟨heq, by cases hsa : signBit a <;> cases hsb : signBit b <;> simp_all⟩)

theorem maxNum_of_le (ha : isNaN a = false) (hb : isNaN b = false) (h : datumOrder a ≤ datumOrder b) :
    maxNum d a b = b ∧ maxNum d b a = b := by
  simp only [maxNum, ha, hb, Bool.false_eq_true, if_false]
  rcases datumOrder_le_cases h with hlt | rfl | ⟨heq, hsa, hsb⟩
  · simp [hlt, hlt.not_gt]
  · simp
  · simp [heq, hsa, hsb]

theorem minNum_of_le (ha : isNaN a = false) (hb : isNaN b = false) (h : datumOrder a ≤ datumOrder b) :
    minNum d a b = a ∧ minNum d b a = a := by
  simp only [minNum, ha, hb, Bool.false_eq_true, if_false]
  rcases datumOrder_le_cases h with hlt | rfl | ⟨heq, hsa, hsb⟩
  · simp [hlt, hlt.not_gt]
  · simp
  · simp [heq, hsa, hsb]

/-- A number wins over a NaN. -/
theorem maxNum_minNum_of_isNaN_left (ha : isNaN a = true) (hb : isNaN b = false) :
    maxNum d a b = b ∧ maxNum d b a = b ∧ minNum d a b = b ∧ minNum d b a = b := by
  simp [maxNum, minNum, ha, hb]

theorem isNaN_maxNum_minNum (ha : isNaN a = true) (hb : isNaN b = true) :
    isNaN (maxNum d a b) = true ∧ isNaN (minNum d a b) = true := by
  simp [maxNum, minNum, ha, hb, isNaN_quietNanWord]

/-- The order of the patterns agrees with less-than. -/
theorem datumOrder_lt_of_flt (h : flt a b = true) : datumOrder a < datumOrder b := by
  obtain ⟨-, -, hlt⟩ := flt_iff.mp h
  have hba := datumOrder_le_iff b a
  omega

end

/-! ### `clampf` -/

section
variable (d e : NanBits) {v lo hi : Word}

/-- For bounds that are no NaN, `clampf` gives a number up to `hi`, and from `lo` on where the bounds are in order. -/
theorem clampf_within (v : Word) (hlo : isNaN lo = false) (hhi : isNaN hi = false) :
    isNaN (clampf d e v lo hi) = false ∧ fle (clampf d e v lo hi) hi = true ∧
      (fle lo hi = true → fle lo (clampf d e v lo hi) = true) := by
  obtain ⟨-, hloMax, -, -⟩ := maxNum_spec d v hlo
  obtain ⟨hnum, hleHi, -, hcase⟩ := minNum_spec e (maxNum d v lo) hhi
  refine ⟨hnum, fle_iff.mpr ⟨hnum, hhi, hleHi⟩, fun hord => fle_iff.mpr ⟨hlo, hnum, ?_⟩⟩
  obtain ⟨-, -, hlohi⟩ := fle_iff.mp hord
  rcases hcase with ⟨-, hmax⟩ | hmin
  · exact hloMax.trans_eq (congrArg units hmax).symm
  · exact hlohi.trans_eq (congrArg units hmin).symm

theorem clampf_eq_minNum_of_le_lo (hv : isNaN v = false) (hlo : isNaN lo = false) (h : datumOrder v ≤ datumOrder lo) :
    clampf d e v lo hi = minNum e lo hi := by rw [clampf, (maxNum_of_le d hv hlo h).1]

theorem clampf_eq_minNum_of_ge_lo (hv : isNaN v = false) (hlo : isNaN lo = false) (h : datumOrder lo ≤ datumOrder v) :
    clampf d e v lo hi = minNum e v hi := by rw [clampf, (maxNum_of_le d hlo hv h).2]

theorem clampf_eq_minNum_of_isNaN (hv : isNaN v = true) (hlo : isNaN lo = false) :
    clampf d e v lo hi = minNum e lo hi := by rw [clampf, (maxNum_minNum_of_isNaN_left d hv hlo).1]

/-- Bounds out of order: the upper one is applied last and wins. -/
theorem clampf_of_out_of_order (v : Word) (hlo : isNaN lo = false) (hhi : isNaN hi = false)
    (h : datumOrder hi < datumOrder lo) : clampf d e v lo hi = hi := by
  have hmin := (minNum_of_le e hhi hlo h.le).2
  cases hv : isNaN v
  · rcases le_total (datumOrder v) (datumOrder lo) with hle | hge
    · rw [clampf_eq_minNum_of_le_lo d e hv hlo hle, hmin]
    · rw [clampf_eq_minNum_of_ge_lo d e hv hlo hge, (minNum_of_le e hhi hv (h.le.trans hge)).2]
  · rw [clampf_eq_minNum_of_isNaN d e hv hlo, hmin]

theorem clampf_of_isNaN (hv : isNaN v = true) (hlo : isNaN lo = false) (hhi : isNaN hi = false)
    (hord : datumOrder lo ≤ datumOrder hi) : clampf d e v lo hi = lo := by
  rw [clampf_eq_minNum_of_isNaN d e hv hlo, (minNum_of_le e hlo hhi hord).1]

theorem clampf_of_le_lo (hv : isNaN v = false) (hlo : isNaN lo = false) (hhi : isNaN hi = false)
    (hord : datumOrder lo ≤ datumOrder hi) (h : datumOrder v ≤ datumOrder lo) : clampf d e v lo hi = lo := by
  rw [clampf_eq_minNum_of_le_lo d e hv hlo h, (minNum_of_le e hlo hhi hord).1]

theorem clampf_of_ge_hi (hv : isNaN v = false) (hlo : isNaN lo = false) (hhi : isNaN hi = false)
    (hord : datumOrder lo ≤ datumOrder hi) (h : datumOrder hi ≤ datumOrder v) : clampf d e v lo hi = hi := by
  rw [clampf_eq_minNum_of_ge_lo d e hv hlo (hord.trans h), (minNum_of_le e hhi hv h).2]

theorem clampf_of_between (hv : isNaN v = false) (hlo : isNaN lo = false) (hhi : isNaN hi = false)
    (h : datumOrder lo ≤ datumOrder v) (k : datumOrder v ≤ datumOrder hi) : clampf d e v lo hi = v := by
  rw [clampf_eq_minNum_of_ge_lo d e hv hlo h, (minNum_of_le e hv hhi k).1]

end

/-- Settles O51, from the value of `maxNum`, `minNum` and `clampf` by the order of their operands. -/
theorem clampfGivesTheClampedValue : Obligations.ClampfGivesTheClampedValue := by
  refine ⟨fun d a b ha hb h => ?_, fun d a b ha => ?_, fun d e v lo hi hlo hhi => ?_,
    fun a b h => datumOrder_lt_of_flt h, fun d e hi hhi h => ?_⟩
  · obtain ⟨hmax, hmax'⟩ := maxNum_of_le d ha hb h
    obtain ⟨hmin, hmin'⟩ := minNum_of_le d ha hb h
    exact ⟨hmax, hmax', hmin, hmin'⟩
  · exact ⟨maxNum_minNum_of_isNaN_left d ha, isNaN_maxNum_minNum d ha⟩
  · obtain ⟨hnum, hleHi, hgeLo⟩ := clampf_within d e v hlo hhi
    exact ⟨hnum, hleHi, hgeLo, clampf_of_out_of_order d e v hlo hhi, fun hord =>
      ⟨fun hv => clampf_of_isNaN d e hv hlo hhi hord, fun hv =>
        ⟨clampf_of_le_lo d e hv hlo hhi hord, clampf_of_ge_hi d e hv hlo hhi hord,
          clampf_of_between d e hv hlo hhi⟩⟩⟩
  · exact clampf_of_le_lo d e (by decide) (by decide) hhi h (by decide)

end Sys2Proof.Machine
end

section
/-! PROOFS. Rounding to the nearest datum (rule R13): a pattern's value, the nearest integer to a quotient, the nearest
datum to it, and the sum, the product and the quotient, which are rounded once. -/

namespace Sys2Proof.Machine

/-! ### The value of a pattern without its sign -/

/-- The magnitude that the 31 bits below the sign of a pattern stand for, in units of 2^-149 (rules R13, R20): the
function in which `magUnits_eq` and `magnitude_strictMono` speak. -/
def patternUnits (n : Nat) : Nat :=
  if n / 2 ^ 23 = 0 then n % 2 ^ 23 else (2 ^ 23 + n % 2 ^ 23) * 2 ^ (n / 2 ^ 23 - 1)

theorem magUnits_eq_patternUnits (w : Word) : magUnits w = patternUnits (w.extractLsb' 0 31).toNat := magUnits_eq w

/-- A significand `m` at shift `k` stands for `m * 2^k`, in the subnormal range and across a carry of the rounding. -/
theorem patternUnits_shift {m k : Nat} (hm : m ≤ 2 ^ 24) (hk : k = 0 ∨ 2 ^ 23 ≤ m) :
    patternUnits (m + k * 2 ^ 23) = m * 2 ^ k := by
  unfold patternUnits
  obtain hlow | hmid | rfl : m < 2 ^ 23 ∨ (2 ^ 23 ≤ m ∧ m < 2 ^ 24) ∨ m = 2 ^ 24 := by omega
  · obtain rfl : k = 0 := by omega
    rw [if_pos (by omega), pow_zero]
    omega
  · rw [if_neg (by omega), show (m + k * 2 ^ 23) / 2 ^ 23 - 1 = k by omega,
      show 2 ^ 23 + (m + k * 2 ^ 23) % 2 ^ 23 = m by omega]
  · rw [if_neg (by omega), show (2 ^ 24 + k * 2 ^ 23) / 2 ^ 23 - 1 = k + 1 by omega,
      show 2 ^ 23 + (2 ^ 24 + k * 2 ^ 23) % 2 ^ 23 = 2 ^ 23 by omega, pow_succ 2 k]
    omega

/-- At any shift a datum is a multiple of the unit, or has fewer than 24 significant bits at that shift. -/
theorem patternUnits_multiple_or_small (n k : Nat) :
    (∃ j, patternUnits n = j * 2 ^ k) ∨ (k ≠ 0 ∧ patternUnits n < 2 ^ 23 * 2 ^ k) := by
  unfold patternUnits
  have hfrac : n % 2 ^ 23 < 2 ^ 23 := Nat.mod_lt _ (by positivity)
  split
  · by_cases hk : k = 0
    · exact .inl ⟨n % 2 ^ 23, by rw [hk, pow_zero, mul_one]⟩
    · exact .inr ⟨hk, hfrac.trans_le (Nat.le_mul_of_pos_right _ (by positivity))⟩
  · next he =>
    by_cases hke : k ≤ n / 2 ^ 23 - 1
    · exact .inl ⟨(2 ^ 23 + n % 2 ^ 23) * 2 ^ (n / 2 ^ 23 - 1 - k), by rw [mul_assoc, pow_sub_mul_pow 2 hke]⟩
    · refine .inr ⟨by omega, ?_⟩
      calc (2 ^ 23 + n % 2 ^ 23) * 2 ^ (n / 2 ^ 23 - 1)
          < 2 ^ 24 * 2 ^ (n / 2 ^ 23 - 1) := Nat.mul_lt_mul_of_pos_right (by omega) (by positivity)
        _ = 2 ^ 23 * 2 ^ (n / 2 ^ 23 - 1 + 1) := by rw [pow_succ]; ring
        _ ≤ 2 ^ 23 * 2 ^ k := Nat.mul_le_mul_left _ (Nat.pow_le_pow_right (by decide) (by omega))

/-! ### Rounding a quotient to an integer -/

/-- `m` is a nearest multiple: `m * den` is no further from `num` than `v * den`, and where it is as far as a different
one, the pattern `p` is even. -/
def NearestEven (num den p m v : Nat) : Prop :=
  ((m * den : Nat) - (num : Int)).natAbs ≤ ((v * den : Nat) - (num : Int)).natAbs ∧
  (((m * den : Nat) - (num : Int)).natAbs = ((v * den : Nat) - (num : Int)).natAbs → v ≠ m → p % 2 = 0)

/-- `divNearestEven` goes down, up, or in a tie to the even one of the integers around the quotient. -/
theorem divNearestEven_cases (num den : Nat) :
    (2 * (num % den) < den ∧ divNearestEven num den = num / den) ∨
    (den < 2 * (num % den) ∧ divNearestEven num den = num / den + 1) ∨
    (2 * (num % den) = den ∧ divNearestEven num den % 2 = 0 ∧
      (divNearestEven num den = num / den ∨ divNearestEven num den = num / den + 1)) := by
  unfold divNearestEven; split_ifs <;> omega

/-- The multiple `j * den` against the integers `q` and `q + 1` around a quotient. -/
theorem multiple_cases (j q den : Nat) :
    j * den + den ≤ q * den ∨ (j = q ∧ j * den = q * den) ∨ (j = q + 1 ∧ j * den = q * den + den) ∨
      q * den + 2 * den ≤ j * den := by
  obtain h | rfl | rfl | h : j + 1 ≤ q ∨ j = q ∨ j = q + 1 ∨ q + 2 ≤ j := by omega
  · exact .inl (by simpa [add_mul] using Nat.mul_le_mul_right den h)
  · exact .inr (.inl ⟨rfl, rfl⟩)
  · exact .inr (.inr (.inl ⟨rfl, Nat.succ_mul q den⟩))
  · exact .inr (.inr (.inr (by simpa [add_mul] using Nat.mul_le_mul_right den h)))

/-- `divNearestEven` gives the nearest integer, a tie going to the even one. -/
theorem divNearestEven_nearest (num j : Nat) {den : Nat} (hden : 0 < den) :
    NearestEven num den (divNearestEven num den) (divNearestEven num den) j := by
  have hdiv := Nat.div_add_mod' num den
  have hrem := Nat.mod_lt num hden
  have hj := multiple_cases j (num / den) den
  have hup := Nat.succ_mul (num / den) den
  unfold NearestEven
  rcases divNearestEven_cases num den with ⟨hr, hm⟩ | ⟨hr, hm⟩ | ⟨hr, heven, hm | hm⟩
  · rw [hm]; omega
  · rw [hm, hup]; omega
  · exact ⟨by rw [hm]; omega, fun _ _ => heven⟩
  · exact ⟨by rw [hm, hup]; omega, fun _ _ => heven⟩

/-! ### Rounding to a datum -/

/-- The shift leaves a quotient of 24 significant bits, or less where it is 0. -/
theorem roundShift_bounds (q : Nat) :
    q / 2 ^ roundShift q < 2 ^ 24 ∧ (roundShift q = 0 ∨ 2 ^ 23 ≤ q / 2 ^ roundShift q) := by
  unfold roundShift
  split
  · next h => exact ⟨by rwa [pow_zero, Nat.div_one], .inl rfl⟩
  · next h =>
    have hq : q ≠ 0 := by omega
    have hlog : 24 ≤ Nat.log2 q := (Nat.le_log2 hq).mpr (by omega)
    have hlow : 2 ^ 23 * 2 ^ (Nat.log2 q - 23) ≤ q := by
      rw [← pow_add, Nat.add_sub_cancel' (by omega)]; exact Nat.log2_self_le hq
    have hhigh : q < 2 ^ 24 * 2 ^ (Nat.log2 q - 23) := by
      rw [← pow_add, show 24 + (Nat.log2 q - 23) = Nat.log2 q + 1 by omega]; exact Nat.lt_log2_self
    exact ⟨Nat.div_lt_of_lt_mul (by rwa [mul_comm]), .inr ((Nat.le_div_iff_mul_le (by positivity)).mpr hlow)⟩

/-- A pattern that `roundMag` gives short of infinity stands for the datum nearest to the quotient, a tie going to the
even pattern, among all data. -/
theorem roundMag_nearest (num x : Nat) {den : Nat} (hden : 0 < den) (hfin : roundMag num den < 0x7F800000) :
    NearestEven num den (roundMag num den) (patternUnits (roundMag num den)) (patternUnits x) := by
  obtain ⟨hhigh, hlow⟩ := roundShift_bounds (num / den)
  unfold roundMag at hfin ⊢
  rw [Nat.min_eq_left (by omega)]
  generalize roundShift (num / den) = k at *
  rw [Nat.div_div_eq_div_mul] at hhigh hlow
  have hunit : 0 < den * 2 ^ k := by positivity
  have hround := divNearestEven_cases num (den * 2 ^ k)
  have hnear := fun j => divNearestEven_nearest num j hunit
  generalize divNearestEven num (den * 2 ^ k) = m at *
  rw [patternUnits_shift (by omega) (by omega)]
  have hscale : ∀ j, j * 2 ^ k * den = j * (den * 2 ^ k) := fun j => by ring
  unfold NearestEven at *
  rcases patternUnits_multiple_or_small x k with ⟨j, hj⟩ | ⟨hk, hsmall⟩
  · obtain ⟨hdist, htie⟩ := hnear j
    rw [hj, hscale, hscale]
    exact ⟨hdist, fun heq hne => by have := htie heq (fun h => hne (by rw [h])); omega⟩
  · obtain ⟨hdist, -⟩ := hnear (2 ^ 23)
    have hnum : 2 ^ 23 * (den * 2 ^ k) ≤ num :=
      (Nat.le_div_iff_mul_le hunit).mp (hlow.resolve_left hk)
    have hfar := Nat.mul_lt_mul_of_pos_right hsmall hden
    rw [hscale] at hfar ⊢
    omega

/-! ### Signs -/

/-- The integer of a sign and a magnitude. -/
def signedInt (neg : Bool) (n : Nat) : Int := if neg then -(n : Int) else n

theorem units_eq_signedInt (w : Word) : units w = signedInt (signBit w) (magUnits w) := rfl

theorem signedInt_mul (s t : Bool) (m n : Nat) : signedInt s m * signedInt t n = signedInt (s != t) (m * n) := by
  cases s <;> cases t <;> simp [signedInt]

theorem signedInt_natAbs (z : Int) : signedInt (z < 0) z.natAbs = z := by
  unfold signedInt
  by_cases hz : z < 0 <;> simp only [hz, decide_true, decide_false, if_true, Bool.false_eq_true, if_false] <;> omega

/-- The fields of a packed pattern. -/
theorem packSign_fields (neg : Bool) {p : Nat} (hp : p < 2 ^ 31) :
    signBit (packSign neg p) = neg ∧ ((packSign neg p).extractLsb' 0 31).toNat = p ∧
      expField (packSign neg p) = p / 2 ^ 23 ∧ (packSign neg p).getLsbD 0 = decide (p % 2 = 1) := by
  unfold packSign signBit expField
  cases neg <;>
    simp only [BitVec.getLsbD, BitVec.toNat_ofNat, BitVec.extractLsb'_toNat, Nat.shiftRight_eq_div_pow, if_true,
      Bool.false_eq_true, if_false, Nat.testBit_eq_decide_div_mod_eq, decide_eq_true_eq, decide_eq_false_iff_not,
      decide_eq_decide] <;> omega

theorem units_packSign (neg : Bool) {p : Nat} (hp : p < 2 ^ 31) :
    units (packSign neg p) = signedInt neg (patternUnits p) := by
  obtain ⟨hsign, hpat, -, -⟩ := packSign_fields neg hp
  rw [units_eq_signedInt, hsign, magUnits_eq_patternUnits, hpat]

/-- How far two signed integers are apart: the magnitudes' distance where the signs agree, their sum where not. -/
theorem natAbs_signedInt_sub (s t : Bool) (m n : Nat) :
    (signedInt s m - signedInt t n).natAbs = if s = t then ((m : Int) - n).natAbs else m + n := by
  cases s <;> cases t <;> simp [signedInt] <;> omega

/-- The datum `r` is a nearest one to `exact / den`: no further than `x`, and where it is as far as a different one its
significand is even. -/
def DatumNearest (exact den : Int) (r x : Word) : Prop :=
  (units r * den - exact).natAbs ≤ (units x * den - exact).natAbs ∧
  ((units r * den - exact).natAbs = (units x * den - exact).natAbs → units x ≠ units r → r.getLsbD 0 = false)

theorem DatumNearest.neg {exact den : Int} {r x : Word} (h : DatumNearest exact den r x) :
    DatumNearest (-exact) (-den) r x := by
  have hneg : ∀ z : Int, (z * -den - -exact).natAbs = (z * den - exact).natAbs := fun z => by
    rw [mul_neg, sub_neg_eq_add, ← Int.natAbs_neg]; congr 1; omega
  unfold DatumNearest
  rw [hneg, hneg]
  exact h

/-- A finite datum rounded from a sign and a quotient is nearest to the signed quotient. A datum of the other sign is at
least as far as zero is. -/
theorem packSign_roundMag_nearest (neg : Bool) (num : Nat) {den : Nat} (hden : 0 < den)
    (hfin : isFinite (packSign neg (roundMag num den)) = true) (x : Word) :
    DatumNearest (signedInt neg num) den (packSign neg (roundMag num den)) x := by
  have hle : roundMag num den ≤ 0x7F800000 := Nat.min_le_right _ _
  obtain ⟨-, -, hexp, hodd⟩ := packSign_fields neg (p := roundMag num den) (by omega)
  have hlt : roundMag num den < 0x7F800000 := by
    simp only [isFinite, hexp, bne_iff_ne] at hfin; omega
  obtain ⟨hdist, htie⟩ := roundMag_nearest num (x.extractLsb' 0 31).toNat hden hlt
  obtain ⟨hdistZero, -⟩ := roundMag_nearest num 0 hden hlt
  rw [← magUnits_eq_patternUnits] at hdist htie
  rw [show patternUnits 0 = 0 from rfl, Nat.zero_mul] at hdistZero
  have hscale : ∀ s n, signedInt s n * den = signedInt s (n * den) := fun s n => by
    cases s <;> simp [signedInt]
  unfold DatumNearest
  rw [units_packSign neg (by omega), units_eq_signedInt x, hodd, hscale, hscale, natAbs_signedInt_sub,
    natAbs_signedInt_sub, if_pos rfl, decide_eq_false_iff_not, Nat.mod_two_not_eq_one]
  by_cases hs : signBit x = neg
  · rw [if_pos hs, hs]
    exact ⟨hdist, fun heq hne => htie heq fun h => hne (by rw [h])⟩
  · rw [if_neg hs]
    refine ⟨by omega, fun heq hne => ?_⟩
    have hx : magUnits x = 0 := (Nat.mul_eq_zero.mp (by omega)).resolve_right hden.ne'
    rw [hx] at htie hne heq
    refine htie (by omega) fun h => hne ?_
    rw [← h]; cases neg <;> cases signBit x <;> rfl

/-! ### The three operations -/

theorem isInf_of_isFinite {a : Word} (h : isFinite a = true) : isInf a = false := by
  simp only [isFinite, bne_iff_ne] at h
  simp [isInf, h]

/-- A quotient of two finite data, the divisor not zero, has no draw. -/
theorem fdiv_finite (d : NanBits) {a b : Word} (ha : isFinite a = true) (hb : isFinite b = true)
    (hz : magUnits b ≠ 0) :
    fdiv d a b = packSign (signBit a != signBit b) (roundMag (magUnits a * 2 ^ 149) (magUnits b)) := by
  simp only [fdiv, isNaN_of_isFinite ha, isNaN_of_isFinite hb, isInf_of_isFinite ha, isInf_of_isFinite hb, hz,
    Bool.or_self, Bool.false_eq_true, if_false]

theorem addFinite_nearest {a b : Word} (hfin : isFinite (addFinite a b) = true) (x : Word) :
    DatumNearest (units a + units b) 1 (addFinite a b) x := by
  unfold addFinite at hfin ⊢
  split at hfin
  · next hsum =>
    rw [if_pos hsum, hsum]
    have hzero : ∀ r, (r = fNegZero ∨ r = fZero) → units r = 0 ∧ r.getLsbD 0 = false := by
      rintro r (rfl | rfl) <;> decide
    obtain ⟨hunits, heven⟩ := hzero (if signBit a && signBit b then fNegZero else fZero) (by split <;> simp)
    exact ⟨by rw [hunits]; exact Nat.zero_le _, fun _ _ => heven⟩
  · next hsum =>
    rw [if_neg hsum]
    have h := packSign_roundMag_nearest _ _ Nat.one_pos hfin x
    rwa [signedInt_natAbs] at h

theorem fmul_nearest (d : NanBits) {a b : Word} (ha : isFinite a = true) (hb : isFinite b = true)
    (hfin : isFinite (fmul d a b) = true) (x : Word) :
    DatumNearest (units a * units b) (2 ^ 149) (fmul d a b) x := by
  rw [fmul_finite d ha hb] at hfin ⊢
  have h := packSign_roundMag_nearest _ _ (by positivity) hfin x
  rwa [← signedInt_mul, ← units_eq_signedInt, ← units_eq_signedInt] at h

theorem fdiv_nearest (d : NanBits) {a b : Word} (ha : isFinite a = true) (hb : isFinite b = true)
    (hz : magUnits b ≠ 0) (hfin : isFinite (fdiv d a b) = true) (x : Word) :
    DatumNearest (units a * 2 ^ 149) (units b) (fdiv d a b) x := by
  rw [fdiv_finite d ha hb hz] at hfin ⊢
  have h := packSign_roundMag_nearest _ _ (Nat.pos_of_ne_zero hz) hfin x
  have hexact : signedInt (signBit a != signBit b) (magUnits a * 2 ^ 149) =
      units a * signedInt (signBit b) (2 ^ 149) := by
    rw [← signedInt_mul, ← units_eq_signedInt]
  rw [hexact] at h
  rw [units_eq_signedInt b]
  cases hs : signBit b <;> rw [hs] at h
  · exact h
  · have hneg := h.neg
    rw [← mul_neg] at hneg
    simpa [signedInt] using hneg

/-- Settles O52: a sum is the rounding of the exact one. -/
theorem sumsRoundToNearestEven : Obligations.SumsRoundToNearestEven := by
  intro d a b x ha hb hfin _
  rw [fadd_finite d ha hb] at hfin ⊢
  have h := addFinite_nearest hfin x
  simpa only [DatumNearest, mul_one] using h

/-- Settles O53: a product and a quotient are the roundings of the exact ones. -/
theorem productsAndQuotientsRoundToNearestEven : Obligations.ProductsAndQuotientsRoundToNearestEven := by
  refine ⟨fun d a b x ha hb hfin _ => fmul_nearest d ha hb hfin x, fun d a b x ha hb hz hfin _ => ?_⟩
  have hz' : magUnits b ≠ 0 := by simpa [isZero] using hz
  exact fdiv_nearest d ha hb hz' hfin x

end Sys2Proof.Machine
end

section
/-! PROOFS. A command whose transactions end well up to one that never returns (rules R9, R31, R114). -/

namespace Sys2Proof.Machine

/-! ### The buses of a list of frames that is cut by a stall -/

/-- The buses after the frames `fs`, of which the first are answered well by `rxs` and the next one never returns. -/
def Buses.stallAfter (b : Buses) : List (BusLine × List Byte) → List (List Byte) → Buses
  | [], _ => b
  | f :: _, [] => b.stallXfer f.1 f.2
  | f :: fs, rx :: rxs => (b.endXfer f.1 f.2 (.ok (receivedBytes f.1 f.2.length rx))).stallAfter fs rxs

/-- The line belongs to the ADC bus, not to the DAC bus (rule R8). -/
def BusLine.onAdc : BusLine → Bool
  | .adc => true
  | .dac _ => false

theorem Buses.replies_sameBus {l m : BusLine} (h : l.onAdc = m.onAdc) (b : Buses) : b.replies l = b.replies m := by
  cases l <;> cases m <;> first | rfl | exact Bool.noConfusion h

theorem Buses.replies_endXfer (b : Buses) (line : BusLine) (tx : List Byte) (r : XferResult) :
    (b.endXfer line tx r).replies line = (b.replies line).tail := by cases line <;> rfl

/-- The chip-selects of the DAC after a transaction that ended: only its own line changes, to 1 (rule R31). -/
theorem Buses.endXfer_csDacN (b : Buses) (line : BusLine) (tx : List Byte) (r : XferResult) (c : ChanNo) :
    (b.endXfer line tx r).csDacN[c] = if line = .dac c then true else b.csDacN[c] := by
  cases line with
  | adc => rfl
  | dac k => simp [Buses.endXfer_dac, Vector.getElem_set, Fin.ext_iff]

theorem Buses.stallXfer_csDacN (b : Buses) (line : BusLine) (tx : List Byte) (c : ChanNo) :
    (b.stallXfer line tx).csDacN[c] = if line = .dac c then false else b.csDacN[c] := by
  cases line with
  | adc => rfl
  | dac k => simp [Buses.stallXfer, Buses.setLine, Buses.record, Buses.dropReply, Vector.getElem_set, Fin.ext_iff]

/-- Everything but the chip-selects of the DAC in a transaction that never ends. -/
theorem Buses.stallXfer_rest (b : Buses) (f : BusLine × List Byte) :
    b.stallXfer f.1 f.2 = { b.withFrames f.1 [frameOf f .stall] (b.replies f.1).tail with
      csAdcN := if f.1 = .adc then false else b.csAdcN
      csDacN := (b.stallXfer f.1 f.2).csDacN
      inFlight := some f } := by
  obtain ⟨line, tx⟩ := f
  cases line <;> rfl

/-- The chip-selects of the DAC after a stall: the stalled line at 0, the lines served before it at 1, the others as
they were. -/
theorem Buses.stallAfter_csDacN (b : Buses) {fs : List (BusLine × List Byte)} {rxs : List (List Byte)}
    {f : BusLine × List Byte} (hf : fs[rxs.length]? = some f) (c : ChanNo) :
    (b.stallAfter fs rxs).csDacN[c] =
      if f.1 = .dac c then false
      else if (fs.take rxs.length).any (fun g => g.1 == .dac c) then true else b.csDacN[c] := by
  induction fs generalizing b rxs with
  | nil => simp at hf
  | cons g fs ih =>
    cases rxs with
    | nil =>
      obtain rfl : g = f := by simpa using hf
      exact b.stallXfer_csDacN g.1 g.2 c
    | cons rx rxs =>
      rw [Buses.stallAfter, ih _ (by simpa using hf), Buses.endXfer_csDacN, List.length_cons, List.take_succ_cons,
        List.any_cons]
      by_cases hg : g.1 = .dac c
      · simp [hg]
      · rw [if_neg hg, beq_eq_false_iff_ne.mpr hg, Bool.false_or]

/-- Everything but the chip-selects of the DAC after a stall, on one bus. -/
theorem Buses.stallAfter_rest (b : Buses) {fs : List (BusLine × List Byte)} {rxs : List (List Byte)}
    {f : BusLine × List Byte} {rest : List Reply} (hf : fs[rxs.length]? = some f)
    (hbus : ∀ g ∈ fs, g.1.onAdc = f.1.onAdc) (hrep : b.replies f.1 = rxs.map okReply ++ rest) :
    b.stallAfter fs rxs = { b.withFrames f.1
        (List.zipWith (fun f rx => frameOf f (.ok rx)) fs rxs ++ [frameOf f .stall]) rest.tail with
      csAdcN := if f.1 = .adc then false else b.csAdcN
      csDacN := (b.stallAfter fs rxs).csDacN
      inFlight := some f } := by
  induction fs generalizing b rxs with
  | nil => simp at hf
  | cons g fs ih =>
    cases rxs with
    | nil =>
      obtain rfl : g = f := by simpa using hf
      rw [Buses.stallAfter, Buses.stallXfer_rest, hrep]
      rfl
    | cons rx rxs =>
      have hline := hbus g List.mem_cons_self
      have hnext := ih (b.endXfer g.1 g.2 (.ok (receivedBytes g.1 g.2.length rx))) (by simpa using hf)
        (fun k hk => hbus k (List.mem_cons_of_mem _ hk))
        (by rw [← Buses.replies_sameBus hline, Buses.replies_endXfer, Buses.replies_sameBus hline, hrep]; rfl)
      rw [Buses.stallAfter, hnext]
      obtain ⟨line, tx⟩ := f
      obtain ⟨gline, gtx⟩ := g
      cases line <;> cases gline <;> first | exact Bool.noConfusion hline |
        simp [Buses.endXfer_adc, Buses.endXfer_dac, Buses.withFrames, frameOf]

/-! ### Flows that hang -/

/-- A transaction of the flow never returns, and it leaves the buses `b`. -/
def Flow.hangsIn {α : Type} (x : Flow α) (b : Buses) : Prop := ∃ t, x = .hung t ∧ t.bus = b

theorem Flow.andThen_assoc {α β γ : Type} (x : Flow α) (f : α → State → Flow β) (g : β → State → Flow γ) :
    (x.andThen f).andThen g = x.andThen fun a t => (f a t).andThen g := by cases x <;> rfl

theorem Flow.hangsIn_andThen {α β : Type} {x : Flow α} {b : Buses} (h : x.hangsIn b) (f : α → State → Flow β) :
    (x.andThen f).hangsIn b := by
  obtain ⟨t, rfl, hb⟩ := h
  exact ⟨t, rfl, hb⟩

section
variable {α : Type} {s : State} {line : BusLine} {tx : List Byte} {fs : List (BusLine × List Byte)}
  {rxs : List (List Byte)} {rest : List Reply} {k : List Byte → State → Flow α}

/-- A transaction and what follows it hang as their frames do: at the transaction, or after it in what follows. -/
theorem hangsIn_xfer (hrep : s.bus.replies line = rxs.map okReply ++ rest)
    (hstall : (rest.headD ⟨.stall, false⟩).result = .stall)
    (hk : ∀ rx rxs' b, rxs = rx :: rxs' → b = s.bus.endXfer line tx (.ok (receivedBytes line tx.length rx)) →
      b.replies line = rxs'.map okReply ++ rest →
      (k (receivedBytes line tx.length rx) (s.setBus b)).hangsIn (b.stallAfter fs rxs')) :
    ((spiXfer line tx s).andThen k).hangsIn (s.bus.stallAfter ((line, tx) :: fs) rxs) := by
  cases rxs with
  | nil =>
    have hnext : (s.bus.nextReply line).result = .stall := by rw [Buses.nextReply, hrep]; exact hstall
    rw [spiXfer_stall hnext]
    exact ⟨_, rfl, rfl⟩
  | cons rx rxs' =>
    have hnext : s.bus.nextReply line = ⟨.ok rx, false⟩ := by rw [Buses.nextReply, hrep]; rfl
    rw [spiXfer_ok hnext]
    exact hk rx rxs' _ rfl rfl (by rw [Buses.replies_endXfer, hrep]; rfl)

/-- A flow of one transaction hangs in it. -/
theorem hangsIn_single (hlen : rxs.length < 1) (hrep : s.bus.replies line = rxs.map okReply ++ rest)
    (hstall : (rest.headD ⟨.stall, false⟩).result = .stall) :
    ((spiXfer line tx s).andThen k).hangsIn (s.bus.stallAfter [(line, tx)] rxs) :=
  hangsIn_xfer hrep hstall fun rx rxs' _ h => by rw [h] at hlen; simp at hlen

end

section
variable {s : State} {rxs : List (List Byte)} {rest : List Reply}
  (hstall : (rest.headD ⟨.stall, false⟩).result = .stall)
include hstall

/-- The configuration writes of ADC_INIT. -/
theorem adcConfigure_hangs {l : List (BitVec 6 × AdcCfgEntry)} (hlen : rxs.length < l.length)
    (hrep : s.bus.replies .adc = rxs.map okReply ++ rest) :
    (adcConfigure l s).hangsIn
      (s.bus.stallAfter (l.map fun x => (.adc, writeFrameBytes x.1 x.2.size.toNat x.2.value)) rxs) := by
  induction l generalizing s rxs with
  | nil => simp at hlen
  | cons x l ih =>
    simp only [adcConfigure, adcWriteFrame, Flow.andThen_assoc, Flow.andThen_ok, List.map_cons]
    refine hangsIn_xfer hrep hstall fun rx rxs' b hrx _ hrep' => ih (s := s.setBus b) ?_ hrep'
    rw [hrx] at hlen
    exact Nat.lt_of_succ_lt_succ hlen

/-- The frames of DAC_INIT. -/
theorem dacSendAll_hangs (n : BitVec 20) {cs : List ChanNo} (hlen : rxs.length < cs.length)
    (hrep : s.bus.dacIn = rxs.map okReply ++ rest) :
    (dacSendAll n cs s).hangsIn (s.bus.stallAfter (cs.map fun c => (.dac c, dacFrameBytes n)) rxs) := by
  induction cs generalizing s rxs with
  | nil => simp at hlen
  | cons c cs ih =>
    simp only [dacSendAll, dacSend, dacFrame, Flow.andThen_assoc, Flow.andThen_ok, List.map_cons]
    refine hangsIn_xfer hrep hstall fun rx rxs' b hrx _ hrep' => ih (s := (s.setBus b).setDacCode c n) ?_ hrep'
    rw [hrx] at hlen
    exact Nat.lt_of_succ_lt_succ hlen

/-- What ADC_INIT does after an identity that matches. -/
theorem adcInitChecked_hangs {id : BitVec 16} (hid : adcIdOk id = true)
    (hlen : rxs.length < (adcCfgWrites s.cfg.params).length) (hrep : s.bus.replies .adc = rxs.map okReply ++ rest) :
    (adcInitChecked id s).hangsIn (s.bus.stallAfter
      ((adcCfgWrites s.cfg.params).map fun x => (.adc, writeFrameBytes x.1 x.2.size.toNat x.2.value)) rxs) := by
  rw [adcInitChecked, if_pos hid]
  exact Flow.hangsIn_andThen (adcConfigure_hangs hstall hlen hrep) _

/-- ADC_INIT: the reset frame, the read of ID, and where the identity matches the configuration writes. -/
theorem adcInitFlow_hangs (hlen : rxs.length < (adcInitFrames s.cfg.params).length)
    (hid : identityPassed .adcInit rxs) (hrep : s.bus.replies .adc = rxs.map okReply ++ rest) :
    (adcInitFlow s).hangsIn (s.bus.stallAfter ((adcInitFrames s.cfg.params).map fun tx => (.adc, tx)) rxs) := by
  rw [adcInitFrames_eq] at hlen ⊢
  simp only [adcInitFlow, adcResetFrame, adcReadFrame, Flow.andThen_assoc, Flow.andThen_ok, List.map_cons, List.map_map]
  refine hangsIn_xfer (s := s.setAdcReady false) hrep hstall fun rx0 rxs1 b0 h0 _ hrep0 => ?_
  refine hangsIn_xfer (s := (s.setAdcReady false).setBus b0) hrep0 hstall fun rx1 rxs2 b1 h1 _ hrep1 => ?_
  have hok := hid rfl rx1 (by rw [h0, h1]; rfl)
  rw [h0, h1] at hlen
  exact adcInitChecked_hangs (s := (((s.setAdcReady false).setBus b0).setBus b1).setAdc _) hstall hok
    (by simpa using hlen) hrep1

end

/-! ### Every command -/

/-- The commands that send one frame, if any. -/
theorem serialFrames_single {i : Instr} (hadc : i ≠ .adcInit) (hdac : i ≠ .dacInit) (s : State) :
    serialFrames i s = (firstFrame i s).toList := by
  cases i <;> first | rfl | exact absurd rfl hadc | exact absurd rfl hdac

/-- A command that needs ADC_READY and sends a frame runs its body. -/
theorem whenAdcReady_of_frame {α : Type} {s : State} {f g : BusLine × List Byte} {body : State → Flow α}
    (hf : (if s.adcReady then some g else none) = some f) : g = f ∧ whenAdcReady s body = body s := by
  obtain ⟨hr, hg⟩ := Option.ite_none_right_eq_some.mp hf
  exact ⟨Option.some.inj hg, if_pos hr⟩

/-- A command that sends one frame begins with its transaction. -/
theorem commandFlow_begins {i : Instr} (hadc : i ≠ .adcInit) (hdac : i ≠ .dacInit) {s : State}
    {f : BusLine × List Byte} (hf : firstFrame i s = some f) :
    ∃ k, commandFlow i s = (spiXfer f.1 f.2 s).andThen k := by
  cases i with
  | nop | update c | updateAll | finalize c | cal | calT idx => exact absurd hf (Option.some_ne_none f).symm
  | adcInit => exact absurd rfl hadc
  | dacInit => exact absurd rfl hdac
  | adcReset =>
    obtain rfl := Option.some.inj hf
    exact ⟨_, Flow.andThen_assoc _ _ _⟩
  | adcRead a n =>
    obtain ⟨rfl, hbody⟩ := whenAdcReady_of_frame hf
    rw [commandFlow, adcReadFlow, hbody]
    exact ⟨_, Flow.andThen_assoc _ _ _⟩
  | adcWrite a n =>
    obtain ⟨rfl, hbody⟩ := whenAdcReady_of_frame hf
    rw [commandFlow, adcWriteFlow, hbody]
    exact ⟨_, rfl⟩
  | adcReadData =>
    obtain ⟨rfl, hbody⟩ := whenAdcReady_of_frame hf
    rw [commandFlow, adcReadDataFlow, hbody]
    exact ⟨_, Flow.andThen_assoc _ _ _⟩
  | dacSet c src =>
    obtain ⟨n, hcode, rfl⟩ := Option.map_eq_some_iff.mp hf
    rw [commandFlow, dacSetFlow, withDacCode, hcode]
    exact ⟨_, Flow.andThen_assoc _ _ _⟩

/-- A command whose first transactions end well and whose next one never returns hangs there, wherever among its frames
that is. -/
theorem commandFlow_hangs {i : Instr} {s : State} {rxs : List (List Byte)} {rest : List Reply}
    (hstall : (rest.headD ⟨.stall, false⟩).result = .stall) (hlen : rxs.length < (serialFrames i s).length)
    (hid : identityPassed i rxs) (hrep : ∀ g ∈ serialFrames i s, s.bus.replies g.1 = rxs.map okReply ++ rest) :
    (commandFlow i s).hangsIn (s.bus.stallAfter (serialFrames i s) rxs) := by
  by_cases hadc : i = .adcInit
  · subst hadc
    refine adcInitFlow_hangs hstall (by simpa [serialFrames] using hlen) hid (hrep (.adc, resetFrameBytes) ?_)
    rw [serialFrames, adcInitFrames_eq]
    exact List.mem_cons_self
  by_cases hdac : i = .dacInit
  · subst hdac
    rw [commandFlow, dacInitFlow, withDacCode]
    simp only [serialFrames] at hlen hrep ⊢
    cases hcode : dacCodeFrom s.cfg.params fZero with
    | none => rw [hcode] at hlen; exact absurd hlen (Nat.not_lt_zero _)
    | some n =>
      simp only [hcode] at hlen hrep
      exact dacSendAll_hangs hstall n hlen (hrep (.dac 0, dacFrameBytes n) List.mem_cons_self)
  · rw [serialFrames_single hadc hdac] at hlen hrep ⊢
    cases hf : firstFrame i s with
    | none => rw [hf] at hlen; exact absurd hlen (Nat.not_lt_zero _)
    | some f =>
      obtain ⟨k, hk⟩ := commandFlow_begins hadc hdac hf
      rw [hf] at hlen hrep
      rw [hk]
      exact hangsIn_single hlen (hrep f List.mem_cons_self) hstall

/-- A command sends all its frames on one bus (rules R68 to R83). -/
theorem serialFrames_sameBus (i : Instr) (s : State) {f g : BusLine × List Byte} (hf : f ∈ serialFrames i s)
    (hg : g ∈ serialFrames i s) : f.1.onAdc = g.1.onAdc := by
  by_cases hadc : i = .adcInit
  · subst hadc
    obtain ⟨_, -, rfl⟩ := List.mem_map.mp hf
    obtain ⟨_, -, rfl⟩ := List.mem_map.mp hg
    rfl
  by_cases hdac : i = .dacInit
  · subst hdac
    simp only [serialFrames] at hf hg
    cases hcode : dacCodeFrom s.cfg.params fZero with
    | none => rw [hcode] at hf; exact absurd hf List.not_mem_nil
    | some n =>
      rw [hcode] at hf hg
      obtain ⟨_, -, rfl⟩ := List.mem_map.mp hf
      obtain ⟨_, -, rfl⟩ := List.mem_map.mp hg
      rfl
  · rw [serialFrames_single hadc hdac, Option.mem_toList] at hf hg
    rw [Option.mem_unique hf hg]

/-- Settles O49: the buses of a command that hangs are those of its frames up to the stall. -/
theorem firstStallHangsTheCommand : Obligations.FirstStallHangsTheCommand := by
  intro s i rxs f rest hf hid hrep hstall
  obtain ⟨hlen, hget⟩ := List.getElem?_eq_some_iff.mp hf
  have hmem : f ∈ serialFrames i s := hget ▸ List.getElem_mem hlen
  have hbus : ∀ g ∈ serialFrames i s, g.1.onAdc = f.1.onAdc := fun g hg => serialFrames_sameBus i s hg hmem
  obtain ⟨u, hflow, hu⟩ := commandFlow_hangs hstall hlen hid fun g hg =>
    (Buses.replies_sameBus (hbus g hg) s.bus).trans hrep
  have hlines : (s.bus.stallAfter (serialFrames i s) rxs).csDacN = Vector.ofFn fun c : ChanNo =>
      if f.1 = .dac c then false
      else if ((serialFrames i s).take rxs.length).any (fun g => g.1 == .dac c) then true
      else s.bus.csDacN[c] := by
    ext c hc
    rw [Vector.getElem_ofFn]
    exact s.bus.stallAfter_csDacN hf ⟨c, hc⟩
  refine ⟨s.setBus u.bus, by rw [exec_eq, hflow]; rfl, rfl, rfl, framed_setBus (framed_refl [] s) u.bus, rfl, ?_⟩
  rw [State.setBus_bus, hu, Buses.stallAfter_rest s.bus hf hbus hrep, hlines]
  rfl

end Sys2Proof.Machine
end

section
/-! PROOFS. The address decoder and the addresses of the registers are inverse to each other (rules R24, R26, R30,
R36). -/

namespace Sys2Proof.Machine

/-! ### From a register to its address and back -/

theorem ChanReg.offset_bounds (r : ChanReg) : r.offset < 0x100 ∧ r.offset % 4 = 0 := by
  cases r with
  | ws i => simp only [ChanReg.offset]; omega
  | w i => simp only [ChanReg.offset]; omega
  | _ => decide

/-- A channel register is found at its offset. -/
theorem chanRegAt_offset (r : ChanReg) : chanRegAt r.offset = some r := by
  have hindex (i : Fin 16) (k : Nat) (hk : k = 32 ∨ k = 48) : Fin.ofNat 16 ((4 * k + 4 * i.val) / 4) = i := by
    apply Fin.ext; simp only [Fin.ofNat]; omega
  cases r with
  | ws i =>
    rw [ChanReg.offset, chanRegAt, if_neg (by omega), if_pos (by omega), hindex i 32 (.inl rfl)]
  | w i =>
    rw [ChanReg.offset, chanRegAt, if_neg (by omega), if_neg (by omega), hindex i 48 (.inr rfl)]
  | _ => rfl

theorem regAtAligned_chan (c : ChanNo) {off : Nat} (h : off < 0x100) :
    regAtAligned (0x100 * (c.val + 1) + off) = (chanRegAt off).map (.chan c) := by
  have hc : Fin.ofNat 4 ((0x100 * (c.val + 1) + off) / 0x100 - 1) = c := by
    apply Fin.ext; simp only [Fin.ofNat]; omega
  rw [regAtAligned, if_neg (by omega), if_pos (by omega), hc, show (0x100 * (c.val + 1) + off) % 0x100 = off by omega]

theorem regAtAligned_cal (k : Fin 144) {off : Nat} (h : off < 16) :
    regAtAligned (0x1000 + 16 * k.val + off) = (calColumnAt off).map (.cal k) := by
  have hk : Fin.ofNat 144 ((0x1000 + 16 * k.val + off - 0x1000) / 16) = k := by
    apply Fin.ext; simp only [Fin.ofNat]; omega
  rw [regAtAligned, if_neg (by omega), if_neg (by omega), if_pos (by omega), hk,
    show (0x1000 + 16 * k.val + off) % 16 = off by omega]

/-- A register is found at its address, which is aligned and has 16 bits (rules R34, R35). -/
theorem regAtAligned_addr (r : Reg) : regAtAligned r.addr = some r ∧ r.addr % 4 = 0 ∧ r.addr < 2 ^ 16 := by
  cases r with
  | dacCur c => revert c; decide
  | dacCode c => revert c; decide
  | temp i =>
    have hi : Fin.ofNat 16 ((0x0080 + 4 * i.val) / 4) = i := by apply Fin.ext; simp only [Fin.ofNat]; omega
    refine ⟨?_, by simp only [Reg.addr]; omega, by simp only [Reg.addr]; omega⟩
    rw [Reg.addr, regAtAligned, if_pos (by omega), globalRegAt, if_neg (by omega), if_pos (by omega), hi]
  | chan c q =>
    obtain ⟨hlt, halign⟩ := q.offset_bounds
    refine ⟨?_, by simp only [Reg.addr]; omega, by simp only [Reg.addr]; omega⟩
    rw [Reg.addr, regAtAligned_chan c hlt, chanRegAt_offset, Option.map_some]
  | cal k col =>
    have hcol : col.offset < 16 ∧ col.offset % 4 = 0 ∧ calColumnAt col.offset = some col := by cases col <;> decide
    obtain ⟨hlt, halign, hat⟩ := hcol
    refine ⟨?_, by simp only [Reg.addr]; omega, by simp only [Reg.addr]; omega⟩
    rw [Reg.addr, regAtAligned_cal k hlt, hat, Option.map_some]
  | _ => decide

theorem Reg.toNat_hostAddr (r : Reg) : r.hostAddr.toNat = r.addr := by
  obtain ⟨-, -, hlt⟩ := regAtAligned_addr r
  rw [Reg.hostAddr, BitVec.toNat_ofNat, Nat.mod_eq_of_lt hlt]

/-- The address decoder gives each register at its address. -/
@[simp] theorem decodeAddr_hostAddr (r : Reg) : decodeAddr r.hostAddr = some r := by
  obtain ⟨hat, halign, -⟩ := regAtAligned_addr r
  rw [decodeAddr, r.toNat_hostAddr, if_pos halign, hat]

/-! ### From an address to its register and back -/

/-- Whatever channel register is found at an offset has that offset. -/
theorem offset_of_chanRegAt {off : Nat} {r : ChanReg} (halign : off % 4 = 0) (hlt : off < 0x100)
    (h : chanRegAt off = some r) : r.offset = off := by
  have htable : ∀ k < 32, ∀ q ∈ chanRegAt (4 * k), q.offset = 4 * k := by decide
  by_cases hlow : off < 0x80
  · rw [show off = 4 * (off / 4) by omega] at h ⊢
    exact htable _ (by omega) r h
  · rw [chanRegAt, if_neg hlow] at h
    split at h <;> obtain rfl := Option.some.inj h <;> simp only [ChanReg.offset, Fin.ofNat] <;> omega

/-- Whatever global register is found at an address has that address. -/
theorem addr_of_globalRegAt {a : Nat} {r : Reg} (halign : a % 4 = 0) (h : globalRegAt a = some r) : r.addr = a := by
  have htable : ∀ k < 32, ∀ q ∈ globalRegAt (4 * k), q.addr = 4 * k := by decide
  by_cases hlow : a < 0x80
  · rw [show a = 4 * (a / 4) by omega] at h ⊢
    exact htable _ (by omega) r h
  · rw [globalRegAt, if_neg hlow] at h
    split at h
    · obtain rfl := Option.some.inj h
      simp only [Reg.addr, Fin.ofNat]; omega
    · cases h

/-- Whatever column is found at a byte offset of an entry has that offset. -/
theorem offset_of_calColumnAt {off : Nat} {col : CalColumn} (halign : off % 4 = 0) (hlt : off < 16)
    (h : calColumnAt off = some col) : col.offset = off := by
  have htable : ∀ k < 4, ∀ q ∈ calColumnAt (4 * k), q.offset = 4 * k := by decide
  rw [show off = 4 * (off / 4) by omega] at h ⊢
  exact htable _ (by omega) col h

/-- Whatever register the address decoder gives at an address has that address. -/
theorem addr_of_decodeAddr {a : HostAddr} {r : Reg} (h : decodeAddr a = some r) : r.addr = a.toNat := by
  obtain ⟨halign, hat⟩ := Option.ite_none_right_eq_some.mp h
  unfold regAtAligned at hat
  split at hat
  · exact addr_of_globalRegAt halign hat
  · split at hat
    · obtain ⟨q, hq, rfl⟩ := Option.map_eq_some_iff.mp hat
      have := offset_of_chanRegAt (by omega) (by omega) hq
      simp only [Reg.addr, Fin.ofNat]; omega
    · obtain ⟨hrange, hmap⟩ := Option.ite_none_right_eq_some.mp hat
      obtain ⟨col, hcol, rfl⟩ := Option.map_eq_some_iff.mp hmap
      have := offset_of_calColumnAt (by omega) (by omega) hcol
      simp only [Reg.addr, Fin.ofNat]; omega

theorem hostAddr_of_decodeAddr {a : HostAddr} {r : Reg} (h : decodeAddr a = some r) : a = r.hostAddr :=
  BitVec.eq_of_toNat_eq (by rw [r.toNat_hostAddr, addr_of_decodeAddr h])

/-- Settles O5: the decoder and the addresses are inverse to each other, and the addresses are those of the tables. -/
theorem registerAddressesAgree : Obligations.RegisterAddressesAgree := by
  refine ⟨decodeAddr_hostAddr, fun a r => addr_of_decodeAddr, by decide, ?_, fun k => ?_⟩
  · have hoffset : ∀ x ∈ channelMap, x.2.offset = x.1 := by decide
    have hbase : ∀ c : ChanNo, [0x0100, 0x0200, 0x0300, 0x0400].getD c.val 0 = 0x0100 * (c.val + 1) := by decide
    intro x hx c
    rw [Reg.addr, hoffset x hx, hbase]
  · simp only [Reg.addr, CalColumn.offset]; omega

end Sys2Proof.Machine
end

section
/-! PROOFS. A word that the decoder accepts is the word of the command it decodes to (rules R54 to R57). -/

namespace Sys2Proof

/-! ### A word and its fields -/

/-- A word whose reserved bits are zero is laid out of its fields (rule R54). -/
theorem layWord_of_fields {w : Word} (hhigh : w.extractLsb' 27 5 = 0#5) (hmid : w.extractLsb' 12 4 = 0#4) :
    layWord (w.extractLsb' 24 3) (w.extractLsb' 16 8) (w.getLsbD 11) (w.getLsbD 10) (w.extractLsb' 8 2) (fieldOp w) =
      w := by
  rw [layWord, ← hhigh, ← hmid]
  apply BitVec.eq_of_getLsbD_eq
  intro i hi
  simp only [fieldOp, BitVec.getLsbD_append, BitVec.getLsbD_extractLsb', BitVec.getLsbD_ofBool]
  interval_cases i <;> simp

section
variable {w : Word} {start len : Nat} (hzero : w.extractLsb' start len = 0)
include hzero

/-- A bit of a field that is zero. -/
theorem getLsbD_of_zero_field {n : Nat} (hlow : start ≤ n) (hhigh : n < start + len) : w.getLsbD n = false := by
  have hbit := congrArg (·.getLsbD (n - start)) hzero
  simpa [BitVec.getLsbD_extractLsb', show n - start < len by omega, Nat.add_sub_cancel' hlow] using hbit

/-- A part of a field that is zero. -/
theorem extractLsb'_of_zero_field {m k : Nat} (hlow : start ≤ m) (hhigh : m + k ≤ start + len) :
    w.extractLsb' m k = 0 := by
  apply BitVec.eq_of_getLsbD_eq
  intro i hi
  rw [BitVec.getLsbD_extractLsb', getLsbD_of_zero_field hzero (by omega) (by omega), Bool.and_false]
  exact BitVec.getLsbD_zero.symm

end

/-! ### The word of each command -/

theorem decodeIf_eq_ok {ok : Bool} {i j : Instr} : decodeIf ok i = .ok j ↔ ok = true ∧ i = j := by
  cases ok <;> simp [decodeIf]

section
variable {w : Word} (hhigh : w.extractLsb' 27 5 = 0#5) (hmid : w.extractLsb' 12 4 = 0#4)
include hhigh hmid

/-- A word is laid out of the values of its fields. -/
theorem layWord_eq {size : BitVec 3} {addr : BitVec 8} {wt src : Bool} {ch : BitVec 2} {op : BitVec 8}
    (hsize : w.extractLsb' 24 3 = size) (haddr : w.extractLsb' 16 8 = addr) (hwt : w.getLsbD 11 = wt)
    (hsrc : w.getLsbD 10 = src) (hch : w.extractLsb' 8 2 = ch) (hop : fieldOp w = op) :
    layWord size addr wt src ch op = w := by
  subst hsize haddr hwt hsrc hch hop
  exact layWord_of_fields hhigh hmid

/-- The word of a command without operands. -/
theorem layWord_of_noOperands (h : w.extractLsb' 8 19 = 0#19) {op : BitVec 8} (hop : fieldOp w = op) :
    layWord 0 0 false false 0 op = w :=
  layWord_eq hhigh hmid (extractLsb'_of_zero_field h (by omega) (by omega))
    (extractLsb'_of_zero_field h (by omega) (by omega)) (getLsbD_of_zero_field h (by omega) (by omega))
    (getLsbD_of_zero_field h (by omega) (by omega)) (extractLsb'_of_zero_field h (by omega) (by omega)) hop

/-- The word of a command whose one operand is a channel. -/
theorem layWord_of_channel (h : w.extractLsb' 10 17 = 0#17) {op : BitVec 8} (hop : fieldOp w = op) :
    layWord 0 0 false false (.ofFin (fieldCh w)) op = w :=
  layWord_eq hhigh hmid (extractLsb'_of_zero_field h (by omega) (by omega))
    (extractLsb'_of_zero_field h (by omega) (by omega)) (getLsbD_of_zero_field h (by omega) (by omega))
    (getLsbD_of_zero_field h (by omega) (by omega)) rfl hop

/-- The word of CAL. -/
theorem layWord_of_cal (h : w.extractLsb' 16 11 = 0#11) (hlow : w.extractLsb' 8 3 = 0#3) (hwt : w.getLsbD 11 = false)
    {op : BitVec 8} (hop : fieldOp w = op) : layWord 0 0 false false 0 op = w :=
  layWord_eq hhigh hmid (extractLsb'_of_zero_field h (by omega) (by omega))
    (extractLsb'_of_zero_field h (by omega) (by omega)) hwt (getLsbD_of_zero_field hlow (by omega) (by omega))
    (extractLsb'_of_zero_field hlow (by omega) (by omega)) hop

/-- The word of CAL.T. -/
theorem layWord_of_calT (h : w.extractLsb' 20 7 = 0#7) (hlow : w.extractLsb' 8 3 = 0#3) (hwt : w.getLsbD 11 = true)
    {op : BitVec 8} (hop : fieldOp w = op) :
    layWord 0 (0#4 ++ (BitVec.ofFin (fieldIdx w) : BitVec 4)) true false 0 op = w := by
  have haddr : w.extractLsb' 16 8 = 0#4 ++ w.extractLsb' 16 4 := by
    rw [← show w.extractLsb' 20 4 = 0#4 from extractLsb'_of_zero_field h (by omega) (by omega)]
    exact (BitVec.extractLsb'_append_extractLsb'_eq_extractLsb' (x := w) (len₁ := 4) (len₂ := 4)
      (show 20 = 16 + 4 from rfl)).symm
  exact layWord_eq hhigh hmid (extractLsb'_of_zero_field h (by omega) (by omega)) haddr hwt
    (getLsbD_of_zero_field hlow (by omega) (by omega)) (extractLsb'_of_zero_field hlow (by omega) (by omega)) hop

/-- The word of ADC_READ and ADC_WRITE. -/
theorem layWord_of_adcAccess (hlow : w.extractLsb' 8 8 = 0#8) (htop : w.extractLsb' 22 2 = 0#2) {op : BitVec 8}
    (hop : fieldOp w = op) : layWord (fieldSize w) (0#2 ++ fieldAddr w) false false 0 op = w := by
  have haddr : w.extractLsb' 16 8 = 0#2 ++ fieldAddr w := by
    rw [← htop]
    exact (BitVec.extractLsb'_append_extractLsb'_eq_extractLsb' (x := w) (len₁ := 6) (len₂ := 2)
      (show 22 = 16 + 6 from rfl)).symm
  exact layWord_eq hhigh hmid rfl haddr (getLsbD_of_zero_field hlow (by omega) (by omega))
    (getLsbD_of_zero_field hlow (by omega) (by omega)) (extractLsb'_of_zero_field hlow (by omega) (by omega)) hop

/-- The word of DAC_SET. -/
theorem layWord_of_dacSet (h : w.extractLsb' 11 16 = 0#16) {op : BitVec 8} (hop : fieldOp w = op) :
    layWord 0 0 false (fieldSrc w == .out) (.ofFin (fieldCh w)) op = w := by
  have hsrc : w.getLsbD 10 = (fieldSrc w == .out) := by unfold fieldSrc; cases w.getLsbD 10 <;> rfl
  exact layWord_eq hhigh hmid (extractLsb'_of_zero_field h (by omega) (by omega))
    (extractLsb'_of_zero_field h (by omega) (by omega)) (getLsbD_of_zero_field h (by omega) (by omega)) hsrc rfl hop

/-! ### Accepted words -/

/-- By opcode: an accepted word whose reserved bits are zero is the word of a well-formed command. -/
theorem encode_of_decodeOp {i : Instr} (h : decodeOp w = .ok i) : i.wf = true ∧ encode i = w := by
  have hop {n : Nat} (hn : (fieldOp w).toNat = n) : fieldOp w = BitVec.ofNat 8 n := by
    rw [← hn, BitVec.ofNat_toNat, BitVec.setWidth_eq]
  unfold decodeOp at h
  split at h
  case h_5 heq =>
    split at h
    · next hwt =>
      obtain ⟨hok, rfl⟩ := decodeIf_eq_ok.mp h
      obtain ⟨htop, hlow⟩ := Bool.and_eq_true_iff.mp hok
      exact ⟨rfl, layWord_of_calT hhigh hmid (eq_of_beq htop) (eq_of_beq hlow) hwt (hop heq)⟩
    · next hwt =>
      obtain ⟨hok, rfl⟩ := decodeIf_eq_ok.mp h
      obtain ⟨htop, hlow⟩ := Bool.and_eq_true_iff.mp hok
      exact ⟨rfl, layWord_of_cal hhigh hmid (eq_of_beq htop) (eq_of_beq hlow) (Bool.eq_false_of_not_eq_true hwt)
        (hop heq)⟩
  case h_8 heq | h_9 heq =>
    split at h
    · next hsize =>
      obtain ⟨hok, rfl⟩ := decodeIf_eq_ok.mp h
      obtain ⟨hlow, htop⟩ := Bool.and_eq_true_iff.mp hok
      exact ⟨hsize, layWord_of_adcAccess hhigh hmid (eq_of_beq hlow) (eq_of_beq htop) (hop heq)⟩
    · cases h
  case h_13 => cases h
  case h_2 heq | h_4 heq =>
    obtain ⟨hok, rfl⟩ := decodeIf_eq_ok.mp h
    exact ⟨rfl, layWord_of_channel hhigh hmid (eq_of_beq hok) (hop heq)⟩
  case h_12 heq =>
    obtain ⟨hok, rfl⟩ := decodeIf_eq_ok.mp h
    exact ⟨rfl, layWord_of_dacSet hhigh hmid (eq_of_beq hok) (hop heq)⟩
  all_goals
    next heq =>
    obtain ⟨hok, rfl⟩ := decodeIf_eq_ok.mp h
    exact ⟨rfl, layWord_of_noOperands hhigh hmid (eq_of_beq hok) (hop heq)⟩

end

/-- An accepted word is the word of a well-formed command, the one it decodes to. -/
theorem encode_of_decode {w : Word} {i : Instr} (h : decode w = .ok i) : i.wf = true ∧ encode i = w := by
  unfold decode at h
  split at h
  · next hres =>
    obtain ⟨hhigh, hmid⟩ := Bool.and_eq_true_iff.mp hres
    exact encode_of_decodeOp (eq_of_beq hhigh) (eq_of_beq hmid) h
  · cases h

end Sys2Proof
end

section
/-! PROOFS. Everything a step can do to the state, as one relation (rules R5, R37, R38, R48, R59, R122), and the turn on
which a command is accepted and the one on which it runs (rules R23, R59). -/

namespace Sys2Proof.Machine

/-! ### The effects of a step -/

/-- What one step does to the state, with what each case knows of the state before it; `l` are the inputs left. -/
inductive StepEffect (s : State) : State → Prop where
  | idle (l : List Input) : StepEffect s (s.setInputs l)
  | read (l : List Input) (v : Word) : StepEffect s ((s.setInputs l).setHRdata v)
  | badRead (l : List Input) : StepEffect s (((s.setInputs l).flag .accErr).setHRdata 0)
  | flag (l : List Input) (e : Cause) : StepEffect s ((s.setInputs l).flag e)
  | dispatch (l : List Input) (v : Word) (i : Instr) (hrst : s.rstN = true) (hseq : s.seq = .idle)
      (hdec : decode v = .ok i) : StepEffect s (((s.setInputs l).setCmd v).setSeq (.busy i))
  | clear (l : List Input) (v : Word) (hseq : s.seq = .idle) (hin : s.inputs = .hostWrite 0x0004#16 v :: l) :
      StepEffect s ((s.setInputs l).clearSticky v)
  | setWdata (l : List Input) (v : Word) : StepEffect s ((s.setInputs l).setAdc { s.adc with wdata := v })
  | setVin (l : List Input) (v : Word) : StepEffect s ((s.setInputs l).setCal { s.cal with vin := v })
  | setDacCur (l : List Input) (c : ChanNo) (v : Word) : StepEffect s ((s.setInputs l).setDacCur c v)
  | setTemp (l : List Input) (i : Fin 16) (v : Word) : StepEffect s ((s.setInputs l).setTemp i v)
  | setChan (l : List Input) (c : ChanNo) (q : ChState) (g : Stage) :
      StepEffect s ((s.setInputs l).setChan c { s.ch[c] with state := q, stage := g })
  | enterReset (l : List Input) : StepEffect s (s.setInputs l).enterReset
  | leaveReset (l : List Input) (hrst : s.rstN = false) : StepEffect s (s.setInputs l).leaveReset
  | run (l : List Input) (i : Instr) (t : State) (hrst : s.rstN = true) (hseq : s.seq = .busy i)
      (hfree : s.bus.inFlight = none) (hexec : exec i (s.setInputs l) = .next t) : StepEffect s t

theorem State.isBusy_eq_false {s : State} : s.isBusy = false ↔ s.seq = .idle := by
  unfold State.isBusy; cases s.seq <;> simp

theorem hostRead_effect (s : State) (a : HostAddr) (l : List Input) :
    StepEffect s ((s.setInputs l).hostRead a) := by
  unfold State.hostRead
  split
  · cases ha : decodeAddr a with
    | some r => rw [memRead_mapped ha]; exact .read l _
    | none => rw [memRead_unmapped ha]; exact .badRead l
  · exact .read l 0

/-- A write to a register while IDLE. -/
theorem regWrite_effect {s : State} {r : Reg} {v : Word} {l : List Input} (hrst : s.rstN = true) (hseq : s.seq = .idle)
    (hin : s.inputs = .hostWrite r.hostAddr v :: l) : StepEffect s (r.write v (s.setInputs l)) := by
  rcases Reg.write_cases r v (s.setInputs l) with ⟨i, rfl, hdec, h⟩ | ⟨rfl, h⟩ | ⟨e, h⟩ | ⟨rfl, h⟩ | ⟨rfl, h⟩ |
    ⟨c, rfl, h⟩ | ⟨i, rfl, h⟩ | ⟨c, q, g, h⟩ | h <;> rw [h]
  · exact .dispatch l v i hrst hseq hdec
  · exact .clear l v hseq hin
  · exact .flag l e
  · exact .setWdata l v
  · exact .setVin l v
  · exact .setDacCur l c v
  · exact .setTemp l i v
  · exact .setChan l c q g
  · exact .idle l

theorem hostWrite_effect {s : State} {a : HostAddr} {v : Word} {l : List Input}
    (hin : s.inputs = .hostWrite a v :: l) : StepEffect s ((s.setInputs l).hostWrite a v) := by
  unfold State.hostWrite
  split
  · next hrst =>
    rcases memWrite_cases (s.setInputs l) a v with ⟨-, h⟩ | ⟨-, h⟩ | ⟨r, hidle, hdec, -, h⟩ <;> rw [h]
    · exact .flag l .wrBusy
    · exact .flag l .accErr
    · rw [hostAddr_of_decodeAddr hdec] at hin
      exact regWrite_effect hrst (State.isBusy_eq_false.mp hidle) hin
  · exact .idle l

theorem setRstPin_effect (s : State) (level : Bool) (l : List Input) :
    StepEffect s ((s.setInputs l).setRstPin level) := by
  unfold State.setRstPin
  split
  · split
    · exact .idle l
    · next hrst => exact .leaveReset l (Bool.eq_false_of_not_eq_true hrst)
  · exact .enterReset l

/-- Every step has one of the effects. -/
theorem step_effect {s t : State} (h : step s = .next t) : StepEffect s t := by
  rcases step_cases s with ⟨l, hs⟩ | ⟨a, l, -, hs⟩ | ⟨a, v, l, hin, hs⟩ | ⟨b, l, -, hs⟩ |
    ⟨i, l, hrst, hseq, hfree, hs⟩ <;> rw [hs] at h
  · cases h; exact .idle l
  · cases h; exact hostRead_effect s a l
  · cases h; exact hostWrite_effect hin
  · cases h; exact setRstPin_effect s b l
  · exact .run l i t hrst hseq hfree h

/-! ### The end of a command -/

/-- What holds all along a command's flow, carried over its end: `P` where it ends or reset cuts it, `Q` where it
hangs. -/
theorem exec_of_flow {P Q R : State → Prop} {i : Instr} {s t : State} (hflow : (commandFlow i s).ends P Q)
    (hcommit : ∀ u, P u → R u.commit) (hhang : ∀ u, Q u → R (s.setBus u.bus))
    (hreset : ∀ b, R (s.setBus b).enterReset) (h : exec i s = .next t) : R t := by
  rw [exec_eq] at h
  cases h
  cases hf : commandFlow i s with
  | ok a u => rw [hf] at hflow; exact hcommit u hflow
  | raised u => rw [hf] at hflow; exact hcommit u hflow
  | hung u => rw [hf] at hflow; exact hhang u hflow
  | resetHit u => exact hreset u.bus

/-! ### Acceptance and the sequencer's turn -/

/-- Settles O7: on the sequencer's turn the running command is what the step runs. -/
theorem stepRunsTheBusyCommand : Obligations.StepRunsTheBusyCommand := by
  intro s i rest hrst hseq hfree
  refine ⟨fun hin => ?_, fun hin => ?_⟩
  · have hturn := sequencerTurn_run (s := s.setInputs rest) hrst hseq hfree
    simp only [step, nextTurn, hin, hturn]
  · simp only [step, nextTurn, hin, sequencerTurn_run hrst hseq hfree]

/-- A host write to a register, out of reset and while IDLE, where the register is not read-only. -/
theorem step_write {s : State} {r : Reg} {v : Word} {rest : List Input} (hrst : s.rstN = true) (hseq : s.seq = .idle)
    (hin : s.inputs = .hostWrite r.hostAddr v :: rest) (hro : r.readOnly = false) :
    step s = .next (r.write v (s.setInputs rest)) := by
  have hidle : (s.setInputs rest).isBusy = false := State.isBusy_idle hseq
  rw [step_hostWrite hin, State.hostWrite, if_pos (show (s.setInputs rest).rstN = true from hrst),
    memWrite_writable hidle (decodeAddr_hostAddr r) hro]

/-- The state in which a word is accepted differs from the one before in CMD and the phase alone. -/
theorem framed_accept (s : State) (v : Word) (i : Instr) : framed [.cmd] s ((s.setCmd v).setSeq (.busy i)) := by
  refine ⟨fun r hstatus hcmd => ?_, rfl, rfl, rfl, rfl⟩
  rw [Reg.read_setSeq hstatus, Reg.read_setCmd (fun h => hcmd (by simp [h]))]

/-- Settles O6: the word is accepted, and the next turn is the sequencer's. -/
theorem acceptedWordIsRun : Obligations.AcceptedWordIsRun := by
  intro s v i rest hrst hseq hfree hdec hin
  have hwrite := step_write (r := .cmd) hrst hseq hin rfl
  rw [Reg.write, dispatchWord_ok hdec] at hwrite
  have hrun := (stepRunsTheBusyCommand
    (((s.setInputs (.sequencer :: rest)).setCmd v).setSeq (.busy i)) i rest hrst rfl hfree).1 rfl
  exact ⟨_, hwrite, framed_accept _ v i, rfl, (State.statusRead_busy _).trans (State.isBusy_busy rfl), rfl, rfl, hrun⟩

end Sys2Proof.Machine
end

section
/-! PROOFS. What a host write does to each kind of writable register while IDLE (rules R20, R25, R28, R38, R50). -/

namespace Sys2Proof.Machine

/-! ### Plain registers -/

theorem Reg.write_chan {q : ChanReg} (hq : q ≠ .state) (c : ChanNo) (v : Word) (s : State) :
    Reg.write (.chan c q) v s = s.setChan c { s.ch[c] with stage := q.writeStage v s.ch[c].stage } := by
  cases q <;> first | rfl | exact absurd rfl hq

/-- A write to a plain register is read back. -/
theorem Reg.read_write_same {r : Reg} (hro : r.readOnly = false) (hcmd : r ≠ .cmd) (hstatus : r ≠ .status)
    (hstate : ∀ c, r ≠ .chan c .state) (v : Word) (s : State) : r.read (r.write v s) = v := by
  cases r with
  | cmd => exact absurd rfl hcmd
  | status => exact absurd rfl hstatus
  | adcWdata | calVin => rfl
  | dacCur c => exact Reg.read_setDacCur_same s c v
  | temp i => exact Reg.read_setTemp_same s i v
  | chan c q =>
    have hq : q ≠ .state := fun h => hstate c (by rw [h])
    rw [Reg.write_chan hq, Reg.read_setChan_same, ChanReg.read_writeStage_same hro hq]
  | adcRdata | adcData | adcTag | adcId | calTout | calIdx | dacCode | maxCur | cSafe | cal =>
    exact Bool.noConfusion hro

/-- A write to a plain register leaves every other register. -/
theorem framed_write {r : Reg} (hcmd : r ≠ .cmd) (hstatus : r ≠ .status) (hstate : ∀ c, r ≠ .chan c .state)
    (v : Word) (s : State) : framed [r] s (r.write v s) := by
  cases r with
  | cmd => exact absurd rfl hcmd
  | status => exact absurd rfl hstatus
  | adcWdata =>
    refine ⟨fun q _ hq => Reg.read_setAdc (fun e => absurd ?_ hq) (fun _ => rfl) (fun _ => rfl) (fun _ => rfl)
      (fun _ => rfl), rfl, rfl, rfl, rfl⟩
    rw [e]; exact List.mem_singleton_self _
  | calVin =>
    refine ⟨fun q _ hq => Reg.read_setCal (fun e => absurd ?_ hq) (fun _ => rfl) (fun _ => rfl), rfl, rfl, rfl, rfl⟩
    rw [e]; exact List.mem_singleton_self _
  | dacCur c =>
    exact ⟨fun q _ hq => Reg.read_setDacCur_other (fun e => hq (List.mem_singleton.mpr e)) s v, rfl, rfl, rfl, rfl⟩
  | temp i =>
    exact ⟨fun q _ hq => Reg.read_setTemp_other (fun e => hq (List.mem_singleton.mpr e)) s v, rfl, rfl, rfl, rfl⟩
  | chan c q =>
    rw [Reg.write_chan fun h => hstate c (by rw [h])]
    exact framed_setChan (framed_refl _ s) fun p hp => ChanReg.read_writeStage_other (fun e => hp (by simp [e])) v _
  | adcRdata | adcData | adcTag | adcId | calTout | calIdx | dacCode | maxCur | cSafe | cal => exact framed_refl _ s

/-- A write to a plain register leaves STATUS, the phase and the buses. -/
theorem Reg.write_rest {r : Reg} (hcmd : r ≠ .cmd) (hstatus : r ≠ .status) (hstate : ∀ c, r ≠ .chan c .state)
    (v : Word) (s : State) :
    (r.write v s).status = s.status ∧ (r.write v s).seq = s.seq ∧ (r.write v s).bus = s.bus := by
  cases r with
  | cmd => exact absurd rfl hcmd
  | status => exact absurd rfl hstatus
  | chan c q =>
    rw [Reg.write_chan fun h => hstate c (by rw [h])]
    exact ⟨rfl, rfl, rfl⟩
  | _ => exact ⟨rfl, rfl, rfl⟩

/-- Settles O13: the write stores, reads back and leaves the rest. -/
theorem plainWritesStoreTheirValue : Obligations.PlainWritesStoreTheirValue := by
  intro s r v rest hrst hseq hin hro hcmd hstatus hstate
  obtain ⟨hst, hsq, hbus⟩ := Reg.write_rest hcmd hstatus hstate v (s.setInputs rest)
  exact ⟨_, step_write hrst hseq hin hro, Reg.read_write_same hro hcmd hstatus hstate v _,
    framed_write hcmd hstatus hstate v _, hst, hsq.trans hseq, hbus⟩

/-! ### STATUS -/

theorem stickyMask_getLsbD (n : Nat) :
    stickyMask.getLsbD n = ((8 ≤ n && n ≤ 17) || (20 ≤ n && n ≤ 23)) := by
  have hlow : ∀ n < 32, stickyMask.getLsbD n = ((8 ≤ n && n ≤ 17) || (20 ≤ n && n ≤ 23)) := by decide
  by_cases hn : n < 32
  · exact hlow n hn
  · rw [BitVec.getLsbD_of_ge _ _ (by omega)]
    simp; omega

theorem storedMask_getLsbD (n : Nat) : storedMask.getLsbD n = isStatusField n := by
  have hlow : ∀ n < 32, storedMask.getLsbD n = isStatusField n := by decide
  by_cases hn : n < 32
  · exact hlow n hn
  · rw [BitVec.getLsbD_of_ge _ _ (by omega)]
    simp [isStatusField]; omega

theorem State.clearSticky_getLsbD (s : State) (v : Word) (n : Nat) :
    (s.clearSticky v).status.getLsbD n = (s.status.getLsbD n && !(v.getLsbD n && stickyMask.getLsbD n)) := by
  by_cases hn : n < 32
  · simp [hn]
  · simp [BitVec.getLsbD_of_ge s.status n (by omega)]

/-- Settles O14: a write to STATUS clears by the sticky mask, and a read masks what is not stored. -/
theorem statusWriteClearsWrittenOnes : Obligations.StatusWriteClearsWrittenOnes := by
  refine ⟨fun s v rest hrst hseq hin => ?_, fun s => ⟨?_, fun n hn => ?_⟩⟩
  · refine ⟨_, step_write (r := .status) hrst hseq hin rfl, rfl, fun n => ?_⟩
    rw [← stickyMask_getLsbD]
    exact State.clearSticky_getLsbD _ v n
  · exact (State.statusRead_busy s).symm ▸ State.isBusy_eq_false
  · rw [Reg.read, State.statusRead_getLsbD, storedMask_getLsbD, decide_eq_false (by omega), Bool.false_and,
      Bool.or_false, Bool.and_comm]

/-! ### STATE -/

/-- The values that name a channel state are 0, 1 and 2. -/
theorem chStateOf_of_le {v : Word} (h : v.toNat ≤ 2) : ∃ q, chStateOf v = some q ∧ q.code = v := by
  obtain hv | hv | hv : v.toNat = 0 ∨ v.toNat = 1 ∨ v.toNat = 2 := by omega
  · obtain rfl : v = 0#32 := BitVec.eq_of_toNat_eq hv
    exact ⟨.off, rfl, rfl⟩
  · obtain rfl : v = 1#32 := BitVec.eq_of_toNat_eq hv
    exact ⟨.on, rfl, rfl⟩
  · obtain rfl : v = 2#32 := BitVec.eq_of_toNat_eq hv
    exact ⟨.hold, rfl, rfl⟩

theorem chStateOf_of_gt {v : Word} (h : 2 < v.toNat) : chStateOf v = none := by
  have hne (k : Word) (hk : k.toNat ≤ 2) : v ≠ k := fun e => by rw [e] at h; omega
  rw [chStateOf, if_neg (hne 0 (by decide)), if_neg (hne 1 (by decide)), if_neg (hne 2 (by decide))]

theorem framed_setState (s : State) (c : ChanNo) (q : ChState) :
    framed [.chan c .state] s (s.setChan c { s.ch[c] with state := q }) := by
  refine framed_setChan (framed_refl _ s) fun r hr => ?_
  cases r <;> first | rfl | exact absurd (List.mem_singleton_self _) hr

/-- Settles O15: a write to STATE stores the state its value names, or flags the error. -/
theorem stateWritesAreChecked : Obligations.StateWritesAreChecked := by
  intro s c v rest hrst hseq hin
  have hwrite := step_write (r := .chan c .state) hrst hseq hin rfl
  refine ⟨fun hle => ?_, fun hgt => ?_⟩
  · obtain ⟨q, hq, hcode⟩ := chStateOf_of_le hle
    rw [Reg.write, writeChState, hq] at hwrite
    exact ⟨_, hwrite, by rw [Reg.read_setChan_same]; exact hcode, framed_setState _ c q, rfl, hseq, rfl⟩
  · rw [Reg.write, writeChState, chStateOf_of_gt hgt] at hwrite
    exact hwrite

end Sys2Proof.Machine
end

section
/-! PROOFS. Safety: LO, HI, OUT, Y1 and Y2 stay within ±C_SAFE (rules R29, R97, R98, R101, R122). -/

namespace Sys2Proof.Machine

/-! ### C_SAFE and the data within it -/

section
variable (cfg : AdmittedConfig)

/-- C_SAFE of an admitted configuration is finite and positive (rules R10, R80). -/
theorem cSafe_admitted : isFinite (cSafe cfg.params) = true ∧ flt fZero (cSafe cfg.params) = true := by
  have h := cfg.admitted
  simp only [paramsAdmitted, derivedOk, Bool.and_eq_true] at h
  obtain ⟨-, ⟨-, hfin⟩, hpos⟩ := h
  exact ⟨hfin, hpos⟩

theorem isNaN_cSafe : isNaN (cSafe cfg.params) = false := isNaN_of_isFinite (cSafe_admitted cfg).1

theorem units_cSafe_pos : 0 < units (cSafe cfg.params) := by
  obtain ⟨-, -, hpos⟩ := flt_iff.mp (cSafe_admitted cfg).2
  exact hpos

theorem withinSafe_iff (w : Word) : withinSafe cfg.params w = true ↔
    isNaN w = false ∧ -units (cSafe cfg.params) ≤ units w ∧ units w ≤ units (cSafe cfg.params) := by
  have hnum := isNaN_cSafe cfg
  simp only [withinSafe, Bool.and_eq_true, fle_iff, isNaN_fneg, units_fneg]
  tauto

theorem withinSafe_cSafe : withinSafe cfg.params (cSafe cfg.params) = true := by
  have hpos := units_cSafe_pos cfg
  exact (withinSafe_iff cfg _).mpr ⟨isNaN_cSafe cfg, by omega, le_refl _⟩

theorem withinSafe_neg_cSafe : withinSafe cfg.params (fneg (cSafe cfg.params)) = true := by
  have hpos := units_cSafe_pos cfg
  refine (withinSafe_iff cfg _).mpr ⟨(isNaN_fneg _).trans (isNaN_cSafe cfg), ?_, ?_⟩
  · rw [units_fneg]
  · rw [units_fneg]; omega

theorem withinSafe_zero : withinSafe cfg.params fZero = true := by
  have hpos := units_cSafe_pos cfg
  have hzero : units fZero = 0 := by decide
  exact (withinSafe_iff cfg _).mpr ⟨by decide, by omega, by omega⟩

/-- A value clamped between two safe bounds is safe, in order or not: it is the upper bound, or it lies between the
lower bound and the upper one. -/
theorem withinSafe_clampf (d e : NanBits) (v : Word) {lo hi : Word} (hlo : withinSafe cfg.params lo = true)
    (hhi : withinSafe cfg.params hi = true) : withinSafe cfg.params (clampf d e v lo hi) = true := by
  obtain ⟨hloNum, hloGe, -⟩ := (withinSafe_iff cfg lo).mp hlo
  obtain ⟨hhiNum, hhiGe, hhiLe⟩ := (withinSafe_iff cfg hi).mp hhi
  obtain ⟨-, hmaxGe, -, -⟩ := maxNum_spec d v hloNum
  obtain ⟨hnum, hle, -, hcase⟩ := minNum_spec e (maxNum d v lo) hhiNum
  refine (withinSafe_iff cfg _).mpr ⟨hnum, ?_, hle.trans hhiLe⟩
  rcases hcase with ⟨-, hmax⟩ | hmin
  · rw [clampf, hmax]; exact hloGe.trans hmaxGe
  · rw [clampf, hmin]; exact hhiGe

/-! ### A safe channel -/

theorem channelSafe_iff (p : Params) (k : Channel) : channelSafe p k = true ↔
    withinSafe p k.live.filter.lo = true ∧ withinSafe p k.live.filter.hi = true ∧ withinSafe p k.out = true ∧
      withinSafe p k.fstate.y1 = true ∧ withinSafe p k.fstate.y2 = true := by
  simp only [channelSafe, Bool.and_eq_true, and_assoc]

theorem channelSafe_reset : channelSafe cfg.params (resetChannel cfg.params) = true :=
  (channelSafe_iff _ _).mpr ⟨withinSafe_neg_cSafe cfg, withinSafe_cSafe cfg, withinSafe_zero cfg, withinSafe_zero cfg,
    withinSafe_zero cfg⟩

/-- A tick gives a clamped output, or holds the last one (rules R97, R98). -/
theorem channelSafe_tick (pick : NanPick) (temp : Vector Word 16) {k : Channel}
    (h : channelSafe cfg.params k = true) : channelSafe cfg.params (tickChannel pick temp k) = true := by
  obtain ⟨hlo, hhi, -, hy1, hy2⟩ := (channelSafe_iff _ _).mp h
  by_cases hon : k.state = .on
  · rw [tickChannel_on hon]
    have hclamped := withinSafe_clampf cfg (pick 42) (pick 43)
      (biquadAcc pick k.live.filter (biquadInput pick k.live.filter (mix pick temp k.live.w)) k.fstate) hlo hhi
    exact (channelSafe_iff _ _).mpr ⟨hlo, hhi, hclamped, hclamped, hy1⟩
  · rw [tickChannel_hold hon]
    exact (channelSafe_iff _ _).mpr ⟨hlo, hhi, hy1, hy1, hy2⟩

/-- FINALIZE clamps both bounds, whatever was built (rule R101). -/
theorem channelSafe_finalize (pick : NanPick) (kernel : PidKernel) {k : Channel}
    (h : channelSafe cfg.params k = true) :
    channelSafe cfg.params (finalizeChannel pick kernel cfg.params k) = true := by
  obtain ⟨-, -, hout, hy1, hy2⟩ := (channelSafe_iff _ _).mp h
  have hbound (d e : NanBits) (b : Word) : withinSafe cfg.params (safeBound d e cfg.params b) = true :=
    withinSafe_clampf cfg d e b (withinSafe_neg_cSafe cfg) (withinSafe_cSafe cfg)
  exact (channelSafe_iff _ _).mpr ⟨hbound _ _ _, hbound _ _ _, hout, hy1, hy2⟩

end

/-! ### A safe state -/

theorem State.safe_setChan {s : State} (hs : s.safe) {c : ChanNo} {k : Channel}
    (hk : channelSafe s.cfg.params k = true) : (s.setChan c k).safe := by
  intro j
  by_cases hj : j = c
  · subst hj; rw [State.setChan_same]; exact hk
  · rw [State.setChan_other hj]; exact hs j

theorem State.safe_tick {s : State} (hs : s.safe) (c : ChanNo) : (s.tick c).safe :=
  State.safe_setChan hs (channelSafe_tick s.cfg _ _ (hs c))

theorem State.safe_tickEach {s : State} (hs : s.safe) (cs : List ChanNo) : (s.tickEach cs).safe := by
  induction cs generalizing s with
  | nil => exact hs
  | cons c cs ih => exact ih (State.safe_tick hs c)

theorem State.safe_finalizeChan {s : State} (hs : s.safe) (c : ChanNo) : (s.finalizeChan c).safe := by
  have h := State.safe_setChan hs (c := c) (channelSafe_finalize s.cfg (s.chanPicks c) pidKernel (hs c))
  unfold State.finalizeChan
  split <;> exact h

theorem State.safe_resetOf (cfg : AdmittedConfig) : (State.resetOf cfg).safe := by
  intro c
  rw [State.resetOf_ch, Fin.getElem_fin, Vector.getElem_replicate]
  exact channelSafe_reset cfg

theorem State.safe_enterReset (s : State) : s.enterReset.safe := State.safe_resetOf s.cfg

/-- What a serial command may touch has no part in safety. -/
theorem safe_closed : SerialClosed State.safe State.safe where
  endXfer _ _ _ _ h := h
  stall _ _ _ h := h
  flag _ _ h := h
  ready _ _ h := h
  adc _ _ _ h := h
  code _ _ _ h := h

theorem commandFlow_safe {s : State} (hs : s.safe) (i : Instr) : (commandFlow i s).ends State.safe State.safe :=
  commandFlow_ends safe_closed hs (State.safe_tick hs) (State.safe_tickEach hs _) (State.safe_finalizeChan hs) hs
    (fun _ => hs) hs i

theorem exec_safe {s t : State} {i : Instr} (hs : s.safe) (h : exec i s = .next t) : t.safe :=
  exec_of_flow (commandFlow_safe hs i) (fun _ hu => hu) (fun _ _ => hs) (fun _ => State.safe_enterReset _) h

/-- Settles O55, case by case over what a step can do. -/
theorem stepKeepsOutputsSafe : Obligations.StepKeepsOutputsSafe := by
  intro s t hs hstep
  cases step_effect hstep with
  | idle | read | badRead | flag | dispatch | clear | setWdata | setVin | setDacCur | setTemp => exact hs
  | setChan l c q g => exact State.safe_setChan (s := s.setInputs l) hs (hs c)
  | enterReset l => exact State.safe_enterReset _
  | leaveReset l => exact State.safe_enterReset (s.setInputs l)
  | run l i t _ _ _ hexec => exact exec_safe (s := s.setInputs l) hs hexec

end Sys2Proof.Machine
end

section
/-! PROOFS. The chip-selects agree with the transaction in flight, and CMD with the running command (rules R23, R24,
R31, R59). -/

namespace Sys2Proof.Machine

/-! ### The lines -/

/-- Nothing is in flight and every line is at 1. -/
def Buses.quiet (b : Buses) : Prop := b.inFlight = none ∧ b.linesOk = true

theorem Buses.quiet_iff (b : Buses) :
    b.quiet ↔ b.inFlight = none ∧ b.csAdcN = true ∧ b.csDacN = Vector.replicate 4 true := by
  unfold Buses.quiet Buses.linesOk
  refine and_congr_right fun hfree => ?_
  simp only [hfree, Bool.and_eq_true, beq_iff_eq]

theorem Buses.quiet_idleLines (b : Buses) : b.idleLines.quiet := (Buses.quiet_iff _).mpr ⟨rfl, rfl, rfl⟩

theorem replicate_set_true (c : ChanNo) : (Vector.replicate 4 true).set c true = Vector.replicate 4 true := by
  revert c; decide

/-- A transaction that ended leaves its line at 1. -/
theorem Buses.quiet_endXfer {b : Buses} (h : b.quiet) (line : BusLine) (tx : List Byte) (r : XferResult) :
    (b.endXfer line tx r).quiet := by
  obtain ⟨hfree, hadc, hdac⟩ := (Buses.quiet_iff b).mp h
  cases line with
  | adc => exact (Buses.quiet_iff _).mpr ⟨hfree, rfl, hdac⟩
  | dac c => exact (Buses.quiet_iff _).mpr ⟨hfree, hadc, (congrArg (·.set c true) hdac).trans (replicate_set_true c)⟩

/-- A transaction that never ends has its line, and no other, at 0. -/
theorem Buses.linesOk_stallXfer {b : Buses} (h : b.quiet) (line : BusLine) (tx : List Byte) :
    (b.stallXfer line tx).linesOk = true := by
  obtain ⟨-, hadc, hdac⟩ := (Buses.quiet_iff b).mp h
  cases line with
  | adc =>
    show (!false && b.csDacN == Vector.replicate 4 true) = true
    rw [hdac]; decide
  | dac c =>
    show (b.csAdcN && b.csDacN.set c false == (Vector.replicate 4 true).set c false) = true
    rw [hadc, hdac, beq_self_eq_true]; rfl

/-- All along a command the lines are quiet, up to a transaction that never returns. -/
theorem quiet_closed : SerialClosed (fun u => u.bus.quiet) (fun u => u.bus.linesOk = true) where
  endXfer _ line tx r h := Buses.quiet_endXfer h line tx r
  stall _ line tx h := Buses.linesOk_stallXfer h line tx
  flag _ _ h := h
  ready _ _ h := h
  adc _ _ _ h := h
  code _ _ _ h := h

theorem State.tickEach_bus (s : State) (cs : List ChanNo) : (s.tickEach cs).bus = s.bus := by
  rw [State.tickEach_rest]

theorem commandFlow_quiet {s : State} (hs : s.bus.quiet) (i : Instr) :
    (commandFlow i s).ends (fun u => u.bus.quiet) (fun u => u.bus.linesOk = true) :=
  commandFlow_ends quiet_closed hs (fun _ => hs) (by rw [State.tickEach_bus]; exact hs)
    (fun c => by rw [State.finalizeChan_bus]; exact hs) hs (fun _ => hs) hs i

/-! ### The lines and the phase -/

/-- The invariant of rules R23, R24 and R31. -/
def State.coherent (s : State) : Prop := s.bus.linesOk = true ∧ s.phaseOk = true

theorem State.phaseOk_idle {s : State} (h : s.seq = .idle) : s.phaseOk = true ↔ s.bus.inFlight = none := by
  simp only [State.phaseOk, h, Option.isNone_iff_eq_none]

theorem State.phaseOk_busy {s : State} {i : Instr} (h : s.seq = .busy i) :
    s.phaseOk = true ↔ s.rstN = true ∧ i.wf = true ∧ s.cmd = encode i := by
  simp only [State.phaseOk, h, Bool.and_eq_true, beq_iff_eq, and_assoc]

/-- A block that is IDLE with quiet lines is coherent. -/
theorem State.coherent_of_quiet {s : State} (hseq : s.seq = .idle) (h : s.bus.quiet) : s.coherent :=
  ⟨h.2, (State.phaseOk_idle hseq).mpr h.1⟩

theorem State.coherent_enterReset (s : State) : s.enterReset.coherent :=
  State.coherent_of_quiet rfl (Buses.quiet_idleLines _)

/-- A word is accepted with the command it decodes to, whose word it is (rule R59). -/
theorem State.coherent_accept {s : State} {v : Word} {i : Instr} (hs : s.coherent) (hrst : s.rstN = true)
    (hdec : decode v = .ok i) : ((s.setCmd v).setSeq (.busy i)).coherent := by
  obtain ⟨hwf, henc⟩ := encode_of_decode hdec
  exact ⟨hs.1, (State.phaseOk_busy rfl).mpr ⟨hrst, hwf, henc.symm⟩⟩

/-- A command ends with quiet lines, or hangs with CMD and the phase as they were. -/
theorem exec_coherent {s t : State} {i : Instr} (hs : s.coherent) (hseq : s.seq = .busy i)
    (hfree : s.bus.inFlight = none) (h : exec i s = .next t) : t.coherent := by
  refine exec_of_flow (commandFlow_quiet ⟨hfree, hs.1⟩ i) (fun u hu => State.coherent_of_quiet rfl hu)
    (fun u hu => ⟨hu, ?_⟩) (fun b => State.coherent_enterReset _) h
  have hphase := (State.phaseOk_busy hseq).mp hs.2
  exact (State.phaseOk_busy (s := s.setBus u.bus) hseq).mpr hphase

/-- Settles O56, case by case over what a step can do. -/
theorem stepKeepsLinesAndPhase : Obligations.StepKeepsLinesAndPhase := by
  intro s t hlines hphase hstep
  have hs : s.coherent := ⟨hlines, hphase⟩
  show t.coherent
  cases step_effect hstep with
  | idle | read | badRead | flag | clear | setWdata | setVin | setDacCur | setTemp | setChan => exact hs
  | dispatch l v i hrst hseq hdec => exact State.coherent_accept (s := s.setInputs l) hs hrst hdec
  | enterReset l => exact State.coherent_enterReset _
  | leaveReset l => exact State.coherent_of_quiet rfl (Buses.quiet_idleLines _)
  | run l i t _ hseq hfree hexec => exact exec_coherent (s := s.setInputs l) hs hseq hfree hexec

end Sys2Proof.Machine
end

section
/-! PROOFS. What a step leaves of STATUS, of the configuration and of the registers that only the host or only the
block writes (rules R19, R25, R27, R30, R39, R106). -/

namespace Sys2Proof.Machine

/-! ### The configuration -/

theorem exec_cfg {s t : State} {i : Instr} (h : exec i s = .next t) : t.cfg = s.cfg :=
  exec_of_flow (R := fun u => u.cfg = s.cfg) (commandFlow_frame i s) (fun _ hu => hu.1) (fun _ _ => rfl)
    (fun _ => rfl) h

theorem step_cfg {s t : State} (h : step s = .next t) : t.cfg = s.cfg := by
  cases step_effect h with
  | run l i t _ _ _ hexec => exact exec_cfg (s := s.setInputs l) hexec
  | _ => rfl

/-! ### STATUS along a command -/

/-- FINALIZE leaves STATUS, or flags a rejected build. -/
theorem State.finalizeChan_status (s : State) (c : ChanNo) :
    (s.finalizeChan c).status = s.status ∨ (s.finalizeChan c).status = s.status ||| bitWord (Cause.buildRej c).bit := by
  unfold State.finalizeChan
  split
  · exact .inr rfl
  · exact .inl rfl

/-- A property of STATUS that a flag keeps, and a write of ADC_READY or of CAL_OK, holds all along a command. -/
theorem commandFlow_status {P : Word → Prop} (hflag : ∀ w (e : Cause), P w → P (w ||| bitWord e.bit))
    (hlive : ∀ w n b, n = 1 ∨ n = 2 → P w → P (putBit w n b)) {s : State} (hs : P s.status) (i : Instr) :
    (commandFlow i s).ends (fun u => P u.status) (fun u => P u.status) := by
  have hclosed : SerialClosed (fun u => P u.status) (fun u => P u.status) :=
    { endXfer := fun _ _ _ _ h => h
      stall := fun _ _ _ h => h
      flag := fun _ e h => hflag _ e h
      ready := fun _ b h => hlive _ 1 b (.inl rfl) h
      adc := fun _ _ _ h => h
      code := fun _ _ _ h => h }
  have hcal (b : Bool) : P (putBit s.status 2 b) := hlive _ 2 b (.inr rfl) hs
  refine commandFlow_ends hclosed hs (fun _ => hs) ?_ (fun c => ?_) (hcal true) (fun _ => hcal true)
    (hflag _ .calOor (hcal false)) i
  · rw [State.tickEach_rest]; exact hs
  · rcases s.finalizeChan_status c with h | h <;> rw [h]
    · exact hs
    · exact hflag _ _ hs

/-! ### Reserved bits of STATUS -/

/-- Every bit that is set is a stored one. -/
def onlyStored (w : Word) : Prop := ∀ n, w.getLsbD n = true → storedMask.getLsbD n = true

theorem State.statusOk_iff (s : State) : s.statusOk = true ↔ onlyStored s.status := by
  rw [State.statusOk, beq_iff_eq]
  constructor
  · intro h n hn
    have hbit := congrArg (·.getLsbD n) h
    have hlt := BitVec.lt_of_getLsbD hn
    simpa [hn, hlt] using hbit
  · intro h
    apply BitVec.eq_of_getLsbD_eq
    intro n hn
    cases hw : s.status.getLsbD n
    · simp [hw]
    · simp [h n hw]

theorem onlyStored_zero : onlyStored 0 := fun n hn => by simp at hn

theorem Cause.bit_stored (e : Cause) : storedMask.getLsbD e.bit = true := by
  cases e with
  | buildRej c => revert c; decide
  | _ => decide

theorem onlyStored_flag (w : Word) (e : Cause) (h : onlyStored w) : onlyStored (w ||| bitWord e.bit) := by
  intro n hn
  have hlt := e.bit_lt
  rw [BitVec.getLsbD_or, bitWord_getLsbD _ _ (by omega), Bool.or_eq_true, decide_eq_true_eq] at hn
  rcases hn with hn | rfl
  · exact h n hn
  · exact e.bit_stored

theorem onlyStored_putBit (w : Word) (n : Nat) (b : Bool) (hn : n = 1 ∨ n = 2) (h : onlyStored w) :
    onlyStored (putBit w n b) := by
  intro k hk
  rw [putBit_getLsbD _ _ _ _ (by omega)] at hk
  split at hk
  · rcases hn with rfl | rfl <;> subst k <;> decide
  · exact h k hk

theorem onlyStored_and {w : Word} (h : onlyStored w) (m : Word) : onlyStored (w &&& m) := fun n hn =>
  h n (Bool.and_eq_true_iff.mp ((BitVec.getLsbD_and ..).symm.trans hn)).1

theorem exec_onlyStored {s t : State} {i : Instr} (hs : onlyStored s.status) (h : exec i s = .next t) :
    onlyStored t.status :=
  exec_of_flow (R := fun u => onlyStored u.status) (commandFlow_status onlyStored_flag onlyStored_putBit hs i)
    (fun _ hu => hu) (fun _ _ => hs) (fun _ => onlyStored_zero) h

theorem step_onlyStored {s t : State} (hs : onlyStored s.status) (h : step s = .next t) : onlyStored t.status := by
  cases step_effect h with
  | idle | read | dispatch | setWdata | setVin | setDacCur | setTemp | setChan => exact hs
  | badRead => exact onlyStored_flag _ .accErr hs
  | flag l e => exact onlyStored_flag _ e hs
  | clear => exact onlyStored_and hs _
  | enterReset | leaveReset => exact onlyStored_zero
  | run l i t _ _ _ hexec => exact exec_onlyStored (s := s.setInputs l) hs hexec

/-- Settles O57: the configuration stays, and with it what the registers of the configuration read. -/
theorem stepKeepsReservedBitsAndConfiguration : Obligations.StepKeepsReservedBitsAndConfiguration := by
  intro s t h
  exact ⟨step_cfg h, fun r hr => Reg.read_config (step_cfg h) hr, fun hs =>
    (State.statusOk_iff t).mpr (step_onlyStored ((State.statusOk_iff s).mp hs) h)⟩

/-- Settles O54: the state right after reset is safe, quiet and has STATUS at 0. -/
theorem resetMeetsTheInvariants : Obligations.ResetMeetsTheInvariants :=
  ⟨State.safe_resetOf givenConfig, rfl, rfl, rfl⟩

/-! ### Sticky bits -/

/-- A flag keeps every sticky bit. -/
theorem sticky_flag (e : Cause) (w : Word) (f : Cause) (h : w.getLsbD e.bit = true) :
    (w ||| bitWord f.bit).getLsbD e.bit = true := by
  rw [BitVec.getLsbD_or, h, Bool.true_or]

/-- A write of ADC_READY or of CAL_OK keeps every sticky bit. -/
theorem sticky_putBit (e : Cause) (w : Word) (n : Nat) (b : Bool) (hn : n = 1 ∨ n = 2) (h : w.getLsbD e.bit = true) :
    (putBit w n b).getLsbD e.bit = true := by
  have hge := e.bit_ge
  rw [putBit_getLsbD _ _ _ _ (by omega), if_neg (by omega), h]

/-- A command clears no sticky bit, but where reset cuts it. -/
theorem exec_sticky {s t : State} {i : Instr} {e : Cause} (hs : s.sticky e = true) (h : exec i s = .next t) :
    t.rstN = false ∨ t.sticky e = true :=
  exec_of_flow (R := fun u => u.rstN = false ∨ u.sticky e = true)
    (commandFlow_status (sticky_flag e) (sticky_putBit e) hs i) (fun _ hu => .inr hu) (fun _ _ => .inr hs)
    (fun _ => .inl rfl) h

/-- Settles O58, case by case over what a step can do: a write to STATUS and reset alone clear a sticky bit. -/
theorem stickyBitsStayUntilCleared : Obligations.StickyBitsStayUntilCleared := by
  intro s t e hstep hs ht
  have hkept (h : t.sticky e = true) : s.rstN = false ∨ t.rstN = false ∨
      ∃ v rest, s.inputs = .hostWrite 0x0004#16 v :: rest ∧ v.getLsbD e.bit = true ∧ s.seq = .idle := by
    rw [h] at ht; cases ht
  cases step_effect hstep with
  | idle | read | dispatch | setWdata | setVin | setDacCur | setTemp | setChan => exact hkept hs
  | badRead l => exact hkept (sticky_flag e _ .accErr hs)
  | flag l f => exact hkept (sticky_flag e _ f hs)
  | clear l v hseq hin =>
    have hbit : (s.sticky e && !v.getLsbD e.bit) = false := (State.clearSticky_sticky (s.setInputs l) v e).symm.trans ht
    rw [hs, Bool.true_and, Bool.not_eq_false'] at hbit
    exact .inr (.inr ⟨v, l, hin, hbit, hseq⟩)
  | enterReset => exact .inr (.inl rfl)
  | leaveReset l hrst => exact .inl hrst
  | run l i t _ _ _ hexec =>
    rcases exec_sticky (s := s.setInputs l) hs hexec with hrst | h
    · exact .inr (.inl hrst)
    · exact hkept h

/-! ### Read-only registers of a channel -/

theorem channel_closed (c : ChanNo) (k : Channel) : SerialClosed (fun u => u.ch[c] = k) (fun u => u.ch[c] = k) where
  endXfer _ _ _ _ h := h
  stall _ _ _ h := h
  flag _ _ h := h
  ready _ _ h := h
  adc _ _ _ h := h
  code _ _ _ h := h

/-- A command that does not work on a channel leaves it as it is. -/
theorem commandFlow_channel {i : Instr} {c : ChanNo} (hi : commandWorksOn i c = false) (s : State) :
    (commandFlow i s).ends (fun u => u.ch[c] = s.ch[c]) (fun u => u.ch[c] = s.ch[c]) := by
  have hc := channel_closed c s.ch[c]
  cases i with
  | nop => exact rfl
  | update k => exact State.tick_ch_other (Ne.symm (beq_eq_false_iff_ne.mp hi))
  | updateAll => exact Bool.noConfusion hi
  | finalize k => exact State.finalizeChan_ch_other (Ne.symm (beq_eq_false_iff_ne.mp hi))
  | cal | calT =>
    simp only [commandFlow, calibrate]
    split <;> exact rfl
  | adcInit => exact hc.adcInitFlow rfl
  | adcReset => exact hc.adcResetFlow rfl
  | adcRead a n => exact hc.adcReadFlow rfl a n
  | adcWrite a n => exact hc.adcWriteFlow rfl a n
  | adcReadData => exact hc.adcReadDataFlow rfl
  | dacInit => exact hc.dacInitFlow rfl
  | dacSet k src => exact hc.dacSetFlow rfl k src

theorem exec_channel {s t : State} {i : Instr} {c : ChanNo} (hi : commandWorksOn i c = false)
    (h : exec i s = .next t) : t.rstN = false ∨ t.ch[c] = s.ch[c] :=
  exec_of_flow (R := fun u => u.rstN = false ∨ u.ch[c] = s.ch[c]) (commandFlow_channel hi s) (fun _ hu => .inr hu)
    (fun _ _ => .inr rfl) (fun _ => .inl rfl) h

/-- A live register shows neither the operating state nor a staging register. -/
theorem ChanReg.read_live {r : ChanReg} (hr : r.isLive = true) (k : Channel) (q : ChState) (g : Stage) :
    r.read { k with state := q, stage := g } = r.read k := by
  cases r <;> first | rfl | exact Bool.noConfusion hr

/-- Settles O59, case by case over what a step can do: a host write changes no live register, and a command only those
of the channels it works on. -/
theorem liveRegistersChangeOnlyByCommand : Obligations.LiveRegistersChangeOnlyByCommand := by
  intro s t c r hstep hlive hdiff
  cases step_effect hstep with
  | idle | read | badRead | flag | dispatch | clear | setWdata | setVin | setDacCur | setTemp => exact absurd rfl hdiff
  | setChan l k q g =>
    refine absurd (Reg.read_setChan (s := s.setInputs l) fun p hp => ?_) hdiff
    cases hp
    exact ChanReg.read_live hlive _ q g
  | enterReset => exact .inr (.inl rfl)
  | leaveReset l hrst => exact .inl hrst
  | run l i t _ hseq _ hexec =>
    cases hi : commandWorksOn i c with
    | true => exact .inr (.inr ⟨i, hseq, hi⟩)
    | false =>
      rcases exec_channel hi hexec with hrst | hch
      · exact .inr (.inl hrst)
      · exact absurd (congrArg r.read hch) hdiff

/-! ### Registers of the host -/

/-- What a command leaves alone up to its commit holds every register of the host. -/
theorem commandFrame_hostOwned {s t : State} (h : commandFrame s t) {r : Reg} (hr : hostOwned r = true) :
    r.read t = r.read s := by
  obtain ⟨-, -, -, hcmd, hwdata, hvin, hcur, -, -, -, hch⟩ := h
  cases r with
  | cmd => exact hcmd
  | adcWdata => exact hwdata
  | calVin => exact hvin
  | dacCur c => exact congrArg (·[c]) hcur
  | chan c q =>
    obtain ⟨hstate, hstage⟩ := hch c
    have hq : q.readOnly = false := by simpa [hostOwned, Reg.readOnly] using hr
    simp only [Reg.read]
    cases q <;> first | exact Bool.noConfusion hq | simp only [ChanReg.read, hstate, hstage]
  | status | temp | adcRdata | adcData | adcTag | adcId | calTout | calIdx | dacCode | maxCur | cSafe | cal =>
    exact Bool.noConfusion hr

/-- Settles O60: where no reset cuts it, a command ends with the host's registers as they were, or hangs. -/
theorem commandsLeaveHostRegisters : Obligations.CommandsLeaveHostRegisters := by
  intro i s t r h hrst hr
  rcases exec_cases i s with ⟨u, hframe, he⟩ | ⟨b, he⟩ | ⟨b, he⟩ <;> rw [he] at h <;> cases h
  · have hstatus : r ≠ .status := by rintro rfl; exact Bool.noConfusion hr
    exact (Reg.read_commit hstatus u).trans (commandFrame_hostOwned hframe hr)
  · exact Reg.read_setBus r s b
  · exact Bool.noConfusion hrst

end Sys2Proof.Machine
end

section
/-! PROOFS. The values after reset: the table of rule R123, and MAXCUR and CSAFE as rules R79 and R80 have them. -/

namespace Sys2Proof.Machine

/-! ### The table -/

theorem ChanReg.read_reset (r : ChanReg) (c : ChanNo) (p : Params) :
    r.read (resetChannel p) = resetTable p (.chan c r) := by
  cases r with
  | ws i | w i => exact Vector.getElem_replicate _
  | _ => rfl

/-- Every register reads the value of the table. -/
theorem Reg.read_resetOf (r : Reg) (cfg : AdmittedConfig) : r.read (State.resetOf cfg) = resetTable cfg.params r := by
  cases r with
  | dacCur c => exact Vector.getElem_replicate _
  | temp i => exact Vector.getElem_replicate _
  | dacCode c =>
    rw [Reg.read, State.resetOf_dacCode, Fin.getElem_fin, Vector.getElem_replicate]
    rfl
  | chan c q =>
    rw [Reg.read, State.resetOf_ch, Fin.getElem_fin, Vector.getElem_replicate]
    exact q.read_reset c cfg.params
  | status =>
    rw [Reg.read, State.statusRead, State.resetOf_status, State.isBusy_idle rfl]
    show _ = 0#32
    decide
  | _ => rfl

/-! ### Finite results have finite operands -/

theorem isFinite_nanWord (d : NanBits) : isFinite (nanWord d) = false := by
  cases h : isFinite (nanWord d)
  · rfl
  · rw [← isNaN_of_isFinite h, isNaN_nanWord]

theorem isFinite_of_not_isNaN_isInf {a : Word} (hn : isNaN a = false) (hi : isInf a = false) : isFinite a = true := by
  unfold isNaN at hn
  unfold isInf at hi
  unfold isFinite
  cases he : expField a == 255 <;> cases hf : fracField a == 0 <;> simp_all

theorem isFinite_of_isInf {a : Word} (h : isInf a = true) : isFinite a = false := by
  simp only [isInf, Bool.and_eq_true, beq_iff_eq] at h
  simp [isFinite, h.1]

theorem isFinite_left_of_fadd {d : NanBits} {a b : Word} (h : isFinite (fadd d a b) = true) : isFinite a = true := by
  unfold fadd at h
  split at h
  · rw [isFinite_nanWord] at h; cases h
  · next hnum =>
    split at h
    · split at h
      · rw [isFinite_nanWord] at h; cases h
      · exact h
    · next hinf =>
      rw [Bool.or_eq_true, not_or, Bool.not_eq_true] at hnum
      exact isFinite_of_not_isNaN_isInf hnum.1 (Bool.eq_false_of_not_eq_true hinf)

theorem isFinite_left_of_fmul {d : NanBits} {a b : Word} (h : isFinite (fmul d a b) = true) : isFinite a = true := by
  unfold fmul at h
  split at h
  · rw [isFinite_nanWord] at h; cases h
  · next hnum =>
    split at h
    · split at h
      · rw [isFinite_nanWord] at h; cases h
      · generalize (signBit a != signBit b) = neg at h
        cases neg <;> exact absurd h (by decide)
    · next hinf =>
      rw [Bool.or_eq_true, not_or, Bool.not_eq_true] at hnum hinf
      exact isFinite_of_not_isNaN_isInf hnum.1 hinf.1

/-- A current that has a code is finite (rules R76, R77). -/
theorem isFinite_of_isDacCode {d : NanPick} {p : Params} {i : Word} {n : BitVec 20} (h : isDacCode d p i n) :
    isFinite i = true := by
  obtain ⟨hfin, -, -⟩ := h
  exact isFinite_left_of_fmul (isFinite_left_of_fmul (isFinite_left_of_fadd (isFinite_left_of_fmul hfin)))

/-! ### MAXCUR and CSAFE -/

theorem units_of_pos {a : Word} (h : units fZero < units a) : units a = magUnits a := by
  rw [show units fZero = 0 by decide] at h
  unfold units at h ⊢
  split at h
  · omega
  · next hs => rw [if_neg hs]

section
variable (cfg : AdmittedConfig)

/-- The code of MAXCUR is 2^20 − 1 (rules R10, R79). -/
theorem maxCurrent_isDacCode (d : NanPick) : isDacCode d cfg.params (maxCurrent cfg.params) 0xFFFFF#20 := by
  have h := cfg.admitted
  simp only [paramsAdmitted, derivedOk, Bool.and_eq_true, beq_iff_eq] at h
  obtain ⟨-, ⟨hcode, -⟩, -⟩ := h
  exact (dacCodeFrom_eq_some_iff d _ _ _).mp hcode

theorem isFinite_maxCurrent : isFinite (maxCurrent cfg.params) = true :=
  isFinite_of_isDacCode (maxCurrent_isDacCode cfg fun _ => 0)

/-- The electrical constants that MAXCUR and CSAFE rest on (rule R10). -/
theorem constants_admitted : flt fZero cfg.params.rSense = true ∧ isFinite cfg.params.pwmMaxI = true := by
  have h := cfg.admitted
  simp only [paramsAdmitted, constantsOk, Bool.and_eq_true] at h
  tauto

/-- MAXCUR is the datum nearest to rule R79's exact value, a tie going to the even significand. -/
theorem maxCurrent_nearest (x : Word) :
    maxCurrentError cfg.params (maxCurrent cfg.params) ≤ maxCurrentError cfg.params x ∧
      (maxCurrentError cfg.params (maxCurrent cfg.params) = maxCurrentError cfg.params x →
        units x ≠ units (maxCurrent cfg.params) → (maxCurrent cfg.params).getLsbD 0 = false) := by
  obtain ⟨-, -, hpos⟩ := flt_iff.mp (constants_admitted cfg).1
  have hunits := units_of_pos hpos
  have hden : 0 < 2 ^ 20 * 10 * magUnits cfg.params.rSense := by
    rw [hunits, show units fZero = 0 by decide] at hpos
    omega
  have hfin := isFinite_maxCurrent cfg
  have hnear := packSign_roundMag_nearest _ _ hden hfin x
  have hexact : signedInt (decide (maxCurrentNum cfg.params < 0)) ((maxCurrentNum cfg.params).natAbs * 2 ^ 149) =
      maxCurrentNum cfg.params * 2 ^ 149 := by
    have hmul := signedInt_mul (decide (maxCurrentNum cfg.params < 0)) false (maxCurrentNum cfg.params).natAbs (2 ^ 149)
    rw [signedInt_natAbs, Bool.bne_false] at hmul
    exact hmul.symm
  rw [hexact] at hnear
  unfold maxCurrentError
  rw [hunits]
  exact hnear

/-- CSAFE is MAXCUR or PWM_MAX_I, and at most each of them (rule R80). -/
theorem cSafe_spec : (cSafe cfg.params = maxCurrent cfg.params ∨ cSafe cfg.params = cfg.params.pwmMaxI) ∧
    fle (cSafe cfg.params) (maxCurrent cfg.params) = true ∧ fle (cSafe cfg.params) cfg.params.pwmMaxI = true := by
  have hmax := isNaN_of_isFinite (isFinite_maxCurrent cfg)
  have hpwm := isNaN_of_isFinite (constants_admitted cfg).2
  obtain ⟨hnum, hlePwm, hleMax, hcase⟩ := minNum_spec 0 (maxCurrent cfg.params) hpwm
  exact ⟨hcase.imp_left And.right, fle_iff.mpr ⟨hnum, hmax, hleMax hmax⟩, fle_iff.mpr ⟨hnum, hpwm, hlePwm⟩⟩

end

/-- Settles O16: the table register by register, and the two derived constants. -/
theorem resetLeavesTheTableValues : Obligations.ResetLeavesTheTableValues := by
  intro cfg
  obtain ⟨hcase, hleMax, hlePwm⟩ := cSafe_spec cfg
  exact ⟨rfl, rfl, fun c => Vector.getElem_replicate _, fun r => r.read_resetOf cfg, _, _, rfl, rfl,
    isFinite_maxCurrent cfg, fun x _ => maxCurrent_nearest cfg x, maxCurrent_isDacCode cfg, hcase, hleMax, hlePwm,
    (cSafe_admitted cfg).2⟩

end Sys2Proof.Machine
end

section
/-! PROOFS. The host accesses that store nothing: reads, writes while BUSY, and writes to an address that cannot be
written (rules R36 to R39, R42, R44). -/

namespace Sys2Proof.Machine

/-! ### A host access out of reset -/

theorem step_memRead {s : State} {a : HostAddr} {rest : List Input} (hrst : s.rstN = true)
    (hin : s.inputs = .hostRead a :: rest) :
    step s = .next ((memRead (s.setInputs rest) a).2.setHRdata (memRead (s.setInputs rest) a).1) := by
  rw [step_hostRead hin, State.hostRead, if_pos (show (s.setInputs rest).rstN = true from hrst)]

theorem step_memWrite {s : State} {a : HostAddr} {v : Word} {rest : List Input} (hrst : s.rstN = true)
    (hin : s.inputs = .hostWrite a v :: rest) : step s = .next (memWrite (s.setInputs rest) a v) := by
  rw [step_hostWrite hin, State.hostWrite, if_pos (show (s.setInputs rest).rstN = true from hrst)]

/-- A read of a mapped register changes the data read, and nothing else. -/
theorem step_read_mapped {s : State} {a : HostAddr} {r : Reg} {rest : List Input} (hrst : s.rstN = true)
    (hin : s.inputs = .hostRead a :: rest) (ha : decodeAddr a = some r) :
    step s = .next ((s.setInputs rest).setHRdata (r.read s)) := by
  rw [step_memRead hrst hin, memRead_mapped ha, Reg.read_setInputs]

/-- Settles O10: the read is that of the register the address decodes to, or an access error. -/
theorem hostReadsReturnRegisters : Obligations.HostReadsReturnRegisters := by
  intro s a rest hrst hin
  refine ⟨fun r ha => step_read_mapped hrst hin ha, fun ha => ?_⟩
  rw [step_memRead hrst hin, memRead_unmapped ha]
  rfl

/-- Settles O11: BUSY is the first check of a write, and a read has no such check. -/
theorem busyWritesAreIgnored : Obligations.BusyWritesAreIgnored := by
  intro s a rest hrst hbusy
  refine ⟨fun v hin => ?_, fun r ha hin => step_read_mapped hrst hin ha⟩
  rw [step_memWrite hrst hin, memWrite_busy (show (s.setInputs rest).isBusy = true from hbusy)]
  rfl

/-! ### Addresses that cannot be written -/

theorem decodeAddr_misaligned {a : HostAddr} (h : a.toNat % 4 ≠ 0) : decodeAddr a = none := if_neg h

theorem decodeAddr_unmapped {a : HostAddr} (h : ∀ r : Reg, r.addr ≠ a.toNat) : decodeAddr a = none :=
  Option.eq_none_iff_forall_ne_some.mpr fun r ha => h r (addr_of_decodeAddr ha)

theorem decodeAddr_of_addr {a : HostAddr} {r : Reg} (h : r.addr = a.toNat) : decodeAddr a = some r := by
  have ha : a = r.hostAddr := BitVec.eq_of_toNat_eq (h.symm.trans r.toNat_hostAddr.symm)
  rw [ha, decodeAddr_hostAddr]

/-- Settles O12: each of the three kinds of address meets the access check before anything is stored. -/
theorem badWritesOnlySetAccErr : Obligations.BadWritesOnlySetAccErr := by
  intro s a v rest hrst hseq hin hbad
  have hidle : (s.setInputs rest).isBusy = false := State.isBusy_idle hseq
  have hflag : memWrite (s.setInputs rest) a v = (s.setInputs rest).flag .accErr := by
    rcases hbad with halign | hunmapped | ⟨r, haddr, hro⟩
    · exact memWrite_unmapped hidle (decodeAddr_misaligned halign) v
    · exact memWrite_unmapped hidle (decodeAddr_unmapped hunmapped) v
    · exact memWrite_readOnly hidle (decodeAddr_of_addr haddr) hro v
  rw [step_memWrite hrst hin, hflag]
  rfl

end Sys2Proof.Machine
end

section
/-! PROOFS. A command writes the registers and the bits of STATUS of its own rule, or reset cuts it, or it hangs (rules
R47, R59, R106, R114, R122). -/

namespace Sys2Proof.Machine

/-! ### What a part of a command may write -/

/-- A write of a bit of the mask leaves the bits outside the mask. -/
theorem putBit_masked {m : Word} {n : Nat} (hn : m.getLsbD n = true) (w : Word) (b : Bool) :
    putBit w n b &&& ~~~m = w &&& ~~~m := by
  refine BitVec.eq_of_getLsbD_eq fun k _ => ?_
  rw [BitVec.getLsbD_and, BitVec.getLsbD_and, BitVec.getLsbD_not, putBit_getLsbD _ _ _ _ (BitVec.lt_of_getLsbD hn)]
  split
  · next hk => simp [hk, hn]
  · rfl

/-- From `s` to `t` at most the registers of the list, the bits of STATUS in the mask, and the buses have changed, and no
transaction was left open. -/
structure WritesOnly (l : List Reg) (m : Word) (s t : State) : Prop where
  regs : framed l s t
  inFlight : t.bus.inFlight = s.bus.inFlight
  status : t.status &&& ~~~m = s.status &&& ~~~m

/-- A transaction never returns. -/
def State.stalled (s : State) : Prop := s.bus.inFlight.isSome = true

section
variable {l : List Reg} {m : Word} {s t u : State}

theorem WritesOnly.refl (l : List Reg) (m : Word) (s : State) : WritesOnly l m s s := ⟨framed_refl l s, rfl, rfl⟩

/-- A write of registers of the list. -/
theorem WritesOnly.trans_framed (h : WritesOnly l m s t) (k : framed l t u) (hbus : u.bus = t.bus)
    (hstatus : u.status = t.status) : WritesOnly l m s u :=
  ⟨framed_trans h.regs k, by rw [hbus, h.inFlight], by rw [hstatus, h.status]⟩

theorem WritesOnly.endXfer (h : WritesOnly l m s t) (line : BusLine) (tx : List Byte) (r : XferResult) :
    WritesOnly l m s (t.setBus (t.bus.endXfer line tx r)) :=
  ⟨framed_setBus h.regs _, (Buses.endXfer_inFlight ..).trans h.inFlight, h.status⟩

theorem WritesOnly.flag (h : WritesOnly l m s t) {e : Cause} (he : m.getLsbD e.bit = true) :
    WritesOnly l m s (t.flag e) :=
  ⟨framed_flag h.regs e, h.inFlight, (putBit_masked he t.status true).trans h.status⟩

theorem WritesOnly.setAdcReady (h : WritesOnly l m s t) (hm : m.getLsbD 1 = true) (b : Bool) :
    WritesOnly l m s (t.setAdcReady b) :=
  ⟨framed_setAdcReady h.regs b, h.inFlight, (putBit_masked hm t.status b).trans h.status⟩

theorem WritesOnly.setCalOk (h : WritesOnly l m s t) (hm : m.getLsbD 2 = true) (b : Bool) :
    WritesOnly l m s (t.setCalOk b) :=
  ⟨framed_setCalOk h.regs b, h.inFlight, (putBit_masked hm t.status b).trans h.status⟩

theorem WritesOnly.setDacCode (h : WritesOnly l m s t) {c : ChanNo} (hc : .dacCode c ∈ l) (n : BitVec 20) :
    WritesOnly l m s (t.setDacCode c n) :=
  ⟨framed_setDacCode h.regs hc n, h.inFlight, h.status⟩

/-! ### Transactions and frames -/

/-- A transaction writes no register, and of STATUS the bus error of its line. -/
theorem WritesOnly.xfer (h : WritesOnly l m s t) {line : BusLine} (he : m.getLsbD (busError line).bit = true)
    (tx : List Byte) : (spiXfer line tx t).ends (WritesOnly l m s) State.stalled :=
  spiXfer_ends (h.endXfer line tx) (fun _ hu => hu.flag he) rfl

theorem WritesOnly.adcReset (h : WritesOnly l m s t) (he : m.getLsbD Cause.adcBusErr.bit = true) :
    (adcResetFrame t).ends (WritesOnly l m s) State.stalled :=
  Flow.ends_andThen (h.xfer (line := .adc) he _) fun _ _ hu => hu

theorem WritesOnly.adcWrite (h : WritesOnly l m s t) (he : m.getLsbD Cause.adcBusErr.bit = true) (a : BitVec 6)
    (n : Nat) (v : Word) : (adcWriteFrame a n v t).ends (WritesOnly l m s) State.stalled :=
  Flow.ends_andThen (h.xfer (line := .adc) he _) fun _ _ hu => hu

theorem WritesOnly.adcRead (h : WritesOnly l m s t) (he : m.getLsbD Cause.adcBusErr.bit = true) (a : BitVec 6)
    (n : Nat) : (adcReadFrame a n t).ends (WritesOnly l m s) State.stalled :=
  Flow.ends_andThen (h.xfer (line := .adc) he _) fun _ _ hu => hu

theorem WritesOnly.adcConfigure (h : WritesOnly l m s t) (he : m.getLsbD Cause.adcBusErr.bit = true)
    (writes : List (BitVec 6 × AdcCfgEntry)) : (adcConfigure writes t).ends (WritesOnly l m s) State.stalled := by
  induction writes generalizing t with
  | nil => exact h
  | cons x rest ih => exact Flow.ends_andThen (h.adcWrite he _ _ _) fun _ _ hu => ih hu

theorem WritesOnly.dacSend (h : WritesOnly l m s t) (he : m.getLsbD Cause.dacBusErr.bit = true) {c : ChanNo}
    (hc : .dacCode c ∈ l) (n : BitVec 20) : (dacSend c n t).ends (WritesOnly l m s) State.stalled :=
  Flow.ends_andThen (Flow.ends_andThen (h.xfer (line := .dac c) he _) fun _ _ hu => hu) fun _ _ hu => hu.setDacCode hc n

theorem WritesOnly.dacSendAll (h : WritesOnly l m s t) (he : m.getLsbD Cause.dacBusErr.bit = true) {cs : List ChanNo}
    (hcs : ∀ c ∈ cs, .dacCode c ∈ l) (n : BitVec 20) : (dacSendAll n cs t).ends (WritesOnly l m s) State.stalled := by
  induction cs generalizing t with
  | nil => exact h
  | cons c rest ih =>
    obtain ⟨hc, hrest⟩ := List.forall_mem_cons.mp hcs
    exact Flow.ends_andThen (h.dacSend he hc n) fun _ _ hu => ih hu hrest

end

/-! ### The registers of each group -/

theorem framed_setAdc_id (s : State) (v : BitVec 16) : framed [.adcId] s (s.setAdc { s.adc with id := v }) :=
  ⟨fun _ _ hr => Reg.read_setAdc (fun _ => rfl) (fun _ => rfl) (fun _ => rfl) (fun _ => rfl)
    fun e => absurd (List.mem_singleton.mpr e) hr, rfl, rfl, rfl, rfl⟩

theorem framed_setAdc_rdata (s : State) (v : Word) : framed [.adcRdata] s (s.setAdc { s.adc with rdata := v }) :=
  ⟨fun _ _ hr => Reg.read_setAdc (fun _ => rfl) (fun e => absurd (List.mem_singleton.mpr e) hr) (fun _ => rfl)
    (fun _ => rfl) fun _ => rfl, rfl, rfl, rfl, rfl⟩

theorem framed_setAdc_data (s : State) (v : BitVec 24) (tag : BitVec 8) :
    framed [.adcData, .adcTag] s (s.setAdc { s.adc with data := v, tag := tag }) :=
  ⟨fun _ _ hr => Reg.read_setAdc (fun _ => rfl) (fun _ => rfl) (fun e => absurd (by simp [e]) hr)
    (fun e => absurd (by simp [e]) hr) fun _ => rfl, rfl, rfl, rfl, rfl⟩

theorem framed_setCal_result (s : State) (v : Word) (k : BitVec 8) :
    framed [.calTout, .calIdx] s (s.setCal { s.cal with tout := v, idx := k }) :=
  ⟨fun _ _ hr => Reg.read_setCal (fun _ => rfl) (fun e => absurd (by simp [e]) hr) fun e => absurd (by simp [e]) hr,
    rfl, rfl, rfl, rfl⟩

/-- Ticks change at most the six registers of each of their channels. -/
theorem tickEach_framed {l : List Reg} {cs : List ChanNo} (hcs : ∀ c ∈ cs, ∀ r ∈ tickRegs c, r ∈ l) (s : State) :
    framed l s (s.tickEach cs) := by
  induction cs generalizing s with
  | nil => exact framed_refl l s
  | cons c cs ih =>
    obtain ⟨hc, hrest⟩ := List.forall_mem_cons.mp hcs
    exact framed_trans (framed_mono (tick_framed s c) hc) (ih hrest (s.tick c))

/-! ### Every command -/

theorem finalizeChan_writesOnly (s : State) (c : ChanNo) :
    WritesOnly (liveRegs c) (commandBits (.finalize c)) s (s.finalizeChan c) := by
  refine ⟨finalizeChan_framed s c, by rw [State.finalizeChan_bus], ?_⟩
  have hbit : (commandBits (.finalize c)).getLsbD (Cause.buildRej c).bit = true := by revert c; decide
  rcases s.finalizeChan_status c with h | h <;> rw [h]
  exact putBit_masked hbit s.status true

theorem calStore_writesOnly {l : List Reg} (hl : ∀ r ∈ [Reg.calTout, .calIdx], r ∈ l) (s : State) :
    WritesOnly l (commandBits .cal) s s.calStore := by
  refine WritesOnly.setCalOk ?_ rfl true
  exact (WritesOnly.refl l _ s).trans_framed (framed_mono (framed_setCal_result s _ _) hl) rfl rfl

/-- CAL and CAL.T, where `store` writes registers of the list. -/
theorem calibrate_writesOnly {l : List Reg} {store : State → State} (hl : ∀ r ∈ [Reg.calTout, .calIdx], r ∈ l)
    (hstore : ∀ t, WritesOnly l (commandBits .cal) t (store t)) (s : State) :
    (calibrate store s).ends (WritesOnly l (commandBits .cal) s) State.stalled := by
  have hs := WritesOnly.refl l (commandBits .cal) s
  unfold calibrate
  split
  · have hcal := calStore_writesOnly hl s
    obtain ⟨hregs, hbus, hstatus⟩ := hstore s.calStore
    exact ⟨framed_trans hcal.regs hregs, hbus.trans hcal.inFlight, hstatus.trans hcal.status⟩
  · exact (hs.setCalOk rfl false).flag rfl

theorem adcInitFlow_writesOnly (s : State) :
    (adcInitFlow s).ends (WritesOnly (commandWrites .adcInit) (commandBits .adcInit) s) State.stalled := by
  have he : (commandBits .adcInit).getLsbD Cause.adcBusErr.bit = true := rfl
  have hready : (commandBits .adcInit).getLsbD 1 = true := rfl
  have hs := (WritesOnly.refl (commandWrites .adcInit) (commandBits .adcInit) s).setAdcReady hready false
  refine Flow.ends_andThen (hs.adcReset he) fun _ t ht => ?_
  refine Flow.ends_andThen (WritesOnly.adcRead (t := waitAfterReset t) ht he _ _) fun v u hu => ?_
  have hid := hu.trans_framed (framed_setAdc_id u (v.setWidth 16)) rfl rfl
  unfold adcInitChecked
  split
  · exact Flow.ends_andThen (hid.adcConfigure he _) fun _ _ hw => hw.setAdcReady hready true
  · exact hid.flag rfl

theorem adcReadFlow_writesOnly (a : BitVec 6) (n : BitVec 3) (s : State) :
    (adcReadFlow a n s).ends (WritesOnly [.adcRdata] 0x00004800#32 s) State.stalled := by
  have hs := WritesOnly.refl [.adcRdata] 0x00004800#32 s
  exact whenAdcReady_ends (hs.flag rfl) (Flow.ends_andThen (hs.adcRead rfl _ _) fun v u hu =>
    hu.trans_framed (framed_setAdc_rdata u v) rfl rfl)

theorem adcWriteFlow_writesOnly (a : BitVec 6) (n : BitVec 3) (s : State) :
    (adcWriteFlow a n s).ends (WritesOnly [] 0x00004800#32 s) State.stalled := by
  have hs := WritesOnly.refl [] 0x00004800#32 s
  exact whenAdcReady_ends (hs.flag rfl) (hs.adcWrite rfl _ _ _)

theorem adcReadDataFlow_writesOnly (s : State) :
    (adcReadDataFlow s).ends (WritesOnly [.adcData, .adcTag] 0x00004800#32 s) State.stalled := by
  have hs := WritesOnly.refl [.adcData, .adcTag] 0x00004800#32 s
  exact whenAdcReady_ends (hs.flag rfl) (Flow.ends_andThen (hs.adcRead rfl _ _) fun v u hu =>
    hu.trans_framed (framed_setAdc_data u _ _) rfl rfl)

theorem dacInitFlow_writesOnly (s : State) :
    (dacInitFlow s).ends (WritesOnly (commandWrites .dacInit) (commandBits .dacInit) s) State.stalled := by
  have hs := WritesOnly.refl (commandWrites .dacInit) (commandBits .dacInit) s
  have hall : ∀ c ∈ ([0, 1, 2, 3] : List ChanNo), Reg.dacCode c ∈ commandWrites .dacInit := by decide
  exact withDacCode_ends (hs.flag rfl) fun n => hs.dacSendAll rfl hall n

theorem dacSetFlow_writesOnly (c : ChanNo) (src : DacSource) (s : State) :
    (dacSetFlow c src s).ends (WritesOnly [.dacCode c] 0x00009000#32 s) State.stalled := by
  have hs := WritesOnly.refl [.dacCode c] 0x00009000#32 s
  exact withDacCode_ends (hs.flag rfl) fun n => hs.dacSend rfl (List.mem_singleton_self _) n

theorem tickEach_writesOnly (s : State) :
    WritesOnly (commandWrites .updateAll) (commandBits .updateAll) s (s.tickEach [0, 1, 2, 3]) := by
  refine ⟨tickEach_framed (fun c _ r hr => ?_) s, by rw [State.tickEach_bus], by rw [State.tickEach_rest]⟩
  have hsplit : ∀ k : ChanNo, k = 0 ∨ k = 1 ∨ k = 2 ∨ k = 3 := by decide
  rcases hsplit c with rfl | rfl | rfl | rfl <;> simp [commandWrites, hr]

/-- All along a command, short of a transaction that never returns, only what its rule writes has changed. -/
theorem commandFlow_writesOnly (i : Instr) (s : State) :
    (commandFlow i s).ends (WritesOnly (commandWrites i) (commandBits i) s) State.stalled := by
  have hs := WritesOnly.refl (commandWrites i) (commandBits i) s
  cases i with
  | nop => exact hs
  | update c => exact hs.trans_framed (tick_framed s c) rfl rfl
  | updateAll => exact tickEach_writesOnly s
  | finalize c => exact finalizeChan_writesOnly s c
  | cal => exact calibrate_writesOnly (fun _ hr => hr) (WritesOnly.refl _ _) s
  | calT idx =>
    exact calibrate_writesOnly (l := [.calTout, .calIdx, .temp idx]) (fun _ hr => List.mem_append_left [Reg.temp idx] hr)
      (fun t => (WritesOnly.refl _ _ t).trans_framed (framed_setTemp (framed_refl _ t) (by simp) _) rfl rfl) s
  | adcInit => exact adcInitFlow_writesOnly s
  | adcReset => exact Flow.ends_andThen (hs.adcReset rfl) fun _ _ ht => ht
  | adcRead a n => exact adcReadFlow_writesOnly a n s
  | adcWrite a n => exact adcWriteFlow_writesOnly a n s
  | adcReadData => exact adcReadDataFlow_writesOnly s
  | dacInit => exact dacInitFlow_writesOnly s
  | dacSet c src => exact dacSetFlow_writesOnly c src s

/-- Settles O48: what a command's flow has written is committed where it ends, dropped where it hangs, and replaced by
the reset values where reset cuts it. -/
theorem commandsEndHangOrReset : Obligations.CommandsEndHangOrReset := by
  intro i s t hrst h
  apply exec_of_flow (commandFlow_writesOnly i s) (h := h)
  · intro u hu
    obtain ⟨-, -, hpin, -, -⟩ := hu.regs
    exact .inl ⟨ended_commit hu.regs, hpin.trans hrst, hu.inFlight, hu.status⟩
  · exact fun u hstall => .inr (.inr ⟨rfl, hstall⟩)
  · exact fun b => .inr (.inl ⟨rfl, rfl, rfl, fun r => (r.read_enterReset _).trans (r.read_resetOf s.cfg)⟩)

end Sys2Proof.Machine
end

section
/-! PROOFS. A command decodes from its own word, and the words the decoder accepts are the legal words of rule R57
(rules R54 to R58). -/

namespace Sys2Proof

/-! ### Fields that are zero -/

/-- A field is zero exactly when each of its bits is. -/
theorem extractLsb'_eq_zero_iff {w : Word} {start len : Nat} :
    w.extractLsb' start len = 0 ↔ ∀ n, start ≤ n → n < start + len → w.getLsbD n = false := by
  refine ⟨fun h n => getLsbD_of_zero_field h, fun h => BitVec.eq_of_getLsbD_eq fun i hi => ?_⟩
  rw [BitVec.getLsbD_extractLsb', h _ (by omega) (by omega), Bool.and_false]
  exact BitVec.getLsbD_zero.symm

/-- A field is zero exactly when its lower and its upper part are. -/
theorem extractLsb'_add_eq_zero_iff {w : Word} {start m k : Nat} :
    w.extractLsb' start (m + k) = 0 ↔ w.extractLsb' start m = 0 ∧ w.extractLsb' (start + m) k = 0 := by
  simp only [extractLsb'_eq_zero_iff]
  refine ⟨fun h => ⟨fun n _ _ => h n (by omega) (by omega), fun n _ _ => h n (by omega) (by omega)⟩,
    fun ⟨hlow, hhigh⟩ n _ _ => ?_⟩
  by_cases hn : n < start + m
  · exact hlow n (by omega) hn
  · exact hhigh n (by omega) (by omega)

/-- A field of one bit. -/
theorem extractLsb'_one_eq_zero_iff {w : Word} {n : Nat} : w.extractLsb' n 1 = 0 ↔ w.getLsbD n = false := by
  rw [extractLsb'_eq_zero_iff]
  exact ⟨fun h => h n (by omega) (by omega), fun h k _ _ => by rwa [show k = n by omega]⟩

/-! ### The fields of a laid-out word -/

section
variable (size : BitVec 3) (addr : BitVec 8) (wt src : Bool) (ch : BitVec 2) (op : BitVec 8)

@[simp] theorem fieldOp_layWord : fieldOp (layWord size addr wt src ch op) = op := layWord_op ..

theorem layWord_ch : (layWord size addr wt src ch op).extractLsb' 8 2 = ch := by
  rw [layWord, BitVec.extractLsb'_append_eq_of_le (by omega)]
  exact BitVec.extractLsb'_append_eq_right

theorem layWord_src : (layWord size addr wt src ch op).getLsbD 10 = src := by
  simp only [layWord, BitVec.getLsbD_append]
  simp

theorem layWord_wt : (layWord size addr wt src ch op).getLsbD 11 = wt := by
  simp only [layWord, BitVec.getLsbD_append]
  simp

/-- A part of the field ADDR. -/
theorem layWord_addr {m k : Nat} (h : m + k ≤ 8) :
    (layWord size addr wt src ch op).extractLsb' (16 + m) k = addr.extractLsb' m k := by
  have hstart : 16 + m - 8 - 2 - 1 - 1 - 4 = m := by omega
  unfold layWord
  iterate 5 rw [BitVec.extractLsb'_append_eq_of_le (by omega)]
  rw [hstart, BitVec.extractLsb'_append_eq_of_add_le h]

theorem layWord_size : (layWord size addr wt src ch op).extractLsb' 24 3 = size := by
  unfold layWord
  iterate 6 rw [BitVec.extractLsb'_append_eq_of_le (by omega)]
  exact BitVec.extractLsb'_append_eq_right

@[simp] theorem fieldCh_layWord : fieldCh (layWord size addr wt src ch op) = ch.toFin :=
  congrArg BitVec.toFin (layWord_ch ..)

@[simp] theorem fieldSrc_layWord :
    fieldSrc (layWord size addr wt src ch op) = if src then .out else .dacCur := by rw [fieldSrc, layWord_src]

@[simp] theorem fieldWt_layWord : fieldWt (layWord size addr wt src ch op) = wt := layWord_wt ..

@[simp] theorem fieldSize_layWord : fieldSize (layWord size addr wt src ch op) = size := layWord_size ..

@[simp] theorem fieldAddr_layWord (a : BitVec 6) : fieldAddr (layWord size (0#2 ++ a) wt src ch op) = a :=
  (layWord_addr (m := 0) (k := 6) size (0#2 ++ a) wt src ch op (by omega)).trans BitVec.extractLsb'_append_eq_right

@[simp] theorem fieldIdx_layWord (idx : BitVec 4) :
    fieldIdx (layWord size (0#4 ++ idx) wt src ch op) = idx.toFin :=
  congrArg BitVec.toFin ((layWord_addr (m := 0) (k := 4) size (0#4 ++ idx) wt src ch op (by omega)).trans
    BitVec.extractLsb'_append_eq_right)

/-- The reserved bits of a laid-out word pass the decoder's first check. -/
theorem decode_layWord :
    decode (layWord size addr wt src ch op) = decodeOp (layWord size addr wt src ch op) := by
  obtain ⟨hhigh, hmid⟩ := layWord_reserved size addr wt src ch op
  rw [decode, hhigh, hmid]
  rfl

/-! ### The unused fields of a laid-out word -/

theorem layWord_above_wt : (layWord 0#3 0#8 wt src ch op).extractLsb' 16 11 = 0#11 :=
  extractLsb'_add_eq_zero_iff (m := 8).mpr ⟨layWord_addr (m := 0) 0 0 wt src ch op (by omega), layWord_size ..⟩

theorem layWord_above_src : (layWord 0#3 0#8 false src ch op).extractLsb' 11 16 = 0#16 :=
  extractLsb'_add_eq_zero_iff (m := 1).mpr ⟨extractLsb'_one_eq_zero_iff.mpr (layWord_wt ..),
    extractLsb'_add_eq_zero_iff (m := 4).mpr ⟨(layWord_reserved ..).2, layWord_above_wt ..⟩⟩

theorem layWord_above_ch : (layWord 0#3 0#8 false false ch op).extractLsb' 10 17 = 0#17 :=
  extractLsb'_add_eq_zero_iff (m := 1).mpr ⟨extractLsb'_one_eq_zero_iff.mpr (layWord_src ..), layWord_above_src ..⟩

theorem layWord_above_op : (layWord 0#3 0#8 false false 0#2 op).extractLsb' 8 19 = 0#19 :=
  extractLsb'_add_eq_zero_iff (m := 2).mpr ⟨layWord_ch .., layWord_above_ch ..⟩

theorem layWord_src_ch : (layWord size addr wt false 0#2 op).extractLsb' 8 3 = 0#3 :=
  extractLsb'_add_eq_zero_iff (m := 2).mpr ⟨layWord_ch .., extractLsb'_one_eq_zero_iff.mpr (layWord_src ..)⟩

theorem layWord_wt_src_ch : (layWord size addr false false 0#2 op).extractLsb' 8 8 = 0#8 :=
  extractLsb'_add_eq_zero_iff (m := 3).mpr ⟨layWord_src_ch .., extractLsb'_add_eq_zero_iff (m := 1).mpr
    ⟨extractLsb'_one_eq_zero_iff.mpr (layWord_wt ..), (layWord_reserved ..).2⟩⟩

theorem layWord_above_idx (idx : BitVec 4) :
    (layWord 0#3 (0#4 ++ idx) wt src ch op).extractLsb' 20 7 = 0#7 :=
  extractLsb'_add_eq_zero_iff (m := 4).mpr
    ⟨(layWord_addr (m := 4) (k := 4) 0 (0#4 ++ idx) wt src ch op (by omega)).trans BitVec.extractLsb'_append_eq_left,
      layWord_size ..⟩

theorem layWord_above_addr (a : BitVec 6) :
    (layWord size (0#2 ++ a) wt src ch op).extractLsb' 22 2 = 0#2 :=
  (layWord_addr (m := 6) (k := 2) size (0#2 ++ a) wt src ch op (by omega)).trans BitVec.extractLsb'_append_eq_left

end

/-! ### Decoding a command's own word -/

/-- Settles O1: each opcode selects its own arm of the decoder, whose unused fields are zero in the laid-out word. -/
theorem decodeEncodeAgree : Obligations.DecodeEncodeAgree := by
  intro i hwf
  cases i with
  | nop | updateAll | adcInit | adcReset | adcReadData | dacInit =>
    simp [encode, decode_layWord, decodeOp, decodeIf, layWord_above_op]
  | update c | finalize c => simp [encode, decode_layWord, decodeOp, decodeIf, layWord_above_ch]
  | cal => simp [encode, decode_layWord, decodeOp, decodeIf, layWord_above_wt, layWord_src_ch]
  | calT idx => simp [encode, decode_layWord, decodeOp, decodeIf, layWord_above_idx, layWord_src_ch]
  | adcRead a n | adcWrite a n =>
    simp only [Instr.wf] at hwf
    simp [encode, decode_layWord, decodeOp, decodeIf, hwf, layWord_wt_src_ch, layWord_above_addr]
  | dacSet c src =>
    have hsrc : (if src = .out then DacSource.out else .dacCur) = src := by cases src <;> rfl
    simp [encode, decode_layWord, decodeOp, decodeIf, layWord_above_src, hsrc]

/-- Settles O2: the decoder drops no bit of the words it accepts. -/
theorem acceptedWordsEncodeBack : Obligations.AcceptedWordsEncodeBack := fun _ _ => encode_of_decode

/-! ### The legal words -/

section
variable {w : Word}

theorem exists_decodeIf_eq_ok {ok : Bool} {j : Instr} : (∃ i, decodeIf ok j = .ok i) ↔ ok = true := by
  simp [decodeIf_eq_ok]

/-- The check of SIZE before that of the unused fields. -/
theorem exists_sized_eq_ok {size ok : Bool} {j : Instr} :
    (∃ i, (if size then decodeIf ok j else .error .badSize) = .ok i) ↔ (ok && size) = true := by
  cases size <;> simp [exists_decodeIf_eq_ok]

/-- CAL and CAL.T share an opcode: WT tells them apart, and IDX is an unused field of CAL. -/
theorem exists_cal_eq_ok :
    (∃ i, (if fieldWt w then decodeIf (w.extractLsb' 20 7 == 0#7 && w.extractLsb' 8 3 == 0#3) (.calT (fieldIdx w))
        else decodeIf (w.extractLsb' 16 11 == 0#11 && w.extractLsb' 8 3 == 0#3) .cal) = .ok i) ↔
      (w.extractLsb' 20 7 == 0#7 && w.getLsbD 10 == false && w.extractLsb' 8 2 == 0#2 &&
        (w.getLsbD 11 || w.extractLsb' 16 4 == 0#4)) = true := by
  have hlow : w.extractLsb' 8 3 = 0#3 ↔ w.extractLsb' 8 2 = 0#2 ∧ w.getLsbD 10 = false :=
    (extractLsb'_add_eq_zero_iff (m := 2)).trans (and_congr_right' extractLsb'_one_eq_zero_iff)
  have hhigh : w.extractLsb' 16 11 = 0#11 ↔ w.extractLsb' 16 4 = 0#4 ∧ w.extractLsb' 20 7 = 0#7 :=
    extractLsb'_add_eq_zero_iff (m := 4) (k := 7)
  unfold fieldWt
  cases w.getLsbD 11 with
  | true =>
    simp only [if_true, exists_decodeIf_eq_ok, Bool.and_eq_true, beq_iff_eq, Bool.true_or, and_true, hlow]
    tauto
  | false =>
    simp only [Bool.false_eq_true, if_false, exists_decodeIf_eq_ok, Bool.and_eq_true, beq_iff_eq, Bool.false_or, hlow,
      hhigh]
    tauto

/-- The decoder accepts exactly the words of `legalWord`: opcode by opcode, its checks are the clause's conditions. -/
theorem exists_decode_iff_legalWord : (∃ i, decode w = .ok i) ↔ legalWord w = true := by
  unfold decode legalWord decodeOp
  split
  · next hreserved =>
    rw [hreserved, Bool.true_and]
    split
    case h_5 heq => rw [heq]; exact exists_cal_eq_ok
    case h_8 heq | h_9 heq => rw [heq]; exact exists_sized_eq_ok
    case h_13 => simp [*]
    all_goals
      next heq => rw [heq]; exact exists_decodeIf_eq_ok
  · next hreserved => simp [hreserved]

end

theorem readSizeOk_iff {n : BitVec 3} : readSizeOk n = true ↔ 1 ≤ n.toNat ∧ n.toNat ≤ 4 := by
  rw [readSizeOk, Bool.and_eq_true, decide_eq_true_iff, decide_eq_true_iff]

theorem writeSizeOk_iff {n : BitVec 3} : writeSizeOk n = true ↔ 1 ≤ n.toNat ∧ n.toNat ≤ 3 := by
  rw [writeSizeOk, Bool.and_eq_true, decide_eq_true_iff, decide_eq_true_iff]

/-- Settles O3: the decoder accepts the words of `legalWord`, which is the rule's clause for each opcode. -/
theorem decodeAcceptsExactlyLegalWords : Obligations.DecodeAcceptsExactlyLegalWords := by
  intro w
  have hop (k : BitVec 8) : w.extractLsb' 0 8 = k ↔ (fieldOp w).toNat = k.toNat := BitVec.toNat_inj.symm
  rw [exists_decode_iff_legalWord]
  simp only [legalWord, List.mem_cons, List.not_mem_nil, hop, Bool.and_eq_true, beq_iff_eq, and_assoc]
  refine and_congr_right' (and_congr_right' ?_)
  split
  case h_13 =>
    simp only [imp_false] at *
    simp [*]
  case h_10 heq | h_11 heq => simp [heq, readSizeOk_iff, writeSizeOk_iff, fieldSize, and_assoc]
  all_goals
    next heq => simp [heq, and_assoc]

end Sys2Proof
end

section
/-! PROOFS. What an illegal word does when it is written to CMD, and what NOP does (rules R58 to R60). -/

namespace Sys2Proof.Machine

/-- Settles O8: the decoder refuses the word, so the write flags the error alone. -/
theorem illegalWordOnlySetsItsBit : Obligations.IllegalWordOnlySetsItsBit := by
  intro s v rest hrst hseq hlegal hin
  have hwrite := step_write (r := .cmd) hrst hseq hin rfl
  cases hdec : decode v with
  | ok i => exact absurd (exists_decode_iff_legalWord.mp ⟨i, hdec⟩) (by simp [hlegal])
  | error e =>
    rw [Reg.write, dispatchWord_error hdec] at hwrite
    exact hwrite

/-- Settles O20: NOP commits the state it starts from. -/
theorem nopOnlyEnds : Obligations.NopOnlyEnds :=
  fun s => ⟨s.commit, exec_nop s, ended_commit (framed_refl [] s), rfl, rfl⟩

end Sys2Proof.Machine
end

section
/-! PROOFS. The byte strings of the ADC frames and the numbers they stand for (rules R41, R65, R66). -/

namespace Sys2Proof.Machine

/-- A byte string is big-endian: its bytes from the last to the first are the digits of its value in base 256. -/
theorem bigEndian_eq_ofDigits (l : List Byte) : bigEndian l = Nat.ofDigits 256 (l.reverse.map BitVec.toNat) := by
  rw [Nat.ofDigits_eq_foldr, List.foldr_map, bigEndian, List.foldl_eq_foldr_reverse]
  congr 1
  funext b acc
  simp only [Nat.cast_id]
  omega

/-- Byte `j` of a big-endian value is the byte number `j` from the last. -/
theorem bigEndian_byte (l : List Byte) (j : Nat) :
    bigEndian l / 256 ^ j % 256 = (l.reverse.getD j 0#8).toNat := by
  have hdigit : ∀ d ∈ l.reverse.map BitVec.toNat, d < 256 := by
    intro d hd
    obtain ⟨b, -, rfl⟩ := List.mem_map.mp hd
    exact b.isLt
  rw [bigEndian_eq_ofDigits, Nat.ofDigits_div_pow_eq_ofDigits_drop j (by decide) _ hdigit, Nat.ofDigits_mod_eq_head!,
    ← List.map_drop]
  cases hdrop : l.reverse.drop j with
  | nil =>
    rw [List.getD_eq_default _ _ (List.drop_eq_nil_iff.mp hdrop)]
    rfl
  | cons b rest =>
    have hget : l.reverse[j]? = some b := by rw [← List.head?_drop, hdrop]; rfl
    rw [List.getD_eq_getElem?_getD, hget]
    exact Nat.mod_eq_of_lt b.isLt

@[simp] theorem payloadBytes_length (n : Nat) (v : Word) : (payloadBytes n v).length = n := by simp [payloadBytes]

/-- The payload is the value cut to its low bytes (rule R65). -/
theorem bigEndian_payloadBytes (n : Nat) (v : Word) : bigEndian (payloadBytes n v) = v.toNat % 2 ^ (8 * n) := by
  rw [bigEndian_eq_ofDigits, payloadBytes, List.reverse_reverse, Nat.pow_mul, show 2 ^ 8 = 256 from rfl]
  induction n with
  | zero => simp [Nat.mod_one]
  | succ n ih =>
    have hlast : (v.extractLsb' (8 * n) 8).toNat = v.toNat / 256 ^ n % 256 := by
      rw [BitVec.extractLsb'_toNat, Nat.shiftRight_eq_div_pow, Nat.pow_mul]
    rw [List.range_succ, List.map_append, List.map_append, Nat.ofDigits_append, ih, Nat.mod_pow_succ]
    simp [hlast]

/-- Byte `j` of a 32-bit word is the base-256 digit number `j` of the number it was made of. -/
theorem toNat_byte_ofNat (n : Nat) {j : Nat} (hj : j < 4) :
    ((BitVec.ofNat 32 n).extractLsb' (8 * j) 8).toNat = n / 256 ^ j % 256 := by
  have hsplit : 2 ^ 32 = 2 ^ (8 * j) * 2 ^ (32 - 8 * j) := by rw [← Nat.pow_add]; congr 1; omega
  have hdvd : 2 ^ 8 ∣ 2 ^ (32 - 8 * j) := Nat.pow_dvd_pow 2 (by omega)
  rw [BitVec.extractLsb'_toNat, BitVec.toNat_ofNat, Nat.shiftRight_eq_div_pow, hsplit, Nat.mod_mul_right_div_self,
    Nat.mod_mod_of_dvd _ hdvd, Nat.pow_mul, show 2 ^ 8 = 256 from rfl]

/-- The value of a bit string with a byte appended below it. -/
theorem toNat_append_byte {n : Nat} (x : BitVec n) (b : Byte) : (x ++ b).toNat = x.toNat * 256 + b.toNat := by
  rw [BitVec.toNat_append, ← Nat.shiftLeft_add_eq_or_of_lt b.isLt, Nat.shiftLeft_eq]

/-- A reply of the length of its frame is received as it is (rule R15). -/
theorem receivedBytes_of_length {n : Nat} {rx : List Byte} (h : rx.length = n) : receivedBytes .adc n rx = rx := by
  simp [receivedBytes, ← h]

/-- The value of a read frame whose reply has its length: the first byte received does not count (rule R66). -/
theorem readFrameValue_of_length {n : Nat} {value : List Byte} (h : value.length = n) (r0 : Byte) :
    readFrameValue n (r0 :: value) = BitVec.ofNat 32 (bigEndian value) := by
  simp [readFrameValue, ← h]

@[simp] theorem readFrameBytes_length (a : BitVec 6) (n : Nat) : (readFrameBytes a n).length = n + 1 := by
  simp [readFrameBytes]

end Sys2Proof.Machine
end

section
/-! PROOFS. The ADC commands of one frame: what they send, what they receive, and how a missing ADC_READY and a fault
end them (rules R64 to R68, R71 to R75, R108). -/

namespace Sys2Proof.Machine

/-! ### One transaction and one frame -/

@[simp] theorem State.setBus_setBus (s : State) (b c : Buses) : (s.setBus b).setBus c = s.setBus c := rfl

@[simp] theorem adcBusAfter_adcIn (b : Buses) (fs : List Frame) (rest : List Reply) :
    (adcBusAfter b fs rest).adcIn = rest := rfl

/-- Transactions that follow others on the ADC bus. -/
@[simp] theorem adcBusAfter_adcBusAfter (b : Buses) (fs gs : List Frame) (rest rest' : List Reply) :
    adcBusAfter (adcBusAfter b fs rest) gs rest' = adcBusAfter b (fs ++ gs) rest' := by
  simp [adcBusAfter]

section
variable {s : State} {rx : List Byte} {rest : List Reply}

/-- What an ADC transaction that fails gives (rule R75). -/
theorem spiXfer_adc_fault (tx : List Byte) (h : s.bus.adcIn = faultReply :: rest) :
    spiXfer .adc tx s = .raised ((s.setBus (adcBusAfter s.bus [⟨.adc, tx, .fault⟩] rest)).flag .adcBusErr) := by
  have hnext : s.bus.nextReply .adc = ⟨.fault, false⟩ := by simp [Buses.nextReply, Buses.replies, h]
  rw [spiXfer_fault hnext, Buses.endXfer_adc, h]
  rfl

theorem adcResetFrame_ok (h : s.bus.adcIn = okReply rx :: rest) :
    adcResetFrame s = .ok () (s.setBus (adcBusAfter s.bus [adcFrameOk resetFrameBytes rx] rest)) := by
  rw [adcResetFrame, spiXfer_adc_ok h, Flow.andThen_ok]

theorem adcWriteFrame_ok (a : BitVec 6) (n : Nat) (v : Word) (h : s.bus.adcIn = okReply rx :: rest) :
    adcWriteFrame a n v s = .ok () (s.setBus (adcBusAfter s.bus [adcFrameOk (writeFrameBytes a n v) rx] rest)) := by
  rw [adcWriteFrame, spiXfer_adc_ok h, Flow.andThen_ok]

theorem adcReadFrame_ok (a : BitVec 6) (n : Nat) (h : s.bus.adcIn = okReply rx :: rest) :
    adcReadFrame a n s = .ok (readFrameValue n (receivedBytes .adc (n + 1) rx))
      (s.setBus (adcBusAfter s.bus [adcFrameOk (readFrameBytes a n) rx] rest)) := by
  rw [adcReadFrame, spiXfer_adc_ok h, Flow.andThen_ok, readFrameBytes_length]

/-- A read frame whose reply has its length gives the big-endian value after the first byte (rule R66). -/
theorem adcReadFrame_value (a : BitVec 6) {n : Nat} {r0 : Byte} {value : List Byte} (hlen : value.length = n)
    (h : s.bus.adcIn = okReply (r0 :: value) :: rest) :
    adcReadFrame a n s = .ok (BitVec.ofNat 32 (bigEndian value))
      (s.setBus (adcBusAfter s.bus [adcFrameOk (readFrameBytes a n) (r0 :: value)] rest)) := by
  rw [adcReadFrame_ok a n h, receivedBytes_of_length (congrArg (· + 1) hlen), readFrameValue_of_length hlen]

/-! ### The commands of one frame -/

theorem whenAdcReady_true {α : Type} (h : s.adcReady = true) (body : State → Flow α) : whenAdcReady s body = body s :=
  if_pos h

theorem whenAdcReady_false {α : Type} (h : s.adcReady = false) (body : State → Flow α) :
    whenAdcReady s body = .raised (s.flag .adcNotReady) := by
  rw [whenAdcReady, h]
  rfl

theorem adcResetFlow_ok (h : s.bus.adcIn = okReply rx :: rest) :
    adcResetFlow s = .ok () (s.setBus (adcBusAfter s.bus [adcFrameOk resetFrameBytes rx] rest)) := by
  rw [adcResetFlow, adcResetFrame_ok h]
  rfl

theorem adcReadFlow_ok (hready : s.adcReady = true) (a : BitVec 6) {size : BitVec 3} {r0 : Byte} {value : List Byte}
    (hlen : value.length = size.toNat) (h : s.bus.adcIn = okReply (r0 :: value) :: rest) :
    adcReadFlow a size s = .ok ()
      ((s.setBus (adcBusAfter s.bus [adcFrameOk (readFrameBytes a size.toNat) (r0 :: value)] rest)).setAdc
        { s.adc with rdata := BitVec.ofNat 32 (bigEndian value) }) := by
  rw [adcReadFlow, whenAdcReady_true hready, adcReadFrame_value a hlen h]
  rfl

theorem adcWriteFlow_ok (hready : s.adcReady = true) (a : BitVec 6) (size : BitVec 3)
    (h : s.bus.adcIn = okReply rx :: rest) :
    adcWriteFlow a size s = .ok ()
      (s.setBus (adcBusAfter s.bus [adcFrameOk (writeFrameBytes a size.toNat s.adc.wdata) rx] rest)) := by
  rw [adcWriteFlow, whenAdcReady_true hready, adcWriteFrame_ok a _ _ h]

/-- ADC_READ_DATA splits the word it reads (rule R73). -/
theorem adcReadDataFlow_ok (hready : s.adcReady = true) {r0 : Byte} {value : List Byte} (hlen : value.length = 4)
    (h : s.bus.adcIn = okReply (r0 :: value) :: rest) :
    adcReadDataFlow s = .ok ()
      ((s.setBus (adcBusAfter s.bus [adcFrameOk (readFrameBytes adcRegData 4) (r0 :: value)] rest)).setAdc
        { s.adc with data := (BitVec.ofNat 32 (bigEndian value)).extractLsb' 8 24
                     tag := (BitVec.ofNat 32 (bigEndian value)).extractLsb' 0 8 }) := by
  rw [adcReadDataFlow, whenAdcReady_true hready, adcReadFrame_value adcRegData hlen h]
  rfl

end

/-! ### The statements -/

/-- Settles O33: ADC_RESET is its frame alone. -/
theorem adcResetSendsOnes : Obligations.AdcResetSendsOnes := by
  intro s rx rest h
  refine ⟨_, exec_adcReset s, ?_⟩
  rw [adcResetFlow_ok h]
  exact ⟨ended_commit (framed_setBus (framed_refl [] s) _), rfl, rfl⟩

/-- Settles O37: the value received is a big-endian number, whose bytes `bigEndian_byte` gives. -/
theorem adcReadGivesBigEndianValue : Obligations.AdcReadGivesBigEndianValue := by
  intro s a size r0 value rest _ _ hlen hready h
  refine ⟨_, exec_adcRead a size s, ?_⟩
  rw [adcReadFlow_ok hready a hlen h]
  refine ⟨ended_commit (framed_trans (framed_setBus (framed_refl _ s) _) (framed_setAdc_rdata _ _)), rfl,
    fun j => ?_, ?_⟩
  · exact BitVec.eq_of_toNat_eq ((toNat_byte_ofNat _ j.isLt).trans (bigEndian_byte value j.val))
  · change adcBusAfter s.bus [adcFrameOk (readFrameBytes a size.toNat) (r0 :: value)] rest = _
    rw [readFrameBytes, readAddrByte, BitVec.or_comm]

/-- Settles O38: the payload is that of `payloadBytes`. -/
theorem adcWriteSendsPayload : Obligations.AdcWriteSendsPayload := by
  intro s a size rx rest _ _ hready h
  refine ⟨_, payloadBytes size.toNat s.adc.wdata, exec_adcWrite a size s, ?_⟩
  rw [adcWriteFlow_ok hready a size h]
  refine ⟨ended_commit (framed_setBus (framed_refl [] s) _), rfl, payloadBytes_length _ _, fun j hj => ?_, rfl⟩
  simp [payloadBytes, hj]

/-- Settles O39: the word read is the four bytes in a row, and the split cuts it before the last. -/
theorem adcReadDataSplitsTheWord : Obligations.AdcReadDataSplitsTheWord := by
  intro s r0 b3 b2 b1 tag rest hready h
  have hword : BitVec.ofNat 32 (bigEndian [b3, b2, b1, tag]) = (b3 ++ b2 ++ b1 : BitVec 24) ++ tag := by
    refine BitVec.eq_of_toNat_eq ?_
    have := b3.isLt; have := b2.isLt; have := b1.isLt; have := tag.isLt
    simp only [toNat_append_byte, BitVec.toNat_ofNat, bigEndian, List.foldl]
    omega
  have hframe : readFrameBytes adcRegData 4 = [0x44#8, 0x00#8, 0x00#8, 0x00#8, 0x00#8] := by decide
  refine ⟨_, exec_adcReadData s, ?_⟩
  rw [adcReadDataFlow_ok hready rfl h, hword, hframe]
  refine ⟨?_, ?_, ended_commit (framed_trans (framed_setBus (framed_refl _ s) _) (framed_setAdc_data _ _ _)), rfl, rfl⟩
  · change (((b3 ++ b2 ++ b1 : BitVec 24) ++ tag).extractLsb' 8 24).setWidth 32 = _
    rw [BitVec.extractLsb'_append_eq_left]
  · change (((b3 ++ b2 ++ b1 : BitVec 24) ++ tag).extractLsb' 0 8).setWidth 32 = _
    rw [BitVec.extractLsb'_append_eq_right]

/-- Settles O40: the three commands have one check, which raises before the frame. -/
theorem adcCommandsNeedReady : Obligations.AdcCommandsNeedReady := by
  intro s i hready hi
  have hflow : commandFlow i s = .raised (s.flag .adcNotReady) := by
    rcases hi with ⟨a, size, rfl⟩ | ⟨a, size, rfl⟩ | rfl <;>
      simp only [commandFlow, adcReadFlow, adcWriteFlow, adcReadDataFlow, whenAdcReady_false hready]
  refine ⟨_, exec_eq i s, ?_⟩
  rw [hflow]
  exact ⟨ended_commit (framed_flag (framed_refl [] s) _), rfl, rfl⟩

/-- Settles O41: such a command begins with its transaction, whose failure ends it. -/
theorem adcBusFaultEndsTheCommand : Obligations.AdcBusFaultEndsTheCommand := by
  intro s i tx rest hadc hfirst h
  have hdac : i ≠ .dacInit := by
    rintro rfl
    obtain ⟨n, -, hn⟩ := Option.map_eq_some_iff.mp hfirst
    exact absurd (congrArg Prod.fst hn) (by simp)
  obtain ⟨k, hk⟩ := commandFlow_begins hadc hdac hfirst
  refine ⟨_, exec_eq i s, ?_⟩
  rw [hk, spiXfer_adc_fault tx h]
  exact ⟨ended_commit (framed_flag (framed_setBus (framed_refl [] s) _) _), rfl, rfl⟩

/-- Settles O42: the value read is that of the payload sent, which `bigEndian_payloadBytes` gives. -/
theorem adcWriteReadRoundTrip : Obligations.AdcWriteReadRoundTrip := by
  intro s a size rx r0 payload rest _ _ hready hpayload h
  obtain rfl : payloadBytes size.toNat s.adc.wdata = payload := (List.cons.inj hpayload).2
  have hread (b : Buses) (hb : b.adcIn = okReply (r0 :: payloadBytes size.toNat s.adc.wdata) :: rest) :=
    adcReadFlow_ok (s := (s.setBus b).commit) hready a (payloadBytes_length _ _) hb
  refine ⟨_, _, exec_adcWrite a size s, exec_adcRead a size _, ?_⟩
  rw [adcWriteFlow_ok hready a size h, finish_ok, hread _ (adcBusAfter_adcIn ..)]
  change (BitVec.ofNat 32 (bigEndian (payloadBytes size.toNat s.adc.wdata))).toNat = _
  rw [BitVec.toNat_ofNat, bigEndian_payloadBytes]
  exact Nat.mod_eq_of_lt (Nat.lt_of_le_of_lt (Nat.mod_le _ _) s.adc.wdata.isLt)

end Sys2Proof.Machine
end

section
/-! PROOFS. ADC_INIT: its three parts where they end well, where the identity does not match, and where a transaction
fails (rules R67, R69, R70, R75). -/

namespace Sys2Proof.Machine

/-! ### What ADC_INIT writes -/

/-- Clearing bits before setting them changes nothing. -/
theorem and_not_or_same (w m : Word) : w &&& ~~~m ||| m = w ||| m := by
  refine BitVec.eq_of_getLsbD_eq fun k hk => ?_
  rw [BitVec.getLsbD_or, BitVec.getLsbD_and, BitVec.getLsbD_not, BitVec.getLsbD_or]
  cases m.getLsbD k <;> simp [hk]

/-- The identity word that ADC_INIT takes from the reply to its read of ID (rule R69). -/
def adcIdentity (rx : List Byte) : BitVec 16 := (readFrameValue 2 (receivedBytes .adc 3 rx)).setWidth 16

/-- The identity of a reply of three bytes: the last two, in order. -/
theorem adcIdentity_bytes (b0 b1 b2 : Byte) : adcIdentity [b0, b1, b2] = b1 ++ b2 := by
  refine BitVec.eq_of_toNat_eq ?_
  have := b1.isLt; have := b2.isLt
  rw [adcIdentity, receivedBytes_of_length (n := 3) rfl, readFrameValue_of_length (n := 2) rfl, toNat_append_byte]
  simp only [BitVec.toNat_setWidth, BitVec.toNat_ofNat, bigEndian, List.foldl]
  omega

/-- The identity test looks at bits 7:4 of the last byte alone (rule R69). -/
theorem adcIdOk_append (b1 b2 : Byte) : adcIdOk (b1 ++ b2) = (b2.extractLsb' 4 4 == 0xD#4) := by
  have hnibble : (b1 ++ b2).extractLsb' 4 4 = b2.extractLsb' 4 4 := by
    refine BitVec.eq_of_getLsbD_eq fun k hk => ?_
    rw [BitVec.getLsbD_extractLsb', BitVec.getLsbD_extractLsb', BitVec.getLsbD_append, if_pos (by omega)]
  rw [adcIdOk, hnibble]

/-- The shadow state of ADC_INIT but for its buses: ADC_READY is 0 and ADC_ID holds `id` (rule R69). -/
def State.initShadow (s : State) (id : BitVec 16) : State :=
  (s.setAdcReady false).setAdc { s.adc with id := id }

theorem framed_initShadow (s : State) (id : BitVec 16) : framed [.adcId] s (s.initShadow id) :=
  framed_trans (framed_setAdcReady (framed_refl _ s) false) (framed_setAdc_id _ id)

@[simp] theorem State.initShadow_cfg (s : State) (id : BitVec 16) : (s.initShadow id).cfg = s.cfg := rfl

/-- An ADC_INIT that raises leaves its shadow state with the raised bit. -/
theorem ended_initShadow_raised (s : State) (id : BitVec 16) (b : Buses) (e : Cause) :
    ended [.adcId] s (((s.initShadow id).setBus b).flag e).commit :=
  ended_commit (framed_flag (framed_setBus (framed_initShadow s id) b) e)

/-- An ADC_INIT that completes leaves its shadow state with ADC_READY. -/
theorem ended_initShadow_ready (s : State) (id : BitVec 16) (b : Buses) :
    ended [.adcId] s (((s.initShadow id).setBus b).setAdcReady true).commit :=
  ended_commit (framed_setAdcReady (framed_setBus (framed_initShadow s id) b) true)

/-! ### The configuration writes -/

/-- The bytes of a configuration write (rule R70). -/
def adcCfgFrame (x : BitVec 6 × AdcCfgEntry) : List Byte := writeFrameBytes x.1 x.2.size.toNat x.2.value

theorem adcInitFrames_eq_cons (p : Params) :
    adcInitFrames p = resetFrameBytes :: readFrameBytes adcRegId 2 :: (adcCfgWrites p).map adcCfgFrame :=
  adcInitFrames_eq p

/-- An admitted configuration has the eight writes of rule R70. -/
theorem adcCfgWrites_length (c : AdmittedConfig) : (adcCfgWrites c.params).length = 8 := by
  have h := c.admitted
  simp only [paramsAdmitted, adcCfgOk, Bool.and_eq_true, beq_iff_eq] at h
  obtain ⟨⟨⟨-, hlen, -⟩, -⟩, -⟩ := h
  simp [adcCfgWrites, adcCfgRegisters, hlen]

section
variable {s : State} {l : List (BitVec 6 × AdcCfgEntry)} {rxs : List (List Byte)} {rest : List Reply}

/-- Configuration writes that all end well. -/
theorem adcConfigure_ok (hlen : rxs.length = l.length) (h : s.bus.adcIn = rxs.map okReply ++ rest)
    (hcs : s.bus.csAdcN = true) :
    adcConfigure l s =
      .ok () (s.setBus (adcBusAfter s.bus (List.zipWith adcFrameOk (l.map adcCfgFrame) rxs) rest)) := by
  have := adcConfigure_append l [] rxs s rest hlen h hcs
  rwa [List.append_nil] at this

/-- Configuration writes of which number `rxs.length` fails: those before it are sent, and none after it (rule R75). -/
theorem adcConfigure_fault {tx : List Byte} (htx : (l.map adcCfgFrame)[rxs.length]? = some tx)
    (h : s.bus.adcIn = rxs.map okReply ++ faultReply :: rest) :
    adcConfigure l s = .raised ((s.setBus (adcBusAfter s.bus
      (List.zipWith adcFrameOk (l.map adcCfgFrame) rxs ++ [⟨.adc, tx, .fault⟩]) rest)).flag .adcBusErr) := by
  induction l generalizing s rxs with
  | nil => simp at htx
  | cons x l ih =>
    cases rxs with
    | nil =>
      obtain rfl : adcCfgFrame x = tx := by simpa using htx
      rw [adcConfigure, adcWriteFrame, spiXfer_adc_fault _ h]
      rfl
    | cons rx rxs =>
      rw [adcConfigure, adcWriteFrame_ok _ _ _ h, Flow.andThen_ok, ih (by simpa using htx) rfl]
      simp [adcCfgFrame]

end

/-! ### The flow of ADC_INIT -/

section
variable {s : State} {rx0 rx1 : List Byte} {rxs : List (List Byte)} {rest : List Reply}

/-- Where the reset frame and the identity read end well, the identity check follows. -/
theorem adcInitFlow_identified (h : s.bus.adcIn = okReply rx0 :: okReply rx1 :: rest) :
    adcInitFlow s = adcInitChecked (adcIdentity rx1) ((s.initShadow (adcIdentity rx1)).setBus
      (adcBusAfter s.bus [adcFrameOk resetFrameBytes rx0, adcFrameOk (readFrameBytes adcRegId 2) rx1] rest)) := by
  have hreset := adcResetFrame_ok (s := s.setAdcReady false) h
  rw [adcInitFlow, hreset, Flow.andThen_ok, waitAfterReset, adcReadFrame_ok adcRegId 2 rfl, Flow.andThen_ok,
    State.setBus_bus, adcBusAfter_adcBusAfter]
  rfl

/-- The identity does not match (rule R69). -/
theorem adcInitChecked_rejects {id : BitVec 16} (hid : adcIdOk id = false) (t : State) :
    adcInitChecked id t = .raised (t.flag .adcIdErr) := by
  rw [adcInitChecked, hid]
  rfl

/-- The identity matches and all the configuration writes end well (rule R69). -/
theorem adcInitFlow_ok (hid : adcIdOk (adcIdentity rx1) = true) (hlen : rxs.length = 8)
    (h : s.bus.adcIn = (rx0 :: rx1 :: rxs).map okReply ++ rest) :
    adcInitFlow s = .ok () (((s.initShadow (adcIdentity rx1)).setBus (adcBusAfter s.bus
      (List.zipWith adcFrameOk (adcInitFrames s.cfg.params) (rx0 :: rx1 :: rxs)) rest)).setAdcReady true) := by
  have hwrites : rxs.length = (adcCfgWrites s.cfg.params).length := hlen.trans (adcCfgWrites_length s.cfg).symm
  rw [adcInitFlow_identified h, adcInitChecked, if_pos hid, State.setBus_cfg, State.initShadow_cfg,
    adcConfigure_ok hwrites rfl rfl, Flow.andThen_ok,
    State.setBus_setBus, State.setBus_bus, adcBusAfter_adcBusAfter, adcInitFrames_eq_cons]
  rfl

/-- Transaction number `rxs.length` fails, at the reset frame, at the identity read or at a configuration write; ADC_ID
is the identity read, if it was (rules R69, R75). -/
theorem adcInitFlow_fault {tx : List Byte} (htx : (adcInitFrames s.cfg.params)[rxs.length]? = some tx)
    (hid : ∀ rx, rxs[1]? = some rx → adcIdOk (adcIdentity rx) = true)
    (h : s.bus.adcIn = rxs.map okReply ++ faultReply :: rest) :
    adcInitFlow s = .raised (((s.initShadow (rxs[1]?.elim s.adc.id adcIdentity)).setBus (adcBusAfter s.bus
      (List.zipWith adcFrameOk (adcInitFrames s.cfg.params) rxs ++ [⟨.adc, tx, .fault⟩]) rest)).flag .adcBusErr) := by
  rw [adcInitFrames_eq_cons] at htx ⊢
  match rxs, h with
  | [], h =>
    obtain rfl : resetFrameBytes = tx := by simpa using htx
    have hreset := spiXfer_adc_fault (s := s.setAdcReady false) resetFrameBytes h
    rw [adcInitFlow, adcResetFrame, hreset]
    rfl
  | [rx0], h =>
    obtain rfl : readFrameBytes adcRegId 2 = tx := by simpa using htx
    have hreset := adcResetFrame_ok (s := s.setAdcReady false) h
    rw [adcInitFlow, hreset, Flow.andThen_ok, waitAfterReset, adcReadFrame, spiXfer_adc_fault _ rfl,
      State.setBus_bus, adcBusAfter_adcBusAfter]
    rfl
  | rx0 :: rx1 :: rxs, h =>
    rw [adcInitFlow_identified h, adcInitChecked, if_pos (hid rx1 rfl), State.setBus_cfg,
      State.initShadow_cfg, adcConfigure_fault (by simpa using htx) rfl,
      State.setBus_setBus, State.setBus_bus, adcBusAfter_adcBusAfter]
    rfl

end

/-! ### The statements -/

/-- Settles O34: the identity passes, so all the frames that `adcInitFrames` writes out are sent. -/
theorem adcInitConfigures : Obligations.AdcInitConfigures := by
  intro s rx0 b0 b1 b2 rxs rest hlen hnibble h
  have hid : adcIdOk (adcIdentity [b0, b1, b2]) = true := by
    rw [adcIdentity_bytes, adcIdOk_append, hnibble]
    rfl
  refine ⟨_, exec_adcInit s, ?_⟩
  rw [adcInitFlow_ok hid hlen h]
  refine ⟨?_, ended_initShadow_ready s _ _, ?_, rfl⟩
  · exact congrArg (BitVec.setWidth 32) (adcIdentity_bytes b0 b1 b2)
  · exact and_not_or_same s.status 0x00000002#32

/-- Settles O35: the identity check raises before the first configuration write. -/
theorem adcInitRejectsIdentity : Obligations.AdcInitRejectsIdentity := by
  intro s rx0 b0 b1 b2 rest hnibble h
  have hid : adcIdOk (adcIdentity [b0, b1, b2]) = false := by
    rw [adcIdentity_bytes, adcIdOk_append, beq_eq_false_iff_ne]
    exact hnibble
  have hread : readFrameBytes adcRegId 2 = [0x47#8, 0x00#8, 0x00#8] := by decide
  refine ⟨_, exec_adcInit s, ?_⟩
  rw [adcInitFlow_identified h, adcInitChecked_rejects hid, hread]
  exact ⟨congrArg (BitVec.setWidth 32) (adcIdentity_bytes b0 b1 b2), ended_initShadow_raised s _ _ _, rfl, rfl⟩

/-- Settles O36: the flow ends at the failed transaction, with ADC_ID as far as it was read. -/
theorem adcInitStopsAtBusFault : Obligations.AdcInitStopsAtBusFault := by
  intro s rxs tx rest htx hid h
  refine ⟨_, exec_adcInit s, ?_⟩
  rw [adcInitFlow_fault htx hid h]
  refine ⟨ended_initShadow_raised s _ _ _, fun rx hrx => ?_, fun hnone => ?_, rfl, rfl⟩
  · rw [hrx]
    rfl
  · rw [hnone]
    rfl

end Sys2Proof.Machine
end

section
/-! PROOFS. Rounding keeps the order of exact results, and with it the codes of rule R77 keep the order of the currents
(rules R13, R76 to R78). -/

namespace Sys2Proof.Machine

/-! ### A larger quotient has no smaller pattern -/

theorem divNearestEven_mono {m n : Nat} (h : m ≤ n) (den : Nat) : divNearestEven m den ≤ divNearestEven n den := by
  have hm := divNearestEven_cases m den
  have hn := divNearestEven_cases n den
  obtain hq | hq := (Nat.div_le_div_right (c := den) h).lt_or_eq
  · omega
  · have hrem : m % den ≤ n % den := by
      have := Nat.div_add_mod m den
      have := Nat.div_add_mod n den
      rw [hq] at *
      omega
    unfold divNearestEven
    rw [hq]
    split_ifs <;> omega

theorem roundShift_mono {q r : Nat} (h : q ≤ r) : roundShift q ≤ roundShift r := by
  unfold roundShift
  rw [Nat.log2_eq_log_two, Nat.log2_eq_log_two]
  have := Nat.log_mono_right (b := 2) h
  split_ifs <;> omega

/-- Where the shift stays, the nearest integer grows with the quotient; where the shift grows, the pattern passes into a
higher binade. -/
theorem roundMag_mono {m n : Nat} (h : m ≤ n) (den : Nat) : roundMag m den ≤ roundMag n den := by
  refine min_le_min_right _ ?_
  obtain hk | hk := (roundShift_mono (Nat.div_le_div_right (c := den) h)).lt_or_eq
  · have hm := divNearestEven_cases m (den * 2 ^ roundShift (m / den))
    have hn := divNearestEven_cases n (den * 2 ^ roundShift (n / den))
    obtain ⟨hhigh, -⟩ := roundShift_bounds (m / den)
    obtain ⟨-, hlow⟩ := roundShift_bounds (n / den)
    rw [Nat.div_div_eq_div_mul] at hhigh hlow
    omega
  · rw [hk]
    exact Nat.add_le_add_right (divNearestEven_mono h _) _

/-! ### The value of a rounded result -/

/-- The value of the datum that the exact result `z / den` is rounded to, an infinity counting as `magUnits` counts it. -/
def nearestUnits (den : Nat) (z : Int) : Int := signedInt (z < 0) (patternUnits (roundMag z.natAbs den))

@[simp] theorem roundMag_zero (den : Nat) : roundMag 0 den = 0 := by simp [roundMag, divNearestEven, roundShift]

/-- The sign that a zero carries does not show in its value. -/
theorem nearestUnits_signedInt (den : Nat) (neg : Bool) (n : Nat) :
    nearestUnits den (signedInt neg n) = signedInt neg (patternUnits (roundMag n den)) := by
  obtain rfl | hn := n.eq_zero_or_pos
  · cases neg <;> simp [nearestUnits, signedInt, patternUnits]
  · cases neg <;> simp [nearestUnits, signedInt, hn]

theorem nearestUnits_zero (den : Nat) : nearestUnits den 0 = 0 := by simp [nearestUnits, signedInt, patternUnits]

theorem patternUnits_mono : Monotone patternUnits := magnitude_strictMono.monotone

theorem nearestUnits_mono (den : Nat) : Monotone (nearestUnits den) := by
  intro y z h
  have hmag {m n : Nat} (hmn : m ≤ n) : patternUnits (roundMag m den) ≤ patternUnits (roundMag n den) :=
    patternUnits_mono (roundMag_mono hmn den)
  unfold nearestUnits signedInt
  by_cases hy : y < 0 <;> by_cases hz : z < 0
  · have := hmag (m := z.natAbs) (n := y.natAbs) (by omega)
    simp only [hy, hz, decide_true, if_true]
    omega
  · simp only [hy, hz, decide_true, decide_false, if_true, Bool.false_eq_true, if_false]
    omega
  · omega
  · have := hmag (m := y.natAbs) (n := z.natAbs) (by omega)
    simp only [hy, hz, decide_false, Bool.false_eq_true, if_false]
    omega

theorem units_packSign_roundMag (neg : Bool) (num den : Nat) :
    units (packSign neg (roundMag num den)) = nearestUnits den (signedInt neg num) := by
  have hle : roundMag num den ≤ 0x7F800000 := Nat.min_le_right _ _
  rw [units_packSign neg (by omega), nearestUnits_signedInt]

theorem units_fmul (d : NanBits) {a b : Word} (ha : isFinite a = true) (hb : isFinite b = true) :
    units (fmul d a b) = nearestUnits (2 ^ 149) (units a * units b) := by
  rw [fmul_finite d ha hb, units_packSign_roundMag, ← signedInt_mul, ← units_eq_signedInt, ← units_eq_signedInt]

theorem units_fadd (d : NanBits) {a b : Word} (ha : isFinite a = true) (hb : isFinite b = true) :
    units (fadd d a b) = nearestUnits 1 (units a + units b) := by
  rw [fadd_finite d ha hb, addFinite]
  split
  · next hsum =>
    rw [hsum, nearestUnits_zero]
    split <;> decide
  · rw [units_packSign_roundMag, signedInt_natAbs]

/-- A finite datum added to a zero keeps its value, where the sum is finite. -/
theorem units_fadd_zero (d : NanBits) {a b : Word} (ha : isFinite a = true) (hb : isFinite b = true)
    (hzero : units a = 0) (hfin : isFinite (fadd d a b) = true) : units (fadd d a b) = units b := by
  rw [fadd_finite d ha hb] at hfin ⊢
  obtain ⟨hdist, -⟩ := addFinite_nearest hfin b
  rw [hzero] at hdist
  omega

theorem roundHalfAway_mono {a b : Word} (h : units a ≤ units b) : roundHalfAway a ≤ roundHalfAway b := by
  unfold units at h
  unfold roundHalfAway
  cases ha : signBit a <;> cases hb : signBit b <;> simp only [ha, hb, if_true, Bool.false_eq_true, if_false] at h ⊢ <;>
    omega

theorem roundHalfAway_congr {a b : Word} (h : units a = units b) : roundHalfAway a = roundHalfAway b :=
  le_antisymm (roundHalfAway_mono h.le) (roundHalfAway_mono h.ge)

/-! ### The value of rule R77 before it is rounded to an integer -/

theorem fmul_comm (d : NanBits) (a b : Word) : fmul d a b = fmul d b a := by
  simp only [fmul, Bool.or_comm (isNaN a), Bool.or_comm (isInf a), Bool.or_comm (decide (magUnits a = 0)),
    bne_comm (a := signBit a), Nat.mul_comm (magUnits a)]

theorem isFinite_right_of_fmul {d : NanBits} {a b : Word} (h : isFinite (fmul d a b) = true) : isFinite b = true :=
  isFinite_left_of_fmul (fmul_comm d a b ▸ h)

/-- The electrical constants that the conversion rests on (rule R10). -/
theorem dacConstants_admitted (cfg : AdmittedConfig) :
    (isFinite cfg.params.rSense = true ∧ 0 < units cfg.params.rSense) ∧ isFinite cfg.params.vRefTec = true ∧
      isFinite cfg.params.vRefDac = true ∧ 0 < units cfg.params.vRefDac := by
  have h := cfg.admitted
  simp only [paramsAdmitted, constantsOk, Bool.and_eq_true, flt_iff, show units fZero = 0 by decide] at h
  tauto

/-- The quotient of two data that are not negative is not negative. -/
theorem units_dacScale_nonneg (cfg : AdmittedConfig) : 0 ≤ units (dacScale cfg.params) := by
  obtain ⟨-, -, hfin, hpos⟩ := dacConstants_admitted cfg
  have hmag := units_of_pos (show units fZero < _ from hpos)
  have hsign : signBit cfg.params.vRefDac = false := by
    cases hs : signBit cfg.params.vRefDac
    · rfl
    · rw [units, hs, if_pos rfl] at hpos
      omega
  rw [dacScale, fdiv_finite 0 (by decide) hfin (by omega), hsign, units_packSign_roundMag,
    nearestUnits_signedInt]
  exact Int.natCast_nonneg _

/-- The value `t` of rule R77 of a current of value `z`, by the roundings of its operations. -/
def dacLevelUnits (p : Params) (z : Int) : Int :=
  nearestUnits (2 ^ 149) (nearestUnits 1 (nearestUnits (2 ^ 149) (nearestUnits (2 ^ 149) (z * units 0x41200000#32) *
    units p.rSense) + units p.vRefTec) * units (dacScale p))

section
variable (cfg : AdmittedConfig)

/-- A finite `t` is the value its roundings give. -/
theorem units_dacLevel {i : Word} (hfin : isFinite (dacLevel cfg.params i) = true) :
    units (dacLevel cfg.params i) = dacLevelUnits cfg.params (units i) := by
  obtain ⟨⟨hsense, -⟩, htec, -⟩ := dacConstants_admitted cfg
  have hsum := isFinite_left_of_fmul hfin
  have hdrop := isFinite_left_of_fadd hsum
  have hten := isFinite_left_of_fmul hdrop
  rw [dacLevel, units_fmul 0 hsum (isFinite_right_of_fmul hfin), units_fadd 0 hdrop htec, units_fmul 0 hten hsense,
    units_fmul 0 (isFinite_left_of_fmul hten) (by decide)]
  rfl

/-- Each operation of rule R77 keeps the order: the factors are not negative. -/
theorem dacLevelUnits_mono : Monotone (dacLevelUnits cfg.params) := by
  intro y z h
  obtain ⟨⟨-, hsense⟩, -⟩ := dacConstants_admitted cfg
  have hten : 0 ≤ units 0x41200000#32 := by decide
  have hscale := units_dacScale_nonneg cfg
  have hcurrent := nearestUnits_mono (2 ^ 149) (mul_le_mul_of_nonneg_right h hten)
  have hdrop := nearestUnits_mono (2 ^ 149) (mul_le_mul_of_nonneg_right hcurrent hsense.le)
  have hsum := nearestUnits_mono 1 (add_le_add_left hdrop (units cfg.params.vRefTec))
  exact nearestUnits_mono (2 ^ 149) (mul_le_mul_of_nonneg_right hsum hscale)

/-- The `t` of zero current has the value of V_REF_TEC · K: the products before the sum are zeros. -/
theorem units_dacLevel_zero (hfin : isFinite (dacLevel cfg.params fZero) = true) :
    units (dacLevel cfg.params fZero) = units (fmul 0 cfg.params.vRefTec (dacScale cfg.params)) := by
  obtain ⟨⟨hsense, -⟩, htec, -⟩ := dacConstants_admitted cfg
  have hsum := isFinite_left_of_fmul hfin
  have hdrop := isFinite_left_of_fadd hsum
  have hten := isFinite_left_of_fmul hdrop
  have hzero : units (fmul 0 (fmul 0 fZero 0x41200000#32) cfg.params.rSense) = 0 := by
    rw [units_fmul 0 hten hsense, units_fmul 0 (by decide) (by decide), show units fZero = 0 by decide, zero_mul,
      nearestUnits_zero, zero_mul, nearestUnits_zero]
  rw [dacLevel, units_fmul 0 hsum (isFinite_right_of_fmul hfin), units_fadd_zero 0 hdrop htec hzero hsum,
    units_fmul 0 htec (isFinite_right_of_fmul hfin)]

end

/-- A code is the rounding of a finite `t` (rule R77). -/
theorem dacCodeFrom_spec {p : Params} {i : Word} {n : BitVec 20} (h : dacCodeFrom p i = some n) :
    isFinite (dacLevel p i) = true ∧ roundHalfAway (dacLevel p i) = n.toNat := by
  obtain ⟨hfin, hnear⟩ := (dacCodeFrom_eq_some_iff (fun _ => 0) p i n).mp h
  exact ⟨hfin, (roundHalfAway_eq_iff _ _).mpr hnear⟩

/-- Settles O47: every operation of the conversion keeps the order, and adding V_REF_TEC to a zero keeps its value. -/
theorem dacCodesAreMonotone : Obligations.DacCodesAreMonotone := by
  refine fun cfg => ⟨fun i1 i2 n1 n2 _ _ hle h1 h2 => ?_, fun n h => ?_⟩
  · obtain ⟨hfin1, hround1⟩ := dacCodeFrom_spec h1
    obtain ⟨hfin2, hround2⟩ := dacCodeFrom_spec h2
    obtain ⟨-, -, hunits⟩ := fle_iff.mp hle
    have hlevel : units (dacLevel cfg.params i1) ≤ units (dacLevel cfg.params i2) := by
      rw [units_dacLevel cfg hfin1, units_dacLevel cfg hfin2]
      exact dacLevelUnits_mono cfg hunits
    have := roundHalfAway_mono hlevel
    omega
  · obtain ⟨hfin, hround⟩ := dacCodeFrom_spec h
    rw [← hround]
    exact roundHalfAway_congr (units_dacLevel_zero cfg hfin)

end Sys2Proof.Machine
end

section
/-! PROOFS. DAC_SET and DAC_INIT: the frames of a code, which DAC_CODE and the chip-selects follow, and how a missing
code and a fault end them (rules R77, R81 to R84). -/

namespace Sys2Proof.Machine

/-! ### The bytes of a frame -/

/-- The three bytes of a DAC frame: the top four bits are zero (rule R81). -/
theorem dacFrameBytes_eq (n : BitVec 20) :
    dacFrameBytes n = [(n.extractLsb' 16 4).setWidth 8, n.extractLsb' 8 8, n.extractLsb' 0 8] := by
  have hbyte {j : Nat} (hj : j + 8 ≤ 20) : (n.setWidth 32).extractLsb' j 8 = n.extractLsb' j 8 := by
    refine BitVec.eq_of_getLsbD_eq fun k hk => ?_
    simp only [BitVec.getLsbD_extractLsb', BitVec.getLsbD_setWidth, show j + k < 32 by omega, decide_true, Bool.true_and]
  have htop : (n.setWidth 32).extractLsb' 16 8 = (n.extractLsb' 16 4).setWidth 8 := by
    refine BitVec.eq_of_toNat_eq ?_
    have := n.isLt
    simp only [BitVec.extractLsb'_toNat, BitVec.toNat_setWidth, Nat.shiftRight_eq_div_pow]
    omega
  change [(n.setWidth 32).extractLsb' 16 8, (n.setWidth 32).extractLsb' 8 8, (n.setWidth 32).extractLsb' 0 8] = _
  rw [htop, hbyte (by decide), hbyte (by decide)]

/-! ### Frames that end well -/

/-- An entry per channel, with the entries of the channels `cs` overwritten. -/
def setEach {α : Type} (v : Vector α 4) (cs : List ChanNo) (x : α) : Vector α 4 := cs.foldl (fun l c => l.set c.val x) v

theorem setEach_get {α : Type} (v : Vector α 4) (cs : List ChanNo) (x : α) (j : ChanNo) :
    (setEach v cs x)[j] = if j ∈ cs then x else v[j] := by
  induction cs generalizing v with
  | nil => rfl
  | cons c cs ih =>
    refine (ih (v.set c.val x)).trans ?_
    by_cases hj : j = c
    · simp [hj]
    · have hv : c.val ≠ j.val := fun e => hj (Fin.ext e.symm)
      simp [hj, hv]

/-- The state after frames of a code on the channels of a list that all ended well: DAC_CODE of these channels is the
code, their chip-selects are back at 1, and the frames are recorded in order (rules R31, R82, R83). -/
def State.dacSent (s : State) (n : BitVec 20) (cs : List ChanNo) (rest : List Reply) : State :=
  { s with
    dacCode := setEach s.dacCode cs n
    bus := dacBusAfter s.bus (cs.map fun c => dacFrameOk c (dacFrameBytes n)) rest (setEach s.bus.csDacN cs true) }

theorem State.dacSent_nil (s : State) (n : BitVec 20) : s.dacSent n [] s.bus.dacIn = s := by
  simp [State.dacSent, setEach, dacBusAfter]

/-- Frames that follow others. -/
theorem State.dacSent_dacSent (s : State) (n : BitVec 20) (cs ds : List ChanNo) (rest rest' : List Reply) :
    (s.dacSent n cs rest).dacSent n ds rest' = s.dacSent n (cs ++ ds) rest' := by
  simp [State.dacSent, setEach, dacBusAfter]

theorem Reg.read_dacSent (s : State) (n : BitVec 20) {cs : List ChanNo} {c : ChanNo} (hc : c ∈ cs)
    (rest : List Reply) : Reg.read (.dacCode c) (s.dacSent n cs rest) = n.setWidth 32 :=
  congrArg (BitVec.setWidth 32) ((setEach_get s.dacCode cs n c).trans (if_pos hc))

theorem framed_dacSent (s : State) (n : BitVec 20) (cs : List ChanNo) (rest : List Reply) :
    framed (cs.map .dacCode) s (s.dacSent n cs rest) := by
  refine ⟨fun r _ hr => ?_, rfl, rfl, rfl, rfl⟩
  cases r with
  | dacCode c =>
    have hc : c ∉ cs := fun h => hr (List.mem_map_of_mem h)
    exact congrArg (BitVec.setWidth 32) ((setEach_get s.dacCode cs n c).trans (if_neg hc))
  | _ => rfl

section
variable {s : State} {rx : List Byte} {rxs : List (List Byte)} {rest : List Reply}

theorem dacSend_ok (c : ChanNo) (n : BitVec 20) (h : s.bus.dacIn = okReply rx :: rest) :
    dacSend c n s = .ok () (s.dacSent n [c] rest) := by
  have hnext : s.bus.nextReply (.dac c) = ⟨.ok rx, false⟩ := by simp [Buses.nextReply, Buses.replies, h]
  rw [dacSend, dacFrame, spiXfer_ok hnext, Buses.endXfer_dac, h]
  rfl

/-- The channels whose frames end well are served in order, and the others after them (rule R83). -/
theorem dacSendAll_append (n : BitVec 20) {cs : List ChanNo} (ds : List ChanNo) (hlen : rxs.length = cs.length)
    (h : s.bus.dacIn = rxs.map okReply ++ rest) :
    dacSendAll n (cs ++ ds) s = dacSendAll n ds (s.dacSent n cs rest) := by
  induction cs generalizing rxs s with
  | nil =>
    obtain rfl := List.length_eq_zero_iff.mp hlen
    obtain rfl : s.bus.dacIn = rest := h
    rw [State.dacSent_nil, List.nil_append]
  | cons c cs ih =>
    cases rxs with
    | nil => exact absurd hlen (by simp)
    | cons rx rxs =>
      rw [List.cons_append, dacSendAll, dacSend_ok c n h, Flow.andThen_ok, ih (by simpa using hlen) rfl,
        State.dacSent_dacSent, List.singleton_append]

/-! ### Frames that fail -/

/-- A frame that fails leaves DAC_CODE as it was; its chip-select is back at 1 (rule R84). -/
theorem dacSend_fault (c : ChanNo) (n : BitVec 20) (h : s.bus.dacIn = faultReply :: rest) :
    dacSend c n s = .raised ((s.setBus
      (dacBusAfter s.bus [⟨.dac c, dacFrameBytes n, .fault⟩] rest (s.bus.csDacN.set c true))).flag .dacBusErr) := by
  have hnext : s.bus.nextReply (.dac c) = ⟨.fault, false⟩ := by simp [Buses.nextReply, Buses.replies, h]
  rw [dacSend, dacFrame, spiXfer_fault hnext, Buses.endXfer_dac, h]
  rfl

/-- The first frame that fails ends the run: the channels before it are served, and none after it (rules R83, R84). -/
theorem dacSendAll_fault (n : BitVec 20) {cs : List ChanNo} (k : ChanNo) (ds : List ChanNo)
    (hlen : rxs.length = cs.length) (h : s.bus.dacIn = rxs.map okReply ++ faultReply :: rest) :
    dacSendAll n (cs ++ k :: ds) s = .raised (((s.dacSent n cs rest).setBus (dacBusAfter s.bus
      ((cs.map fun c => dacFrameOk c (dacFrameBytes n)) ++ [⟨.dac k, dacFrameBytes n, .fault⟩]) rest
      (setEach s.bus.csDacN (cs ++ [k]) true))).flag .dacBusErr) := by
  rw [dacSendAll_append n _ hlen h, dacSendAll, dacSend_fault k n rfl, Flow.andThen_raised]
  simp [State.dacSent, State.setBus, dacBusAfter, setEach]

end

/-! ### The conversion -/

section
variable {α : Type} {d : NanPick} {s : State} {current : Word}

theorem withDacCode_of_isDacCode {n : BitVec 20} (h : isDacCode d s.cfg.params current n)
    (body : BitVec 20 → State → Flow α) : withDacCode current s body = body n s := by
  rw [withDacCode, (dacCodeFrom_eq_some_iff d _ _ _).mpr h]

theorem withDacCode_of_not_isDacCode (h : ∀ n, ¬ isDacCode d s.cfg.params current n)
    (body : BitVec 20 → State → Flow α) : withDacCode current s body = .raised (s.flag .dacBounds) := by
  rw [withDacCode, (dacCodeFrom_eq_none_iff d _ _).mpr h]
  rfl

theorem dacSetFlow_of_isDacCode {c : ChanNo} {src : DacSource} {n : BitVec 20}
    (h : isDacCode d s.cfg.params (dacCurrent c src s) n) : dacSetFlow c src s = dacSend c n s :=
  withDacCode_of_isDacCode h _

theorem dacInitFlow_of_isDacCode {n : BitVec 20} (h : isDacCode d s.cfg.params fZero n) :
    dacInitFlow s = dacSendAll n [0, 1, 2, 3] s :=
  withDacCode_of_isDacCode h _

end

/-! ### The channels of DAC_INIT -/

/-- The channels of DAC_INIT below `k`, `k` itself, and those above it. -/
theorem channels_split (k : ChanNo) :
    ([0, 1, 2, 3] : List ChanNo) = (List.finRange 4).take k.val ++ k :: (List.finRange 4).drop (k.val + 1) := by
  decide +revert

theorem mem_take_finRange_iff (j k : ChanNo) : j ∈ (List.finRange 4).take k.val ↔ j < k := by decide +revert

theorem setEach_all {α : Type} (v : Vector α 4) (x : α) : setEach v [0, 1, 2, 3] x = Vector.replicate 4 x := by
  refine Vector.ext fun j hj => (setEach_get v _ x ⟨j, hj⟩).trans ?_
  have hmem : ∀ c : ChanNo, c ∈ ([0, 1, 2, 3] : List ChanNo) := by decide
  rw [if_pos (hmem _), Vector.getElem_replicate]

theorem setEach_take {α : Type} (v : Vector α 4) (x : α) (k : ChanNo) :
    setEach v ((List.finRange 4).take k.val ++ [k]) x = Vector.ofFn fun j : ChanNo => if j ≤ k then x else v[j] := by
  refine Vector.ext fun j hj => (setEach_get v _ x ⟨j, hj⟩).trans ?_
  rw [Vector.getElem_ofFn]
  simp only [List.mem_append, mem_take_finRange_iff, List.mem_singleton, le_iff_lt_or_eq]

/-! ### The statements -/

/-- Settles O43: the current converts, and its one frame ends well. -/
theorem dacSetSendsTheCode : Obligations.DacSetSendsTheCode := by
  intro s d c src n rx rest hcode h
  have hcode : isDacCode d s.cfg.params (dacCurrent c src s) n := by cases src <;> exact hcode
  refine ⟨_, exec_dacSet c src s, ?_⟩
  rw [dacSetFlow_of_isDacCode hcode, dacSend_ok c n h, ← dacFrameBytes_eq]
  exact ⟨Reg.read_dacSent s n (List.mem_singleton_self c) rest, ended_commit (framed_dacSent s n [c] rest), rfl, rfl⟩

/-- Settles O44: zero current converts, and the frames of all four channels end well. -/
theorem dacInitSendsZeroCurrent : Obligations.DacInitSendsZeroCurrent := by
  intro s d n r0 r1 r2 r3 rest hcode h
  have hflow : dacInitFlow s = .ok () (s.dacSent n [0, 1, 2, 3] rest) :=
    (dacInitFlow_of_isDacCode hcode).trans (dacSendAll_append n (cs := [0, 1, 2, 3]) [] rfl h)
  have hmem : ∀ c : ChanNo, c ∈ ([0, 1, 2, 3] : List ChanNo) := by decide
  refine ⟨_, exec_dacInit s, ?_⟩
  rw [hflow, ← dacFrameBytes_eq, ← setEach_all s.bus.csDacN true]
  exact ⟨fun c => Reg.read_dacSent s n (hmem c) rest, ended_commit (framed_dacSent s n [0, 1, 2, 3] rest), rfl, rfl⟩

/-- Settles O45: the conversion raises before the first frame. -/
theorem dacBoundsSendNothing : Obligations.DacBoundsSendNothing := by
  intro s d i h
  have hflow : commandFlow i s = .raised (s.flag .dacBounds) := by
    rcases h with ⟨c, src, rfl, h⟩ | ⟨rfl, h⟩
    · have h : ∀ n, ¬ isDacCode d s.cfg.params (dacCurrent c src s) n := by cases src <;> exact h
      exact withDacCode_of_not_isDacCode h _
    · exact withDacCode_of_not_isDacCode h _
  refine ⟨_, exec_eq i s, ?_⟩
  rw [hflow]
  exact ⟨ended_commit (framed_flag (framed_refl [] s) _), rfl, rfl⟩

/-- Settles O46: the command ends at the failed frame, with the channels before it served. -/
theorem dacBusFaultKeepsTheRest : Obligations.DacBusFaultKeepsTheRest := by
  refine fun s d n rest => ⟨fun c src hcode h => ⟨_, exec_dacSet c src s, ?_⟩,
    fun k rxs hcode hlen h => ⟨_, exec_dacInit s, ?_⟩⟩
  · rw [dacSetFlow_of_isDacCode hcode, dacSend_fault c n h]
    exact ⟨ended_commit (framed_flag (framed_setBus (framed_refl [] s) _) _), rfl, rfl⟩
  · have hserved : rxs.length = ((List.finRange 4).take k.val).length := by
      rw [hlen, List.length_take, List.length_finRange]
      omega
    rw [dacInitFlow_of_isDacCode hcode, channels_split k, dacSendAll_fault n k _ hserved h, setEach_take]
    exact ⟨fun j hj => Reg.read_dacSent s n ((mem_take_finRange_iff j k).mpr hj) rest,
      ended_commit (framed_flag (framed_setBus (framed_dacSent s n _ rest) _) _), rfl, rfl⟩

end Sys2Proof.Machine
end

section
/-! PROOFS. CAL and CAL.T: the bracket that the interpolator picks, and what the commands leave in range and out of it
(rules R86 to R88). -/

namespace Sys2Proof.Machine

/-! ### The range and the bracket -/

section
variable {table : List CalPoint} {v : Word}

/-- A voltage is in range between the ends of the table (rule R86). -/
theorem calInRange_iff :
    calInRange table v = true ↔ fle v (calEntry table 0).v = true ∧ fle (calEntry table 143).v v = true := by
  rw [calInRange, Bool.and_eq_true]

theorem calInRange_eq_false_iff :
    calInRange table v = false ↔ fle v (calEntry table 0).v = false ∨ fle (calEntry table 143).v v = false := by
  rw [calInRange, Bool.and_eq_false_iff]

/-- A scan that keeps the last index at which `p` holds finds the greatest one. -/
theorem foldl_range_eq_findGreatest (p : Nat → Bool) (n : Nat) :
    (List.range (n + 1)).foldl (fun best k => if p k then k else best) 0 = Nat.findGreatest (p · = true) n := by
  induction n with
  | zero => simp
  | succ n ih =>
    rw [List.range_succ, List.foldl_append, ih, Nat.findGreatest_succ]
    rfl

theorem calBracket_eq_findGreatest (table : List CalPoint) (v : Word) :
    calBracket table v = Nat.findGreatest (fun k => fle v (calEntry table k).v = true) 142 :=
  foldl_range_eq_findGreatest (fun k => fle v (calEntry table k).v) 142

theorem calBracket_le (table : List CalPoint) (v : Word) : calBracket table v ≤ 142 := by
  rw [calBracket_eq_findGreatest]
  exact Nat.findGreatest_le 142

/-- The entry of the bracket is at or above the voltage, where the first entry is. -/
theorem fle_calBracket (h : fle v (calEntry table 0).v = true) :
    fle v (calEntry table (calBracket table v)).v = true := by
  rw [calBracket_eq_findGreatest]
  exact Nat.findGreatest_spec (P := fun k => fle v (calEntry table k).v = true) (Nat.zero_le 142) h

/-- No later entry is at or above the voltage. -/
theorem not_fle_of_calBracket_lt {k : Nat} (hk : calBracket table v < k) (hk' : k ≤ 142) :
    fle v (calEntry table k).v = false := by
  rw [calBracket_eq_findGreatest] at hk
  exact Bool.eq_false_of_not_eq_true (Nat.findGreatest_is_greatest hk hk')

end

/-! ### The registers of a CAL in range -/

section
variable (s : State)

theorem State.calStore_framed : framed [.calTout, .calIdx] s s.calStore :=
  (calStore_writesOnly (fun _ hr => hr) s).regs

theorem State.calStore_status : s.calStore.status = s.status ||| 0x00000004#32 := rfl

theorem State.calStore_bus : s.calStore.bus = s.bus := rfl

theorem Reg.read_calTout_calStore :
    Reg.read .calTout s.calStore = calInterp s.picks s.cfg.params.calTable s.cal.vin := rfl

/-- CAL_IDX has eight bits, enough for every bracket. -/
theorem Reg.read_calIdx_calStore :
    Reg.read .calIdx s.calStore = BitVec.ofNat 32 (calBracket s.cfg.params.calTable s.cal.vin) := by
  have hle := calBracket_le s.cfg.params.calTable s.cal.vin
  change (BitVec.ofNat 8 (calBracket s.cfg.params.calTable s.cal.vin)).setWidth 32 = _
  refine BitVec.eq_of_toNat_eq ?_
  simp only [BitVec.toNat_setWidth, BitVec.toNat_ofNat]
  omega

end

/-! ### The statements -/

/-- Settles O30: the bracket is the greatest index that the scan finds, and CAL.T stores what CAL_TOUT reads. -/
theorem calInRangeInterpolates : Obligations.CalInRangeInterpolates := by
  intro s htop hbottom
  have hin : calInRange s.cfg.params.calTable s.cal.vin = true := calInRange_iff.mpr ⟨htop, hbottom⟩
  have hframe := s.calStore_framed
  refine ⟨calBracket s.cfg.params.calTable s.cal.vin, s.picks, calInterp s.picks s.cfg.params.calTable s.cal.vin,
    calBracket_le _ _, fle_calBracket htop, fun _ => not_fle_of_calBracket_lt, rfl,
    ⟨_, exec_cal_inRange hin, ?_⟩, fun idx => ⟨_, exec_calT_inRange idx hin, ?_⟩⟩
  · exact ⟨Reg.read_calTout_calStore s, Reg.read_calIdx_calStore s, ended_commit hframe, s.calStore_status,
      s.calStore_bus⟩
  · have hwrites : framed [.calTout, .calIdx, .temp idx] s (s.calStore.setTemp idx s.calStore.cal.tout) :=
      framed_setTemp (framed_mono hframe fun _ => List.mem_append_left [Reg.temp idx]) (by simp) _
    exact ⟨Reg.read_calTout_calStore s, Reg.read_calIdx_calStore s, Reg.read_setTemp_same s.calStore idx _,
      ended_commit hwrites, s.calStore_status, s.calStore_bus⟩

/-- Settles O31: both commands clear CAL_OK and raise CAL_OOR before they store anything. -/
theorem calOutOfRangeIsReported : Obligations.CalOutOfRangeIsReported := fun s _ hi hout =>
  ⟨_, exec_cal_outOfRange hi (calInRange_eq_false_iff.mpr hout),
    ended_commit (framed_flag (framed_setCalOk (framed_refl [] s) false) .calOor), rfl, rfl⟩

end Sys2Proof.Machine
end

section
/-! PROOFS. The knots of the calibration table: an admitted table is strictly ordered, and at its own voltage an entry's
temperature is met exactly (rules R13, R85, R87, R88). -/

namespace Sys2Proof.Machine

/-! ### A datum is rounded to itself -/

/-- The shift takes a significand's scale off again. -/
theorem roundShift_significand {m k : Nat} (hm : m < 2 ^ 24) (hk : k = 0 ∨ 2 ^ 23 ≤ m) :
    roundShift (m * 2 ^ k) = k := by
  unfold roundShift
  cases k with
  | zero => rw [pow_zero, mul_one, if_pos hm]
  | succ k =>
    have hunit : 0 < 2 ^ k := by positivity
    have hlow : 2 ^ 23 * 2 ^ (k + 1) ≤ m * 2 ^ (k + 1) := Nat.mul_le_mul_right _ (by omega)
    have hhigh : m * 2 ^ (k + 1) < 2 ^ 24 * 2 ^ (k + 1) := Nat.mul_lt_mul_of_pos_right hm (by positivity)
    have hnotSmall : ¬ m * 2 ^ (k + 1) < 2 ^ 24 := by
      have := pow_succ 2 k
      omega
    have hlog : Nat.log2 (m * 2 ^ (k + 1)) = 23 + (k + 1) := by
      rw [Nat.log2_eq_iff (by omega), Nat.add_right_comm, pow_add 2 23, pow_add 2 (23 + 1)]
      exact ⟨hlow, hhigh⟩
    rw [if_neg hnotSmall, hlog, Nat.add_sub_cancel_left]

theorem roundMag_significand {m k : Nat} (hm : m < 2 ^ 24) (hk : k = 0 ∨ 2 ^ 23 ≤ m) :
    roundMag (m * 2 ^ k) 1 = min (m + k * 2 ^ 23) 0x7F800000 := by
  have hpos : 0 < 2 ^ k := by positivity
  rw [roundMag, Nat.div_one, roundShift_significand hm hk, one_mul, divNearestEven, Nat.mul_mod_left, if_pos (by omega),
    Nat.mul_div_cancel _ hpos]

/-- The value of a pattern up to infinity's rounds to the pattern. -/
theorem roundMag_patternUnits {p : Nat} (hp : p ≤ 0x7F800000) : roundMag (patternUnits p) 1 = p := by
  have hfrac : p % 2 ^ 23 < 2 ^ 23 := Nat.mod_lt _ (by positivity)
  unfold patternUnits
  split
  · have h := roundMag_significand (m := p % 2 ^ 23) (k := 0) (by omega) (.inl rfl)
    rw [pow_zero, mul_one] at h
    omega
  · rw [roundMag_significand (by omega) (.inr (by omega))]
    omega

/-- The pattern of a finite datum, without its sign, is below infinity's. -/
theorem pattern_lt_of_isFinite {a : Word} (h : isFinite a = true) : (a.extractLsb' 0 31).toNat < 0x7F800000 := by
  simp only [isFinite, expField, bne_iff_ne, BitVec.extractLsb'_toNat, Nat.shiftRight_eq_div_pow] at h ⊢
  omega

/-- A word is its sign and the pattern below it. -/
theorem packSign_signBit_pattern (a : Word) : packSign (signBit a) (a.extractLsb' 0 31).toNat = a := by
  have ha := a.isLt
  refine BitVec.eq_of_toNat_eq ?_
  simp only [packSign, signBit, BitVec.getLsbD, Nat.testBit_eq_decide_div_mod_eq, BitVec.toNat_ofNat,
    BitVec.extractLsb'_toNat, Nat.shiftRight_eq_div_pow, decide_eq_true_eq]
  split <;> omega

/-! ### Zeros -/

section
variable (d : NanBits) {a b : Word}

theorem natAbs_units (a : Word) : (units a).natAbs = magUnits a := by
  unfold units
  split <;> omega

/-- The sign of a value that is not zero is the sign bit. -/
theorem decide_units_neg (hne : units a ≠ 0) : decide (units a < 0) = signBit a := by
  unfold units at hne ⊢
  cases hs : signBit a <;> simp only [hs, Bool.false_eq_true, if_true, if_false] at hne ⊢
  · exact decide_eq_false (by omega)
  · exact decide_eq_true (by omega)

theorem signBit_packSign_roundMag (neg : Bool) (num den : Nat) : signBit (packSign neg (roundMag num den)) = neg := by
  have hle : roundMag num den ≤ 0x7F800000 := Nat.min_le_right _ _
  exact (packSign_fields neg (by omega)).1

/-- A difference of two finite data has no draw. -/
theorem fsub_finite (ha : isFinite a = true) (hb : isFinite b = true) : fsub d a b = addFinite a (fneg b) :=
  fadd_finite d ha ((isFinite_fneg b).trans hb)

/-- A finite datum minus itself is +0.0. -/
theorem fsub_self (ha : isFinite a = true) : fsub d a a = fZero := by
  rw [fsub_finite d ha ha, addFinite, units_fneg, if_pos (add_neg_cancel _), signBit_fneg]
  cases signBit a <;> rfl

/-- A finite datum plus −0.0 is the datum, a zero of either sign included. -/
theorem fadd_negZero (ha : isFinite a = true) : fadd d a fNegZero = a := by
  have hsum : units a + units fNegZero = units a := by rw [show units fNegZero = 0 by decide, add_zero]
  have hround : roundMag (magUnits a) 1 = (a.extractLsb' 0 31).toNat := by
    rw [magUnits_eq_patternUnits, roundMag_patternUnits (pattern_lt_of_isFinite ha).le]
  have hself : packSign (signBit a) (roundMag (magUnits a) 1) = a := by rw [hround, packSign_signBit_pattern]
  rw [fadd_finite d ha (by decide), addFinite, hsum]
  by_cases hzero : units a = 0
  · have hmag : magUnits a = 0 := by rw [← natAbs_units, hzero, Int.natAbs_zero]
    rw [hmag, roundMag_zero] at hself
    rw [if_pos hzero]
    cases hs : signBit a <;> rw [hs] at hself <;> exact hself
  · rw [if_neg hzero, natAbs_units, decide_units_neg hzero, hself]

/-- +0.0 times a finite negative datum is −0.0. -/
theorem fmul_zero_neg (ha : isFinite a = true) (hneg : signBit a = true) : fmul d fZero a = fNegZero := by
  rw [fmul_finite d (by decide) ha, hneg, show magUnits fZero = 0 by decide, Nat.zero_mul, roundMag_zero]
  decide

/-- The difference of two finite data of different value has the sign of the order. -/
theorem signBit_fsub (ha : isFinite a = true) (hb : isFinite b = true) (hne : units a ≠ units b) :
    signBit (fsub d a b) = decide (units a < units b) := by
  rw [fsub_finite d ha hb, addFinite, units_fneg, if_neg (by omega), signBit_packSign_roundMag, decide_eq_decide]
  omega

/-- A quotient is a NaN, or has the sign of the two operands and a pattern up to infinity's. -/
theorem fdiv_cases (a b : Word) :
    fdiv d a b = nanWord d ∨ ∃ p ≤ 0x7F800000, fdiv d a b = packSign (signBit a != signBit b) p := by
  unfold fdiv
  split
  · exact .inl rfl
  · split
    · split
      · exact .inl rfl
      · exact .inr ⟨_, le_rfl, rfl⟩
    · split
      · exact .inr ⟨0, Nat.zero_le _, rfl⟩
      · split
        · split
          · exact .inl rfl
          · exact .inr ⟨_, le_rfl, rfl⟩
        · exact .inr ⟨_, Nat.min_le_right _ _, rfl⟩

theorem signBit_fdiv {d : NanBits} (h : isFinite (fdiv d a b) = true) :
    signBit (fdiv d a b) = (signBit a != signBit b) := by
  rcases fdiv_cases d a b with hnan | ⟨p, hp, hpack⟩
  · rw [hnan, isFinite_nanWord] at h
    cases h
  · rw [hpack, (packSign_fields _ (by omega)).1]

end

/-! ### An admitted table -/

/-- One entry stands before another: its voltage is above and its temperature below (rule R85). -/
def CalBefore (a b : CalPoint) : Prop := flt b.v a.v = true ∧ flt a.t b.t = true

theorem flt_trans {a b c : Word} (h : flt a b = true) (k : flt b c = true) : flt a c = true := by
  rw [flt_iff] at *
  obtain ⟨ha, -, hab⟩ := h
  obtain ⟨-, hc, hbc⟩ := k
  exact ⟨ha, hc, hab.trans hbc⟩

theorem CalBefore.trans {a b c : CalPoint} (h : CalBefore a b) (k : CalBefore b c) : CalBefore a c :=
  ⟨flt_trans k.1 h.1, flt_trans h.2 k.2⟩

/-- A table ordered entry by entry is ordered throughout. -/
theorem pairwise_of_calStrict {l : List CalPoint} (h : calStrict l = true) : l.Pairwise CalBefore := by
  have : IsTrans CalPoint CalBefore := ⟨fun _ _ _ => CalBefore.trans⟩
  rw [← List.isChain_iff_pairwise]
  induction l with
  | nil => exact .nil
  | cons a l ih =>
    cases l with
    | nil => exact .singleton a
    | cons b l =>
      simp only [calStrict, Bool.and_eq_true] at h
      exact .cons_cons h.1 (ih h.2)

section
variable (cfg : AdmittedConfig)

/-- The constraints on the table (rules R10, R85). -/
theorem calTable_admitted :
    cfg.params.calTable.length = 144 ∧ (∀ e ∈ cfg.params.calTable, isFinite e.t = true ∧ isFinite e.v = true) ∧
      cfg.params.calTable.Pairwise CalBefore := by
  have h := cfg.admitted
  simp only [paramsAdmitted, calTableOk, Bool.and_eq_true, beq_iff_eq, List.all_eq_true] at h
  obtain ⟨⟨⟨⟨⟨hlen, hfin⟩, hstrict⟩, -⟩, -⟩, -⟩ := h
  exact ⟨hlen, fun e he => (hfin e he).1, pairwise_of_calStrict hstrict⟩

theorem calEntry_isFinite {k : Nat} (hk : k < 144) :
    isFinite (calEntry cfg.params.calTable k).t = true ∧ isFinite (calEntry cfg.params.calTable k).v = true := by
  obtain ⟨hlen, hfin, -⟩ := calTable_admitted cfg
  rw [calEntry, List.getD_eq_getElem _ _ (by omega)]
  exact hfin _ (List.getElem_mem _)

theorem calEntry_before {i j : Nat} (hij : i < j) (hj : j < 144) :
    CalBefore (calEntry cfg.params.calTable i) (calEntry cfg.params.calTable j) := by
  obtain ⟨hlen, -, hpair⟩ := calTable_admitted cfg
  rw [calEntry, calEntry, List.getD_eq_getElem _ _ (by omega), List.getD_eq_getElem _ _ (by omega)]
  exact List.pairwise_iff_getElem.mp hpair i j _ _ hij

/-- Voltages do not rise along the table. -/
theorem fle_calEntry {i j : Nat} (hij : i ≤ j) (hj : j < 144) :
    fle (calEntry cfg.params.calTable j).v (calEntry cfg.params.calTable i).v = true := by
  obtain rfl | hlt := hij.eq_or_lt
  · exact fle_refl (isNaN_of_isFinite (calEntry_isFinite cfg hj).2)
  · exact fle_of_flt (calEntry_before cfg hlt hj).1

/-! ### Knots -/

/-- The secant slope of a bracket (rule R87), by the draws of the quotient and of the two differences. -/
def secantSlope (d e f : NanBits) (table : List CalPoint) (i : Nat) : Word :=
  fdiv d (fsub e (calEntry table (i + 1)).t (calEntry table i).t)
    (fsub f (calEntry table (i + 1)).v (calEntry table i).v)

theorem calInterpAt_eq (pick : NanPick) (table : List CalPoint) (v : Word) (i : Nat) :
    calInterpAt pick table v i = fadd (pick 5) (calEntry table i).t
      (fmul (pick 4) (fsub (pick 0) v (calEntry table i).v) (secantSlope (pick 3) (pick 1) (pick 2) table i)) := rfl

variable {k : Nat} (hk : k ≤ 142)
include hk

/-- A knot's bracket is its own. -/
theorem calBracket_knot : calBracket cfg.params.calTable (calEntry cfg.params.calTable k).v = k := by
  refine le_antisymm (Nat.le_of_not_lt fun hlt => ?_) (Nat.le_of_not_lt fun hlt => ?_)
  · have hle := calBracket_le cfg.params.calTable (calEntry cfg.params.calTable k).v
    have hbelow := (calEntry_before cfg hlt (by omega)).1
    have habove := fle_calBracket (fle_calEntry cfg (Nat.zero_le k) (by omega))
    obtain ⟨-, -, hbelow⟩ := flt_iff.mp hbelow
    obtain ⟨-, -, habove⟩ := fle_iff.mp habove
    omega
  · have habove := not_fle_of_calBracket_lt hlt hk
    rw [fle_calEntry cfg le_rfl (by omega)] at habove
    cases habove

/-- The secant slope of a bracket, where it is finite, is so whatever the draws, and negative: the temperature rises and
the voltage falls. -/
theorem secantSlope_negative (d e f : NanBits) (hfin : isFinite (secantSlope 0 0 0 cfg.params.calTable k) = true) :
    isFinite (secantSlope d e f cfg.params.calTable k) = true ∧
      signBit (secantSlope d e f cfg.params.calTable k) = true := by
  obtain ⟨ht, hv⟩ := calEntry_isFinite cfg (k := k) (by omega)
  obtain ⟨ht', hv'⟩ := calEntry_isFinite cfg (k := k + 1) (by omega)
  obtain ⟨hfall, hrise⟩ := calEntry_before cfg (Nat.lt_add_one k) (by omega)
  obtain ⟨-, -, hfall⟩ := flt_iff.mp hfall
  obtain ⟨-, -, hrise⟩ := flt_iff.mp hrise
  have hslope : isFinite (secantSlope d e f cfg.params.calTable k) = true := by
    unfold secantSlope at hfin ⊢
    rw [fsub_finite _ ht' ht, fsub_finite _ hv' hv] at hfin ⊢
    rwa [isFinite_sameDatum (fdiv_draw d 0 _ _)]
  refine ⟨hslope, ?_⟩
  rw [secantSlope, signBit_fdiv hslope, signBit_fsub _ ht' ht (by omega), signBit_fsub _ hv' hv (by omega)]
  simp [hfall, hrise.le]

end

/-- Settles O32: at a knot the bracket is the knot's own, the distance from it is +0.0, its product with the falling
slope is −0.0, and adding −0.0 keeps every datum. -/
theorem calibrationKnotsAreExact : Obligations.CalibrationKnotsAreExact := by
  intro cfg k pick hk hfin
  obtain ⟨ht, hv⟩ := calEntry_isFinite cfg (k := k) (by omega)
  obtain ⟨hslope, hneg⟩ := secantSlope_negative cfg hk (pick 3) (pick 1) (pick 2) hfin
  have hbracket := calBracket_knot cfg hk
  have htop := fle_calEntry cfg (Nat.zero_le k) (by omega)
  have hbottom := fle_calEntry cfg (i := k) (j := 143) (by omega) (by decide)
  refine ⟨calInRange_iff.mpr ⟨htop, hbottom⟩, hbracket, ?_⟩
  rw [calInterp, hbracket, calInterpAt_eq, fsub_self _ hv, fmul_zero_neg _ hslope hneg, fadd_negZero _ ht]

end Sys2Proof.Machine
end

section
/-! PROOFS. The filter build and the FINALIZE that installs it: the alignment of gains and limits, what the build accepts
and rejects, and the channel that an accepted or a rejected build leaves (rules R90 to R95, R101 to R105). -/

namespace Sys2Proof.Machine

/-! ### `copysign` bit by bit -/

theorem copysign_getLsbD (a b : Word) (n : Nat) :
    (copysign a b).getLsbD n = if n < 31 then a.getLsbD n else b.getLsbD n := by
  by_cases hn : n < 32
  · rw [copysign, BitVec.getLsbD_or, BitVec.getLsbD_and, BitVec.getLsbD_and]
    interval_cases n <;> simp
  · rw [if_neg (by omega), BitVec.getLsbD_of_ge _ n (by omega), BitVec.getLsbD_of_ge _ n (by omega)]

/-- A sign and a magnitude determine a datum (rule R13). -/
theorem eq_copysign {a b g : Word} (hsign : signBit a = signBit b)
    (hmag : a &&& 0x7FFFFFFF#32 = g &&& 0x7FFFFFFF#32) : a = copysign g b := by
  have hself : a = copysign a b := BitVec.eq_of_getLsbD_eq fun n hn => by
    rw [copysign_getLsbD]
    split
    · rfl
    · obtain rfl : n = 31 := by omega
      exact hsign
  rw [hself, copysign, copysign, hmag]

theorem isZero_copysign (a b : Word) : isZero (copysign a b) = isZero a := by
  have hpattern : (copysign a b).extractLsb' 0 31 = a.extractLsb' 0 31 := BitVec.eq_of_getLsbD_eq fun n hn => by
    simp only [BitVec.getLsbD_extractLsb', copysign_getLsbD, Nat.zero_add, if_pos hn]
  rw [isZero, isZero, magUnits_eq_patternUnits, magUnits_eq_patternUnits, hpattern]

/-! ### The filter build -/

/-- A limit aligned as rule R91 describes it is `alignLimit`'s. -/
theorem eq_alignLimit {l limit kp : Word}
    (h : if isFinite limit then signBit l = signBit kp ∧ l &&& 0x7FFFFFFF#32 = limit &&& 0x7FFFFFFF#32
      else l = 0x7F800000#32) : l = alignLimit limit kp := by
  unfold alignLimit
  split at h
  · next hfin =>
    obtain ⟨hsign, hmag⟩ := h
    rw [if_pos hfin]
    exact eq_copysign hsign hmag
  · next hnot => rw [if_neg hnot, h]; rfl

theorem buildFilter_of_reject {kernel : PidKernel} {g : Stage} (h : callKernel kernel g = none) :
    buildFilter kernel g = none := by
  rw [buildFilter, h]

/-- Coefficients from the kernel are accepted where they and the setpoint are all finite (rule R94). -/
theorem buildFilter_of_coeffs {kernel : PidKernel} {g : Stage} {k : Coeffs} (h : callKernel kernel g = some k) :
    buildFilter kernel g =
      if [k.b0, k.b1, k.b2, k.a1, k.a2, g.setpoint].all isFinite then some (filterOf g k) else none := by
  have hall : [k.b0, k.b1, k.b2, k.a1, k.a2, g.setpoint].all isFinite = (coeffsFinite k && isFinite g.setpoint) := by
    simp only [coeffsFinite, List.all_cons, List.all_nil, Bool.and_true, Bool.and_assoc]
  rw [buildFilter, h, hall]

/-- Settles O28: the described arguments are those of the kernel's call, and its answer is accepted where all is finite. -/
theorem buildFilterFollowsItsRule : Obligations.BuildFilterFollowsItsRule := by
  intro kernel g ki kd li ld hkiSign hkiMag hkdSign hkdMag hli hld
  have hcall : kernel g.kp ki kd li ld 0x3A82292F#32 = callKernel kernel g := by
    rw [eq_copysign hkiSign hkiMag, eq_copysign hkdSign hkdMag, eq_alignLimit hli, eq_alignLimit hld]
    rfl
  rw [hcall]
  refine ⟨buildFilter_of_reject, fun k hk => ⟨fun hfin => ?_, fun ⟨w, hw, hnot⟩ => ?_⟩⟩
  · rw [buildFilter_of_coeffs hk, if_pos (List.all_eq_true.mpr hfin)]
    rfl
  · rw [buildFilter_of_coeffs hk, if_neg fun hall => ?_]
    exact Bool.false_ne_true (hnot.symm.trans (List.all_eq_true.mp hall w hw))

/-! ### The pure proportional filter -/

/-- The constraint on the kernel: zero gains stay zero when aligned, so only KP is left (rule R93). -/
theorem callKernel_proportional {g : Stage} (hki : isZero g.ki = true) (hkd : isZero g.kd = true)
    (hkp : isFinite g.kp = true) : callKernel pidKernel g = some ⟨g.kp, fZero, fZero, fZero, fZero⟩ := by
  have hgains : (isFinite g.kp && isZero (alignGain g.ki g.kp) && isZero (alignGain g.kd g.kp)) = true := by
    rw [alignGain, alignGain, isZero_copysign, isZero_copysign, hki, hkd, hkp]
    rfl
  rw [callKernel, pidKernel, constrainKernel, if_pos hgains]

theorem buildFilter_proportional {g : Stage} (hki : isZero g.ki = true) (hkd : isZero g.kd = true)
    (hkp : isFinite g.kp = true) (hset : isFinite g.setpoint = true) :
    buildFilter pidKernel g = some (filterOf g ⟨g.kp, fZero, fZero, fZero, fZero⟩) := by
  have hzero : isFinite fZero = true := by decide
  rw [buildFilter_of_coeffs (callKernel_proportional hki hkd hkp), if_pos]
  simp only [List.all_cons, List.all_nil, hkp, hset, hzero, Bool.and_true]

/-! ### What FINALIZE leaves -/

/-- The channel with a filter installed: its bounds clamped and the other live registers recomputed, whether the filter
was built or kept (rules R95, R105). -/
def Channel.install (k : Channel) (pick : NanPick) (p : Params) (f : FilterRegs) : Channel :=
  { k with live := {
      filter := safetyClamp pick p f
      vlim := liveVlim pick p k.stage.vlim
      ilimUp := advisoryUp pick p (safetyClamp pick p f).hi
      ilimLo := advisoryLo pick p (safetyClamp pick p f).lo
      w := normalizeWeights pick k.stage.ws } }

theorem finalizeChannel_eq_install (pick : NanPick) (kernel : PidKernel) (p : Params) (k : Channel) :
    finalizeChannel pick kernel p k = k.install pick p (builtFilter kernel k) := rfl

/-- The coefficients and the offset are the installed filter's own: only the bounds are clamped (rule R101). -/
theorem Channel.read_install_self (k : Channel) (pick : NanPick) (p : Params) :
    ∀ r ∈ [ChanReg.b0, .b1, .b2, .a1, .a2, .off], r.read (k.install pick p k.live.filter) = r.read k := by
  simp only [List.forall_mem_cons]
  exact ⟨rfl, rfl, rfl, rfl, rfl, rfl, fun _ h => absurd h List.not_mem_nil⟩

section
variable {s : State} {c : ChanNo} {f : FilterRegs}

theorem State.finalizeChan_ch_install (hf : builtFilter pidKernel s.ch[c] = f) :
    (s.finalizeChan c).ch[c] = s.ch[c].install (s.chanPicks c) s.cfg.params f := by
  rw [State.finalizeChan_ch_same, finalizeChannel_eq_install, hf]

/-- Every register of the channel after FINALIZE. -/
theorem Reg.read_finalized (hf : builtFilter pidKernel s.ch[c] = f) (r : ChanReg) :
    Reg.read (.chan c r) (s.finalizeChan c).commit = r.read (s.ch[c].install (s.chanPicks c) s.cfg.params f) := by
  rw [Reg.read_commit Reg.noConfusion, Reg.read, State.finalizeChan_ch_install hf]

theorem State.finalizeChan_status_some (h : buildFilter pidKernel s.ch[c].stage = some f) :
    (s.finalizeChan c).status = s.status := by
  rw [State.finalizeChan_some h]
  rfl

theorem State.finalizeChan_status_none (h : buildFilter pidKernel s.ch[c].stage = none) :
    (s.finalizeChan c).status = s.status ||| bitWord (Cause.buildRej c).bit := by
  rw [State.finalizeChan_none h]
  rfl

end

/-- Settles O26: a rejected build leaves the old filter to be installed, and flags BUILD_REJ. -/
theorem finalizeKeepsFilterOnReject : Obligations.FinalizeKeepsFilterOnReject := by
  intro s c hreject
  have hkept := builtFilter_none hreject
  have hread := Reg.read_finalized hkept
  refine ⟨_, s.chanPicks c, _, _, _, exec_finalize c s, fun r hr => ?_, rfl, rfl, hread .lo, hread .hi, hread .vlim, rfl,
    hread .ilimUp, hread .ilimLo, ended_commit (finalizeChan_framed s c), State.finalizeChan_status_none hreject,
    State.finalizeChan_bus s c⟩
  exact (hread r).trans (s.ch[c].read_install_self _ _ r hr)

/-- Settles O29: the build is accepted with KP as its only gain, and FINALIZE installs it. -/
theorem proportionalGainsGiveProportionalFilter : Obligations.ProportionalGainsGiveProportionalFilter := by
  intro s c hki hkd hkp hset
  have hzero {w : Word} (h : w = 0x00000000#32 ∨ w = 0x80000000#32) : isZero w = true := by
    rcases h with rfl | rfl <;> decide
  have hbuild := buildFilter_proportional (hzero hki) (hzero hkd) hkp hset
  have hread := Reg.read_finalized (builtFilter_some hbuild)
  exact ⟨_, exec_finalize c s, State.finalizeChan_status_some hbuild, hread .b0, hread .b1, hread .b2, hread .a1,
    hread .a2, hread .off⟩

end Sys2Proof.Machine
end

section
/-! PROOFS. The control channel: the tick of a channel that is On and of one that is not, the ticks of UPDATE_ALL in any
order, and the FINALIZE of an accepted build with its normalized weights (rules R96 to R105). -/

namespace Sys2Proof.Machine

/-! ### The accumulators of the mixer and of the weight sum -/

/-- The accumulators of the mixer, entry by entry (rule R96). -/
theorem mix_chain (pick : NanPick) (temp w : Vector Word 16) :
    ∃ m : Nat → Word, m 0 = 0#32 ∧
      (∀ i : Fin 16, m (i.val + 1) = fadd (pick (2 * i.val + 1)) (m i.val) (fmul (pick (2 * i.val)) temp[i] w[i])) ∧
      m 16 = mix pick temp w :=
  foldl_finRange_chain 16 (fun m i => fadd (pick (2 * i.val + 1)) m (fmul (pick (2 * i.val)) temp[i] w[i])) fZero

/-- The accumulators of the absolute staging weights (rule R103). -/
theorem weightSum_chain (pick : NanPick) (ws : Vector Word 16) :
    ∃ a : Nat → Word, a 0 = 0#32 ∧
      (∀ i : Fin 16, a (i.val + 1) = fadd (pick i.val) (a i.val) (ws[i] &&& 0x7FFFFFFF#32)) ∧
      a 16 = weightSum pick ws :=
  foldl_finRange_chain 16 (fun a i => fadd (pick i.val) a (fabs ws[i])) fZero

/-! ### The two zeros -/

/-- The test for zero is met by the two zeros alone (rule R13). -/
theorem isZero_iff (w : Word) : isZero w = true ↔ w = 0x00000000#32 ∨ w = 0x80000000#32 := by
  refine ⟨fun h => ?_, ?_⟩
  · have hmag : magUnits w ≤ magUnits 0#32 := (beq_iff_eq.mp h).trans_le (Nat.zero_le _)
    have hpattern : (w.extractLsb' 0 31).toNat = 0 := Nat.le_zero.mp ((magUnits_le_iff w 0#32).mp hmag)
    have hself := packSign_signBit_pattern w
    rw [hpattern] at hself
    cases hs : signBit w <;> rw [hs] at hself
    · exact .inl hself.symm
    · exact .inr hself.symm
  · rintro (rfl | rfl) <;> decide

/-! ### UPDATE -/

theorem ChState.code_eq_one_iff {q : ChState} : q.code = 1#32 ↔ q = .on := by
  cases q <;> decide

section
variable {s : State} {c : ChanNo}

/-- Every register of the channel after UPDATE. -/
theorem Reg.read_ticked (r : ChanReg) :
    Reg.read (.chan c r) (s.tick c).commit = r.read (tickChannel (s.chanPicks c) s.temp s.ch[c]) := by
  rw [Reg.read_commit Reg.noConfusion, Reg.read, State.tick_ch_same]

/-- The tick of a channel that is not On writes MIX and OUT alone (rule R98). -/
theorem tick_framed_hold (h : s.ch[c].state ≠ .on) : framed [.chan c .mix, .chan c .out] s (s.tick c) := by
  refine framed_setChan (framed_refl _ s) fun q hq => ?_
  rw [tickChannel_hold h]
  cases q with
  | mix => exact absurd (by simp) hq
  | out => exact absurd (by simp) hq
  | _ => rfl

end

/-- Settles O21: the tick of an On channel, its mix and its output read off by register. -/
theorem updateOnRunsTheBiquad : Obligations.UpdateOnRunsTheBiquad := by
  intro s c hstate
  have htick := tickChannel_on (pick := s.chanPicks c) (temp := s.temp) (ChState.code_eq_one_iff.mp hstate)
  have hread (r : ChanReg) := (Reg.read_ticked r).trans (congrArg r.read htick)
  obtain ⟨m, hzero, hstep, hmix⟩ := mix_chain (s.chanPicks c) s.temp s.ch[c].live.w
  rw [← hmix] at hread
  exact ⟨_, s.chanPicks c, m, _, _, exec_update c s, hzero, hstep, rfl, rfl, hread .mix, hread .out, hread .x1,
    hread .x2, hread .y1, hread .y2, ended_commit (tick_framed s c), rfl, rfl⟩

/-- Settles O22: the tick of a channel in Hold or Off. -/
theorem updateHoldsWhenNotOn : Obligations.UpdateHoldsWhenNotOn := by
  intro s c hstate
  have hoff : s.ch[c].state ≠ .on := fun h => hstate (ChState.code_eq_one_iff.mpr h)
  have htick := tickChannel_hold (pick := s.chanPicks c) (temp := s.temp) hoff
  have hread (r : ChanReg) := (Reg.read_ticked r).trans (congrArg r.read htick)
  obtain ⟨m, hzero, hstep, hmix⟩ := mix_chain (s.chanPicks c) s.temp s.ch[c].live.w
  rw [← hmix] at hread
  exact ⟨_, s.chanPicks c, m, exec_update c s, hzero, hstep, hread .mix, hread .out,
    ended_commit (tick_framed_hold hoff), rfl, rfl⟩

/-! ### UPDATE_ALL -/

/-- Settles O23: each channel of the list gets its own tick, whatever was ticked before it. -/
theorem updateAllUpdatesEachChannel : Obligations.UpdateAllUpdatesEachChannel := by
  intro s
  refine ⟨_, exec_updateAll s, fun c u hu r => ?_, ended_commit (tickEach_writesOnly s).regs,
    by rw [State.tickEach_rest]; rfl, State.tickEach_bus s _⟩
  obtain rfl : (s.tick c).commit = u := Host.Outcome.next.inj hu
  have hmem : ∀ j : ChanNo, j ∈ ([0, 1, 2, 3] : List ChanNo) := by decide
  have hall := s.tickEach_ch_mem [0, 1, 2, 3] (by decide) c (hmem c)
  exact congrArg r.read (hall.trans (s.tick_ch_same c).symm)

theorem State.setChan_comm {a b : ChanNo} (h : a ≠ b) (s : State) (k l : Channel) :
    (s.setChan a k).setChan b l = (s.setChan b l).setChan a k :=
  congrArg (fun chans => { s with ch := chans }) (Vector.set_comm k l fun e => h (Fin.ext e))

/-- Ticks commute: a tick reads TEMP, the draws and its own channel, which no tick of another channel writes
(rule R100). -/
theorem State.tick_comm (s : State) (a b : ChanNo) : (s.tick a).tick b = (s.tick b).tick a := by
  by_cases h : a = b
  · rw [h]
  · have htick {i j : ChanNo} (hne : j ≠ i) : (s.tick i).tick j = (s.setChan i
        (tickChannel (s.chanPicks i) s.temp s.ch[i])).setChan j (tickChannel (s.chanPicks j) s.temp s.ch[j]) := by
      rw [State.tick, State.tick_ch_other hne]
      rfl
    rw [htick (Ne.symm h), htick h, State.setChan_comm h]

theorem State.tickEach_perm (s : State) {cs ds : List ChanNo} (h : cs.Perm ds) : s.tickEach cs = s.tickEach ds :=
  have : RightCommutative State.tick := ⟨State.tick_comm⟩
  h.foldl_eq s

/-- Settles O24: ticks commute. -/
theorem tickOrderIsImmaterial : Obligations.TickOrderIsImmaterial := by
  intro s cs hperm
  rw [exec_updateAll, s.tickEach_perm hperm]

/-! ### FINALIZE -/

/-- Settles O25: the built filter is the one to be installed, and nothing is flagged. -/
theorem finalizeInstallsAcceptedBuild : Obligations.FinalizeInstallsAcceptedBuild := by
  intro s c f hbuild
  have hread := Reg.read_finalized (builtFilter_some hbuild)
  exact ⟨_, s.chanPicks c, _, _, _, exec_finalize c s, hread .b0, hread .b1, hread .b2, hread .a1, hread .a2,
    hread .off, rfl, rfl, hread .lo, hread .hi, hread .vlim, rfl, hread .ilimUp, hread .ilimLo,
    ended_commit (finalizeChan_framed s c), State.finalizeChan_status_some hbuild, State.finalizeChan_bus s c⟩

/-! ### The weights of FINALIZE -/

theorem normalizeWeights_of_isZero {pick : NanPick} {ws : Vector Word 16} (h : isZero (weightSum pick ws) = true) :
    normalizeWeights pick ws = ws := if_pos h

theorem normalizeWeights_get {pick : NanPick} {ws : Vector Word 16} (h : ¬ isZero (weightSum pick ws) = true)
    (i : Fin 16) :
    (normalizeWeights pick ws)[i] =
      fmul (pick (17 + i.val)) ws[i] (fdiv (pick 16) 0x3F800000#32 (weightSum pick ws)) := by
  rw [normalizeWeights, if_neg h]
  exact Vector.getElem_ofFn i.isLt

/-- Settles O27: whichever filter is installed, the live weights are the normalized staging weights. -/
theorem finalizeNormalizesWeights : Obligations.FinalizeNormalizesWeights := by
  intro s t c hexec
  obtain rfl : (s.finalizeChan c).commit = t := Host.Outcome.next.inj hexec
  obtain ⟨a, hstart, hstep, hsum⟩ := weightSum_chain (s.chanPicks c) s.ch[c].stage.ws
  have hread (i : Fin 16) : Reg.read (.chan c (.w i)) (s.finalizeChan c).commit =
      (normalizeWeights (s.chanPicks c) s.ch[c].stage.ws)[i] := Reg.read_finalized rfl (.w i)
  refine ⟨s.chanPicks c, a, hstart, hstep, fun hz i => ?_, fun hnz i => ?_, fun i => Reg.read_finalized rfl (.ws i)⟩
  · rw [hsum, ← isZero_iff] at hz
    rw [hread, normalizeWeights_of_isZero hz]
  · rw [hsum, ← isZero_iff] at hnz
    rw [hread, normalizeWeights_get hnz, hsum]

end Sys2Proof.Machine
end

section
/-! PROOFS. No step is stuck, and a hang outlasts every input but a falling reset pin (rules R113, R114). -/

namespace Sys2Proof.Machine

/-! ### Every step -/

/-- Settles O9: an input moves the machine, and a command that runs is finished, whatever its flow. -/
theorem everyStepHasANextState : Obligations.EveryStepHasANextState := by
  intro s
  rcases step_cases s with ⟨l, hs⟩ | ⟨a, l, -, hs⟩ | ⟨a, v, l, -, hs⟩ | ⟨b, l, -, hs⟩ | ⟨i, l, -, -, -, hs⟩
  · exact ⟨_, hs⟩
  · exact ⟨_, hs⟩
  · exact ⟨_, hs⟩
  · exact ⟨_, hs⟩
  · exact ⟨_, hs.trans (exec_eq i (s.setInputs l))⟩

/-! ### What an input leaves of a hang -/

/-- The phase, the reset pin, the buses and every register but STATUS are the same in both states: what rule R114 has
stay in a hang. -/
structure HangKept (s t : State) : Prop where
  seq : t.seq = s.seq
  rstN : t.rstN = s.rstN
  bus : t.bus = s.bus
  read : ∀ r : Reg, r ≠ .status → r.read t = r.read s

theorem State.hung_congr {s t : State} (hseq : t.seq = s.seq) (hbus : t.bus = s.bus) : t.hung = s.hung := by
  simp only [State.hung, State.isBusy, hseq, hbus]

theorem State.hung_iff {s : State} : s.hung = true ↔ s.isBusy = true ∧ s.bus.inFlight.isSome = true :=
  Bool.and_eq_true_iff

section
variable {s t : State}

theorem HangKept.setInputs (s : State) (l : List Input) : HangKept s (s.setInputs l) :=
  ⟨rfl, rfl, rfl, fun r _ => r.read_setInputs s l⟩

theorem HangKept.flag (h : HangKept s t) (e : Cause) : HangKept s (t.flag e) :=
  ⟨h.seq, h.rstN, h.bus, fun r hr => (Reg.read_flag hr t e).trans (h.read r hr)⟩

theorem HangKept.setHRdata (h : HangKept s t) (v : Word) : HangKept s (t.setHRdata v) :=
  ⟨h.seq, h.rstN, h.bus, fun r hr => (r.read_setHRdata t v).trans (h.read r hr)⟩

/-- A host read out of reset flags an access error at most. -/
theorem HangKept.hostRead (h : HangKept s t) (hrst : t.rstN = true) (a : HostAddr) : HangKept s (t.hostRead a) := by
  rw [State.hostRead, if_pos hrst]
  cases ha : decodeAddr a with
  | some r => rw [memRead_mapped ha]; exact h.setHRdata _
  | none => rw [memRead_unmapped ha]; exact (h.flag .accErr).setHRdata _

/-- A host write while BUSY flags WR_BUSY, and is ignored. -/
theorem HangKept.hostWrite (h : HangKept s t) (hrst : t.rstN = true) (hbusy : t.isBusy = true) (a : HostAddr)
    (v : Word) : HangKept s (t.hostWrite a v) := by
  rw [State.hostWrite, if_pos hrst, memWrite_busy hbusy]
  exact h.flag .wrBusy

/-- The reset pin at 1 already stays there. -/
theorem State.setRstPin_high (hrst : s.rstN = true) : s.setRstPin true = s := by
  rw [State.setRstPin, if_pos rfl, if_pos hrst]

/-- No command runs in a hang, so a step is an input, and none but a falling reset pin reaches what the hang rests on. -/
theorem step_of_hung (hrst : s.rstN = true) (hhung : s.hung = true)
    (hpin : ∀ rest, s.inputs ≠ .rstPin false :: rest) : ∃ t, step s = .next t ∧ HangKept s t := by
  obtain ⟨hbusy, hflight⟩ := State.hung_iff.mp hhung
  have hkept := HangKept.setInputs s
  rcases step_cases s with ⟨l, hs⟩ | ⟨a, l, -, hs⟩ | ⟨a, v, l, -, hs⟩ | ⟨b, l, hin, hs⟩ | ⟨i, l, -, -, hfree, -⟩
  · exact ⟨_, hs, hkept l⟩
  · exact ⟨_, hs, (hkept l).hostRead hrst a⟩
  · exact ⟨_, hs, (hkept l).hostWrite hrst hbusy a v⟩
  · cases b with
    | false => exact absurd hin (hpin l)
    | true => exact ⟨_, hs, (State.setRstPin_high (s := s.setInputs l) hrst).symm ▸ hkept l⟩
  · simp [hfree] at hflight

end

/-- Settles O50: the step keeps what the hang rests on, and BUSY is the phase. -/
theorem onlyResetLeavesAHang : Obligations.OnlyResetLeavesAHang := by
  intro s hrst hhung hpin
  obtain ⟨t, hstep, hkept⟩ := step_of_hung hrst hhung hpin
  have hstill : t.hung = true := (State.hung_congr hkept.seq hkept.bus).trans hhung
  have hbusy : (Reg.read .status t).getLsbD 0 = true := t.statusRead_busy.trans (State.hung_iff.mp hstill).1
  exact ⟨t, hstep, hstill, hkept.rstN.trans hrst, hkept.bus, hbusy, hkept.read⟩

end Sys2Proof.Machine
end

section
/-! PROOFS. Reset: what a falling and a rising reset pin leave, what the host's accesses do in reset, and the commands
that a falling pin cuts after a transaction (rules R31, R122, R123). -/

namespace Sys2Proof.Machine

/-! ### The block in reset and out of it -/

/-- With the lines idle, every chip-select of the DAC is at 1 (rule R31). -/
theorem Buses.idleLines_csDacN (b : Buses) (c : ChanNo) : b.idleLines.csDacN[c] = true := Vector.getElem_replicate _

/-- In reset every register has the value of rule R123's table. -/
theorem Reg.read_inReset (r : Reg) (s : State) : r.read s.enterReset = resetTable s.cfg.params r :=
  (r.read_enterReset s).trans (r.read_resetOf s.cfg)

/-- Right after reset every register has the value of rule R123's table. -/
theorem Reg.read_afterReset (r : Reg) (s : State) : r.read s.leaveReset = resetTable s.cfg.params r :=
  (r.read_leaveReset s).trans (r.read_resetOf s.cfg)

theorem State.setRstPin_low (s : State) : s.setRstPin false = s.enterReset := rfl

/-- The pin that rises takes the block out of reset. -/
theorem State.setRstPin_rises {s : State} (hrst : s.rstN = false) : s.setRstPin true = s.leaveReset := by
  rw [State.setRstPin, if_pos rfl, if_neg (Bool.eq_false_iff.mp hrst)]

theorem State.hostRead_inReset {s : State} (hrst : s.rstN = false) (a : HostAddr) : s.hostRead a = s.setHRdata 0 :=
  if_neg (Bool.eq_false_iff.mp hrst)

theorem State.hostWrite_inReset {s : State} (hrst : s.rstN = false) (a : HostAddr) (v : Word) : s.hostWrite a v = s :=
  if_neg (Bool.eq_false_iff.mp hrst)

/-- Settles O18: a host access in reset reaches no register, and a rising pin resets them all. -/
theorem resetIgnoresTheHost : Obligations.ResetIgnoresTheHost := by
  intro s rest hrst
  have hpin : (s.setInputs rest).rstN = false := hrst
  refine ⟨fun a hin => ?_, fun a v hin => ?_, fun hin => ?_⟩
  · rw [step_hostRead hin, State.hostRead_inReset hpin]
    rfl
  · rw [step_hostWrite hin, State.hostWrite_inReset hpin]
    rfl
  · rw [step_rstPin hin, State.setRstPin_rises hpin]
    exact ⟨_, rfl, rfl, rfl, rfl, rfl, rfl, s.bus.idleLines_csDacN, rfl, fun r => r.read_afterReset _⟩

/-! ### A transaction that reset follows -/

/-- The buses after a transaction that ended, but for the lines. -/
theorem Buses.idleLines_endXfer (b : Buses) (line : BusLine) (tx : List Byte) (r : XferResult) :
    (b.endXfer line tx r).idleLines = (b.withFrames line [⟨line, tx, r⟩] (b.replies line).tail).idleLines := by
  cases line <;> rfl

/-- A transaction ends, well or not, and the pin falls: the frame is recorded as its result has it. -/
theorem spiXfer_reset {line : BusLine} {s : State} {r : XferResult} (h : s.bus.nextReply line = ⟨r, true⟩)
    (hr : r ≠ .stall) (tx : List Byte) :
    ∃ r', spiXfer line tx s = .resetHit (s.setBus (s.bus.endXfer line tx r')) ∧
      frameOf (line, tx) r = ⟨line, tx, r'⟩ := by
  unfold spiXfer
  rw [h]
  cases r with
  | ok rx => exact ⟨_, rfl, rfl⟩
  | fault => exact ⟨_, rfl, rfl⟩
  | stall => exact absurd rfl hr

/-! ### Flows that reset cuts -/

/-- What is recorded of the frames `fs`, of which the first were answered well by `rxs` and the next one, `f`, had the
result `r` when the pin fell. -/
def cutFrames (fs : List (BusLine × List Byte)) (rxs : List (List Byte)) (f : BusLine × List Byte) (r : XferResult) :
    List Frame :=
  List.zipWith (fun f rx => frameOf f (.ok rx)) fs rxs ++ [frameOf f r]

theorem framesUpTo_eq_cutFrames (i : Instr) (s : State) (rxs : List (List Byte)) (f : BusLine × List Byte)
    (r : XferResult) : framesUpTo i s rxs f r = cutFrames (serialFrames i s) rxs f r := rfl

/-- The pin falls after a transaction of the flow, which leaves the buses `b`, but for the lines, which reset idles. -/
def Flow.resetIn {α : Type} (x : Flow α) (b : Buses) : Prop := ∃ t, x = .resetHit t ∧ t.bus.idleLines = b.idleLines

theorem Flow.resetIn_andThen {α β : Type} {x : Flow α} {b : Buses} (h : x.resetIn b) (k : α → State → Flow β) :
    (x.andThen k).resetIn b := by
  obtain ⟨t, rfl, hb⟩ := h
  exact ⟨t, rfl, hb⟩

theorem Flow.resetIn_congr {α : Type} {x : Flow α} {b c : Buses} (h : x.resetIn b) (hbc : b.idleLines = c.idleLines) :
    x.resetIn c := by
  obtain ⟨t, hx, hb⟩ := h
  exact ⟨t, hx, hb.trans hbc⟩

section
variable {α : Type} {s : State} {line : BusLine} {tx : List Byte} {fs : List (BusLine × List Byte)}
  {f : BusLine × List Byte} {rxs : List (List Byte)} {r : XferResult} {rest : List Reply}

/-- The frame of a transaction that ended well comes before those of what follows it. -/
theorem Buses.idleLines_endXfer_ok (b : Buses) (rx : List Byte) :
    ((b.endXfer line tx (.ok (receivedBytes line tx.length rx))).withFrames line
        (cutFrames fs rxs f r) rest).idleLines =
      (b.withFrames line (cutFrames ((line, tx) :: fs) (rx :: rxs) f r) rest).idleLines := by
  cases line <;> simp [Buses.endXfer_adc, Buses.endXfer_dac, Buses.withFrames, Buses.idleLines, cutFrames, frameOf]

/-- A transaction and what follows it are cut as their frames are: at the transaction, or after it in what follows. -/
theorem resetIn_xfer {k : List Byte → State → Flow α} (hr : r ≠ .stall)
    (hf : ((line, tx) :: fs)[rxs.length]? = some f) (hrep : s.bus.replies line = rxs.map okReply ++ ⟨r, true⟩ :: rest)
    (hk : ∀ rx rxs' b, rxs = rx :: rxs' → fs[rxs'.length]? = some f →
      b.replies line = rxs'.map okReply ++ ⟨r, true⟩ :: rest →
      (k (receivedBytes line tx.length rx) (s.setBus b)).resetIn (b.withFrames line (cutFrames fs rxs' f r) rest)) :
    ((spiXfer line tx s).andThen k).resetIn (s.bus.withFrames line (cutFrames ((line, tx) :: fs) rxs f r) rest) := by
  cases rxs with
  | nil =>
    obtain rfl : (line, tx) = f := by simpa using hf
    obtain ⟨r', hx, hframe⟩ := spiXfer_reset (by rw [Buses.nextReply, hrep]; rfl) hr tx
    refine ⟨_, by rw [hx]; rfl, ?_⟩
    rw [State.setBus_bus, Buses.idleLines_endXfer, hrep, ← hframe]
    rfl
  | cons rx rxs' =>
    rw [spiXfer_ok (rx := rx) (by rw [Buses.nextReply, hrep]; rfl)]
    have hcut := hk rx rxs' (s.bus.endXfer line tx (.ok (receivedBytes line tx.length rx))) rfl (by simpa using hf)
      (by rw [Buses.replies_endXfer, hrep]; rfl)
    exact Flow.resetIn_congr hcut (s.bus.idleLines_endXfer_ok rx)

/-- The configuration writes of ADC_INIT. -/
theorem adcConfigure_resetIn (hr : r ≠ .stall) {l : List (BitVec 6 × AdcCfgEntry)}
    (hf : (l.map fun x => (BusLine.adc, adcCfgFrame x))[rxs.length]? = some f)
    (hrep : s.bus.replies .adc = rxs.map okReply ++ ⟨r, true⟩ :: rest) :
    (adcConfigure l s).resetIn
      (s.bus.withFrames .adc (cutFrames (l.map fun x => (.adc, adcCfgFrame x)) rxs f r) rest) := by
  induction l generalizing s rxs with
  | nil => simp at hf
  | cons x l ih =>
    simp only [adcConfigure, adcWriteFrame, Flow.andThen_assoc, Flow.andThen_ok, List.map_cons]
    exact resetIn_xfer hr hf hrep fun rx rxs' b _ hf' hrep' => ih (s := s.setBus b) hf' hrep'

/-- The frames of DAC_INIT; `k` stands for any line of the DAC bus. -/
theorem dacSendAll_resetIn (hr : r ≠ .stall) (n : BitVec 20) (k : ChanNo) {cs : List ChanNo}
    (hf : (cs.map fun c => (BusLine.dac c, dacFrameBytes n))[rxs.length]? = some f)
    (hrep : s.bus.dacIn = rxs.map okReply ++ ⟨r, true⟩ :: rest) :
    (dacSendAll n cs s).resetIn
      (s.bus.withFrames (.dac k) (cutFrames (cs.map fun c => (.dac c, dacFrameBytes n)) rxs f r) rest) := by
  induction cs generalizing s rxs with
  | nil => simp at hf
  | cons c cs ih =>
    simp only [dacSendAll, dacSend, dacFrame, Flow.andThen_assoc, Flow.andThen_ok, List.map_cons]
    exact resetIn_xfer (line := .dac c) hr hf hrep fun rx rxs' b _ hf' hrep' =>
      ih (s := (s.setBus b).setDacCode c n) hf' hrep'

/-- ADC_INIT: the reset frame, the read of ID, and where the identity matches the configuration writes. -/
theorem adcInitFlow_resetIn (hr : r ≠ .stall)
    (hf : ((adcInitFrames s.cfg.params).map fun tx => (BusLine.adc, tx))[rxs.length]? = some f)
    (hid : identityPassed .adcInit rxs) (hrep : s.bus.replies .adc = rxs.map okReply ++ ⟨r, true⟩ :: rest) :
    (adcInitFlow s).resetIn
      (s.bus.withFrames .adc (cutFrames ((adcInitFrames s.cfg.params).map fun tx => (.adc, tx)) rxs f r) rest) := by
  rw [adcInitFrames_eq_cons] at hf ⊢
  simp only [adcInitFlow, adcResetFrame, adcReadFrame, Flow.andThen_assoc, Flow.andThen_ok, List.map_cons,
    List.map_map] at hf ⊢
  refine resetIn_xfer (s := s.setAdcReady false) hr hf hrep fun rx0 rxs1 b0 h0 hf0 hrep0 => ?_
  refine resetIn_xfer (s := (s.setAdcReady false).setBus b0) hr hf0 hrep0 fun rx1 rxs2 b1 h1 hf1 hrep1 => ?_
  have hok := hid rfl rx1 (by rw [h0, h1]; rfl)
  rw [readFrameBytes_length, adcInitChecked, if_pos hok]
  exact Flow.resetIn_andThen (adcConfigure_resetIn (s := (((s.setAdcReady false).setBus b0).setBus b1).setAdc _) hr hf1
    hrep1) _

/-- A command whose first transactions end well, and whose next one the pin follows, is cut there, wherever among its
frames that is. -/
theorem commandFlow_resetIn {i : Instr} (hr : r ≠ .stall) (hf : (serialFrames i s)[rxs.length]? = some f)
    (hid : identityPassed i rxs) (hrep : s.bus.replies f.1 = rxs.map okReply ++ ⟨r, true⟩ :: rest) :
    (commandFlow i s).resetIn (s.bus.withFrames f.1 (cutFrames (serialFrames i s) rxs f r) rest) := by
  have hmem := List.mem_of_getElem? hf
  by_cases hadc : i = .adcInit
  · subst hadc
    obtain ⟨tx, -, rfl⟩ := List.mem_map.mp hmem
    exact adcInitFlow_resetIn hr hf hid hrep
  by_cases hdac : i = .dacInit
  · subst hdac
    rw [commandFlow, dacInitFlow, withDacCode]
    simp only [serialFrames] at hf hmem ⊢
    cases hcode : dacCodeFrom s.cfg.params fZero with
    | none => rw [hcode] at hmem; exact absurd hmem List.not_mem_nil
    | some n =>
      simp only [hcode] at hf hmem
      obtain ⟨c, -, rfl⟩ := List.mem_map.mp hmem
      exact dacSendAll_resetIn hr n c hf hrep
  · rw [serialFrames_single hadc hdac] at hf hmem ⊢
    rw [Option.mem_toList] at hmem
    obtain ⟨k, hk⟩ := commandFlow_begins hadc hdac hmem
    rw [hmem] at hf ⊢
    rw [hk]
    exact resetIn_xfer hr hf hrep fun rx rxs' b _ hf' => absurd hf' (by simp)

end

/-- Settles O17: a pin that falls between steps enters reset, and one that falls within a command does so with the buses
of the command's frames so far. -/
theorem resetAbandonsEverything : Obligations.ResetAbandonsEverything := by
  refine ⟨fun s rest hin => ?_, fun s i rxs f r rest hf hid hr hrep => ?_⟩
  · rw [step_rstPin hin, State.setRstPin_low]
    exact ⟨_, rfl, rfl, rfl, rfl, rfl, rfl, s.bus.idleLines_csDacN, rfl, rfl, rfl, fun q => q.read_inReset _⟩
  · obtain ⟨u, hflow, hu⟩ := commandFlow_resetIn hr hf hid hrep
    rw [← framesUpTo_eq_cutFrames] at hu
    rw [exec_eq, hflow, finish_resetHit]
    exact ⟨_, rfl, rfl, rfl, rfl, rfl, hu, fun q => q.read_inReset _⟩

end Sys2Proof.Machine
end

section
/-! PROOFS. The FINALIZE of a channel right after reset gives the live registers their reset values back (rules R26, R91
to R94, R101 to R105, R123). -/

namespace Sys2Proof.Machine

/-! ### Advisory limits and draws -/

theorem sameDatum_fneg {a b : Word} (h : sameDatum a b) : sameDatum (fneg a) (fneg b) :=
  h.imp (congrArg fneg) fun ⟨ha, hb⟩ => ⟨(isNaN_fneg a).trans ha, (isNaN_fneg b).trans hb⟩

/-- Against a number, `maxNum` and `minNum` do not see the bits of a NaN (rule R13). -/
theorem maxNum_minNum_sameDatum (d e : NanBits) {a a' b : Word} (h : sameDatum a a') (hb : isNaN b = false) :
    maxNum d a b = maxNum e a' b ∧ minNum d a b = minNum e a' b := by
  rcases h with rfl | ⟨ha, ha'⟩
  · exact ⟨maxNum_draw d e a hb, minNum_draw d e a hb⟩
  · obtain ⟨hmax, -, hmin, -⟩ := maxNum_minNum_of_isNaN_left d ha hb
    obtain ⟨hmax', -, hmin', -⟩ := maxNum_minNum_of_isNaN_left e ha' hb
    exact ⟨hmax.trans hmax'.symm, hmin.trans hmin'.symm⟩

/-- No draw shows in ILIM_UP (rule R104). -/
theorem advisoryUp_draw (pick pick' : NanPick) (p : Params) (hi : Word) :
    advisoryUp pick p hi = advisoryUp pick' p hi :=
  (maxNum_minNum_sameDatum _ _
    (fadd_draw _ _ (sameDatum_refl hi) (fmul_draw _ _ (sameDatum_refl _) (sameDatum_refl _))) (by decide)).1

/-- No draw shows in ILIM_LO (rule R104). -/
theorem advisoryLo_draw (pick pick' : NanPick) (p : Params) (lo : Word) :
    advisoryLo pick p lo = advisoryLo pick' p lo :=
  (maxNum_minNum_sameDatum _ _ (fadd_draw _ _ (sameDatum_refl lo)
    (sameDatum_fneg (fmul_draw _ _ (sameDatum_refl _) (sameDatum_refl _)))) (by decide)).2

/-! ### The bounds and the voltage limit -/

/-- A finite datum lies between the infinities (rule R13). -/
theorem datumOrder_between_infinities {a : Word} (h : isFinite a = true) :
    datumOrder fNegInf ≤ datumOrder a ∧ datumOrder a ≤ datumOrder fPosInf := by
  have hpattern := pattern_lt_of_isFinite h
  rw [show datumOrder fNegInf = -0x7F800001 by decide, show datumOrder fPosInf = 0x7F800000 by decide, datumOrder]
  split <;> omega

section
variable (cfg : AdmittedConfig)

/-- The infinite bounds of the reset staging registers are clamped to −C_SAFE and C_SAFE (rule R101). -/
theorem safeBound_infinities (d e : NanBits) : safeBound d e cfg.params fNegInf = fneg (cSafe cfg.params) ∧
    safeBound d e cfg.params fPosInf = cSafe cfg.params := by
  have hfin := (cSafe_admitted cfg).1
  have hnum := isNaN_cSafe cfg
  have hnegNum := (isNaN_fneg (cSafe cfg.params)).trans hnum
  have hpos := units_cSafe_pos cfg
  have hord : datumOrder (fneg (cSafe cfg.params)) ≤ datumOrder (cSafe cfg.params) :=
    (datumOrder_le_iff _ _).mpr (.inl (by rw [units_fneg]; omega))
  obtain ⟨hlow, -⟩ := datumOrder_between_infinities ((isFinite_fneg _).trans hfin)
  obtain ⟨-, hhigh⟩ := datumOrder_between_infinities hfin
  exact ⟨clampf_of_le_lo d e (by decide) hnegNum hnum hord hlow,
    clampf_of_ge_hi d e (by decide) hnegNum hnum hord hhigh⟩

/-- PWM_MAX_V of an admitted configuration is no NaN and at least +0.0, unless it is −0.0 (rule R10). -/
theorem pwmMaxV_admitted (hneg : cfg.params.pwmMaxV ≠ 0x80000000#32) :
    isNaN cfg.params.pwmMaxV = false ∧ datumOrder fZero ≤ datumOrder cfg.params.pwmMaxV := by
  have hle : fle fZero cfg.params.pwmMaxV = true := by
    have h := cfg.admitted
    simp only [paramsAdmitted, constantsOk, Bool.and_eq_true] at h
    tauto
  obtain ⟨-, hnum, hunits⟩ := fle_iff.mp hle
  refine ⟨hnum, (datumOrder_le_iff _ _).mpr ?_⟩
  rcases hunits.lt_or_eq with hlt | heq
  · exact .inl hlt
  · have hmag := natAbs_units cfg.params.pwmMaxV
    rw [← heq, show (units fZero).natAbs = 0 by decide] at hmag
    have hzero := ((isZero_iff _).mp (beq_iff_eq.mpr hmag.symm)).resolve_right hneg
    exact .inr ⟨heq, .inr (by rw [hzero]; decide)⟩

/-- The live voltage limit of the reset staging value is +0.0 (rule R102). -/
theorem liveVlim_zero (hneg : cfg.params.pwmMaxV ≠ 0x80000000#32) (pick : NanPick) :
    liveVlim pick cfg.params fZero = fZero := by
  obtain ⟨hnum, hord⟩ := pwmMaxV_admitted cfg hneg
  exact clampf_of_le_lo _ _ (by decide) (by decide) hnum hord le_rfl

end

/-! ### The weights -/

/-- Weights that are all zero have a zero sum, so they are not scaled (rule R103). -/
theorem normalizeWeights_zero (pick : NanPick) :
    normalizeWeights pick (Vector.replicate 16 fZero) = Vector.replicate 16 fZero := by
  have hadd (d : NanBits) : fadd d fZero (fabs fZero) = fZero := by
    rw [fadd_finite d (by decide) (by decide)]
    decide
  have hsum : weightSum pick (Vector.replicate 16 fZero) = fZero := List.foldl_fixed' (fun i => by
    rw [Fin.getElem_fin, Vector.getElem_replicate, hadd]) _
  exact normalizeWeights_of_isZero (by rw [hsum]; decide)

/-! ### The channel and the block -/

/-- The reset staging registers build the filter of zero gain (rules R93, R94). -/
theorem buildFilter_resetStage :
    buildFilter pidKernel resetStage = some (filterOf resetStage ⟨fZero, fZero, fZero, fZero, fZero⟩) :=
  buildFilter_proportional (g := resetStage) (by decide) (by decide) (by decide) (by decide)

section
variable {cfg : AdmittedConfig}

/-- The filter of the reset staging registers, its bounds clamped, is the live filter of reset. -/
theorem safetyClamp_resetStage (pick : NanPick) :
    safetyClamp pick cfg.params (filterOf resetStage ⟨fZero, fZero, fZero, fZero, fZero⟩) = resetFilter cfg.params := by
  obtain ⟨hlo, -⟩ := safeBound_infinities cfg (pick 33) (pick 34)
  obtain ⟨-, hhi⟩ := safeBound_infinities cfg (pick 35) (pick 36)
  have hfilter : filterOf resetStage ⟨fZero, fZero, fZero, fZero, fZero⟩ =
      ⟨fZero, fZero, fZero, fZero, fZero, fNegZero, fNegInf, fPosInf⟩ := by decide
  rw [hfilter, safetyClamp, hlo, hhi]
  rfl

/-- FINALIZE leaves a channel as reset left it, whatever the draws. -/
theorem finalizeChannel_resetChannel (hneg : cfg.params.pwmMaxV ≠ 0x80000000#32) (pick : NanPick) :
    finalizeChannel pick pidKernel cfg.params (resetChannel cfg.params) = resetChannel cfg.params := by
  have hup := advisoryUp_draw pick (fun _ => 0) cfg.params (cSafe cfg.params)
  have hlo := advisoryLo_draw pick (fun _ => 0) cfg.params (fneg (cSafe cfg.params))
  rw [finalizeChannel_eq_install, builtFilter_some buildFilter_resetStage, Channel.install, safetyClamp_resetStage]
  simp only [resetChannel, resetLive, resetFilter, resetStage, liveVlim_zero cfg hneg, normalizeWeights_zero, hup, hlo]

/-- The body of FINALIZE leaves the whole reset state as it is. -/
theorem finalizeChan_resetOf (hneg : cfg.params.pwmMaxV ≠ 0x80000000#32) (c : ChanNo) :
    (State.resetOf cfg).finalizeChan c = State.resetOf cfg := by
  have hch : (State.resetOf cfg).ch[c] = resetChannel cfg.params := Vector.getElem_replicate _
  rw [State.finalizeChan_some (by rw [hch]; exact buildFilter_resetStage), hch, State.resetOf_cfg,
    finalizeChannel_resetChannel hneg, ← hch]
  exact congrArg (fun chans => { State.resetOf cfg with ch := chans }) (Vector.set_getElem_self _)

end

/-- Settles O19: the body changes nothing, and the commit finds the block IDLE already. -/
theorem finalizeFromResetChangesNothing : Obligations.FinalizeFromResetChangesNothing := by
  intro cfg c hneg
  refine ⟨_, exec_finalize c _, fun r => ?_⟩
  rw [finalizeChan_resetOf hneg]
  by_cases hr : r = .status
  · subst hr
    rfl
  · exact Reg.read_commit hr _

end Sys2Proof.Machine
end

section
/-! PROOFS. The sample words of the test vectors: each is the word of the command listed for it, so it decodes to that
command (rules R54 to R56). -/

namespace Sys2Proof

/-- The word of a well-formed command decodes to that command. -/
theorem decode_of_encode_eq {w : Word} {i : Instr} (hwf : i.wf = true) (h : encode i = w) : decode w = .ok i :=
  h ▸ decodeEncodeAgree i hwf

/-- Settles O4: each word is laid out of the opcode and the operands of its command, and decoding undoes encoding. -/
theorem sampleWordsDecode : Obligations.SampleWordsDecode := by
  have hnop : encode .nop = 0x00000000#32 := by decide
  have hupdate : encode (.update 3) = 0x00000301#32 := by decide
  have hcalT : encode (.calT 15) = 0x000F0810#32 := by decide
  have hread : encode (.adcRead 0x07 2) = 0x02070022#32 := by decide
  have hwrite : encode (.adcWrite 0x01 3) = 0x03010023#32 := by decide
  have hdac : encode (.dacSet 3 .out) = 0x00000731#32 := by decide
  exact ⟨decode_of_encode_eq rfl hnop, decode_of_encode_eq rfl hupdate, decode_of_encode_eq rfl hcalT,
    decode_of_encode_eq (by decide) hread, decode_of_encode_eq (by decide) hwrite, decode_of_encode_eq rfl hdac⟩

end Sys2Proof
end
